-- ==== Sys2Proof/Word.lean ====
section
/-! DEFINITION. The two bit-vector types of the block: a register word (10_state.md R20) and a byte of BUF
(10_state.md R32). -/

namespace Sys2Proof

/-- A 32-bit register value, bit 0 the least significant (R11, R20). -/
abbrev Word := BitVec 32

/-- One byte of BUF (R32). -/
abbrev Byte := BitVec 8

end Sys2Proof
end

