-- ==== Sys2Proof/Config.lean ====
section
/-! DEFINITION. What an implementation fixes (00_scope.md R8, 20_memory.md R51) and the values the spec leaves
free (70_reset_and_hazards.md R241). -/

namespace Sys2Proof

/-- The block's one configuration parameter, BUF_BYTES (R8). The machine takes it as an argument:
`Machine.State.powerOn` puts it into the BUF_SIZE register, and every operation reads it from there. -/
structure Config where
  bufBytes : Nat
  deriving DecidableEq, Repr

/-- The bounds R8 sets: 1 <= BUF_BYTES <= 2^28. -/
abbrev Config.Legal (c : Config) : Prop := 1 ≤ c.bufBytes ∧ c.bufBytes ≤ 2 ^ 28

/-- DESIGN CHOICE (log 2), unsafe: the BUF_BYTES of the one machine `State.reset` names. The spec leaves it
open (R8); the largest legal size leaves no address out. No statement rests on it. -/
def Config.chosen : Config := { bufBytes := 2 ^ 28 }

/-- FREE VALUE (R241, I2; log 3): what BUF address `addr` holds before it is first written after the
`epoch`-th power-on. It has no body, so nothing can be proved of its value. -/
opaque Config.powerOnByte (epoch addr : Nat) : Byte

/-- A place in one of the block's two address spaces (R50). -/
inductive Place where
  /-- a byte offset in the register space -/
  | reg (offset : Nat)
  /-- a byte address in BUF -/
  | buf (addr : Nat)
  deriving DecidableEq, Repr

/-- FREE VALUE, the parameter HOST_MAP (R51, I6; log 8): which place of the block, if any, an address of the
host's own map stands for. It has no body: the model assumes nothing of it. -/
opaque Config.hostMap (hostAddr : Nat) : Option Place

end Sys2Proof
end

