-- ==== Sys2Proof/Syntax.lean ====
section
/-! DEFINITION. The commands of the block: one constructor for each row of spec/opcode_table.json
(30_encoding.md R72). -/

namespace Sys2Proof

/-- A command. The word carries no operand but the bit count N of the two CN rows (R71), an unsigned 6-bit
field; every other operand is in a register (R75). -/
inductive Instr where
  /-- READ_BIT, R104 -/
  | readBit
  /-- WRITE_BIT, R105 -/
  | writeBit
  /-- READ_BITS n, R106 -/
  | readBits (n : BitVec 6)
  /-- WRITE_BITS n, R107 -/
  | writeBits (n : BitVec 6)
  /-- READ_UE, R125 -/
  | readUe
  /-- WRITE_UE, R126 -/
  | writeUe
  /-- READ_SE, R127 -/
  | readSe
  /-- WRITE_SE, R128 -/
  | writeSe
  /-- FIND_START_CODE, R142 -/
  | findStartCode
  /-- FIND_SPS, R144 -/
  | findSps
  /-- INSPECT_PROFILE, R146 -/
  | inspectProfile
  /-- FIX_CROP, R172 -/
  | fixCrop
  /-- FILLER_NAL, R191 -/
  | fillerNal
  /-- PAD, R193 -/
  | pad
  deriving DecidableEq, Repr

end Sys2Proof
end

