-- ==== Sys2Proof/WellFormed.lean ====
section
/-! DEFINITION. Which commands are legal (30_encoding.md R71): N is 0 to 32. -/

namespace Sys2Proof

/-- R71: the legal values of N are 0 to 32; a C0 command carries none. -/
def Instr.wf : Instr → Bool
  | .readBits n => decide (n.toNat ≤ 32)
  | .writeBits n => decide (n.toNat ≤ 32)
  | .readBit => true
  | .writeBit => true
  | .readUe => true
  | .writeUe => true
  | .readSe => true
  | .writeSe => true
  | .findStartCode => true
  | .findSps => true
  | .inspectProfile => true
  | .fixCrop => true
  | .fillerNal => true
  | .pad => true

end Sys2Proof
end

