-- ==== Sys2Proof/Decode.lean ====
section
/-! DEFINITION. The command word (30_encoding.md R70 to R74): its fields, its decoder, total on every word and
rejecting by name, and its encoder. -/

namespace Sys2Proof

/-- OP, bits 7:0 (R70). -/
def opField (w : Word) : BitVec 8 := w.extractLsb' 0 8

/-- N, bits 13:8 (R70). -/
def nField (w : Word) : BitVec 6 := w.extractLsb' 8 6

/-- RSVD, bits 31:14 (R70). -/
def rsvdField (w : Word) : BitVec 18 := w.extractLsb' 14 18

/-- Why a word is illegal (R73). Each reason raises IllegalCommand (R74). -/
inductive DecodeError where
  /-- OP is one of the reserved opcodes -/
  | reservedOpcode (op : BitVec 8)
  /-- RSVD is not 0 -/
  | reservedBits (rsvd : BitVec 18)
  /-- N is not 0 and OP is neither READ_BITS nor WRITE_BITS -/
  | strayCount (n : BitVec 6)
  /-- N is over 32 -/
  | countTooLarge (n : BitVec 6)
  deriving DecidableEq, Repr

/-- A format C0 command: N must be 0 (R71, R73). -/
def decodeC0 (n : BitVec 6) (i : Instr) : Except DecodeError Instr :=
  if n = 0#6 then .ok i else .error (.strayCount n)

/-- A format CN command: N must be 0 to 32 (R71, R73). -/
def decodeCN (n : BitVec 6) (i : Instr) : Except DecodeError Instr :=
  if n.toNat ≤ 32 then .ok i else .error (.countTooLarge n)

/-- The opcode map (R72), and R73's reserved opcodes. -/
def decodeOp (op : BitVec 8) (n : BitVec 6) : Except DecodeError Instr :=
  if op = 0x01#8 then decodeC0 n .readBit
  else if op = 0x02#8 then decodeC0 n .writeBit
  else if op = 0x03#8 then decodeCN n (.readBits n)
  else if op = 0x04#8 then decodeCN n (.writeBits n)
  else if op = 0x05#8 then decodeC0 n .readUe
  else if op = 0x06#8 then decodeC0 n .writeUe
  else if op = 0x07#8 then decodeC0 n .readSe
  else if op = 0x08#8 then decodeC0 n .writeSe
  else if op = 0x10#8 then decodeC0 n .findStartCode
  else if op = 0x11#8 then decodeC0 n .findSps
  else if op = 0x12#8 then decodeC0 n .inspectProfile
  else if op = 0x18#8 then decodeC0 n .fixCrop
  else if op = 0x20#8 then decodeC0 n .fillerNal
  else if op = 0x21#8 then decodeC0 n .pad
  else .error (.reservedOpcode op)

/-- The decoder of a command word (R70 to R73). -/
def decode (w : Word) : Except DecodeError Instr :=
  if rsvdField w = 0#18 then decodeOp (opField w) (nField w)
  else .error (.reservedBits (rsvdField w))

/-- The opcode of a command (R72). -/
def Instr.opcode : Instr → BitVec 8
  | .readBit => 0x01#8
  | .writeBit => 0x02#8
  | .readBits _ => 0x03#8
  | .writeBits _ => 0x04#8
  | .readUe => 0x05#8
  | .writeUe => 0x06#8
  | .readSe => 0x07#8
  | .writeSe => 0x08#8
  | .findStartCode => 0x10#8
  | .findSps => 0x11#8
  | .inspectProfile => 0x12#8
  | .fixCrop => 0x18#8
  | .fillerNal => 0x20#8
  | .pad => 0x21#8

/-- The bit count a command's word carries, 0 for format C0 (R70). -/
def Instr.count : Instr → BitVec 6
  | .readBits n => n
  | .writeBits n => n
  | .readBit => 0#6
  | .writeBit => 0#6
  | .readUe => 0#6
  | .writeUe => 0#6
  | .readSe => 0#6
  | .writeSe => 0#6
  | .findStartCode => 0#6
  | .findSps => 0#6
  | .inspectProfile => 0#6
  | .fixCrop => 0#6
  | .fillerNal => 0#6
  | .pad => 0#6

/-- The command word: (N << 8) | OP with RSVD = 0 (R70). -/
def encode (i : Instr) : Word :=
  (i.count.setWidth 32 <<< 8) ||| i.opcode.setWidth 32

/-- The command the decoder reads from a word of `nbits` bits; the bits above `nbits` are 0. A command is one
32-bit word (R70), so a longer one is none. -/
def decodeTableWord (nbits w : Nat) : Option Instr :=
  if nbits ≤ 32 then
    match decode (BitVec.ofNat 32 (w % 2 ^ nbits)) with
    | .ok i => some i
    | .error _ => none
  else none

end Sys2Proof
end

