-- ==== Sys2Proof/Machine/State.lean ====
section
/-! DEFINITION. The state of the block (10_state.md R21, R32), the turns of its two agents and of the reset input
(00_scope.md R7), the ways a step can stop, and the state after reset (70_reset_and_hazards.md R240, R241). -/

namespace Sys2Proof.Machine

/-- Why a step stops with a fault. -/
inductive Fault where
  /-- R250: a host access other than a STATUS read while STATUS.BUSY = 1. Raised by `hostAccess`. The spec calls
  the hardware's result undefined; stopping is safe. -/
  | hostHazard
  deriving DecidableEq, Repr

/-- Why a step is refused. -/
inductive Refusal where
  /-- A command without a meaning; no arm of `exec` is one. Safe. -/
  | notModelled (mnemonic : String)
  /-- R251: a register access of another width or alignment, or at an offset of 0x40 or more, is not part of the
  interface. Raised by `hostAccess`. Safe. -/
  | registerAccess (offset width : Nat)
  /-- R251: a BUF access of another width, or at an address of BUF_BYTES or more, is not part of the interface.
  Raised by `hostAccess`. Safe. -/
  | bufferAccess (addr width : Nat)
  deriving DecidableEq, Repr

/-- The registers by name (R21). -/
inductive Reg where
  | cmd | status | arg0 | arg1 | arg2 | arg3 | res0 | res1 | curBase | curPos | curLimit | bufSize
  deriving DecidableEq, Repr

/-- A host access, with its width in bytes (R31, R50). Only the widths 4 (registers) and 1 (BUF) are part of the
interface (R251). -/
inductive HostAccess where
  | readReg (offset width : Nat)
  | writeReg (offset width : Nat) (v : Word)
  | readBuf (addr width : Nat)
  | writeBuf (addr width : Nat) (v : Byte)
  deriving DecidableEq, Repr

/-- A host access at an address of the host's own map, which `Config.hostMap` places (R51). -/
inductive MappedAccess where
  | read (hostAddr width : Nat)
  | write (hostAddr width : Nat) (v : Word)
  deriving DecidableEq, Repr

/-- One turn of the total order of R59: who moves, and with what. DESIGN CHOICE (log 4). -/
inductive Turn where
  /-- the block: its pending command's atomic step (R57), nothing when idle -/
  | block
  /-- the host, at a place of the block -/
  | host (a : HostAccess)
  /-- the host, at an address of its own map -/
  | hostAt (a : MappedAccess)
  /-- the host reads STATUS until BUSY = 0 (R77); `busyReads` of those reads come before the block moves (I7, log 13) -/
  | poll (busyReads : Nat)
  /-- a reset asserted after power-on (R240, R242) -/
  | reset
  /-- a power-on reset (R240, R241) -/
  | powerOn
  deriving DecidableEq, Repr

/-- BUF and its size. -/
structure Buffer where
  /-- the BUF_SIZE register: BUF_BYTES, constant (R21, R8) -/
  size : Word
  /-- how many power-ons came before the last one; the model's own, it selects the free value of an unwritten
  byte (R241, log 3) -/
  epoch : Nat
  /-- the bytes written since power-on, addresses strictly rising (R32, log 3) -/
  cells : List Host.Cell
  deriving DecidableEq, Repr

/-- The state of the machine. -/
structure State where
  /-- CMD (R22) -/
  cmd : Word
  /-- STATUS (R23); its bit BUSY is also R33's `pending` (log 10) -/
  status : Word
  /-- ARG0 (R24) -/
  arg0 : Word
  /-- ARG1 (R24) -/
  arg1 : Word
  /-- ARG2 (R24) -/
  arg2 : Word
  /-- ARG3 (R24) -/
  arg3 : Word
  /-- RES0 (R25) -/
  res0 : Word
  /-- RES1 (R25) -/
  res1 : Word
  /-- CUR_BASE (R26) -/
  curBase : Word
  /-- CUR_POS (R26) -/
  curPos : Word
  /-- CUR_LIMIT (R26) -/
  curLimit : Word
  /-- BUF_SIZE (R21) and BUF (R32) -/
  buf : Buffer
  /-- the turns still to come; the model's own (log 4) -/
  agenda : List Turn
  /-- what the host's reads returned, newest first; the model's own (log 7) -/
  reads : List Word
  deriving DecidableEq, Repr

/-- The state right after power-on of a block with parameter `c` (R240, R241): every register at R21's reset
value, nothing written to BUF, idle. -/
def State.powerOn (c : Config) : State :=
  { cmd := 0#32, status := 0#32
    arg0 := 0#32, arg1 := 0#32, arg2 := 0#32, arg3 := 0#32
    res0 := 0#32, res1 := 0#32
    curBase := 0#32, curPos := 0#32, curLimit := 0#32
    buf := { size := BitVec.ofNat 32 c.bufBytes, epoch := 0, cells := [] }
    agenda := [], reads := [] }

/-- The machine right after reset (R240, R243). -/
def State.reset : State := State.powerOn Config.chosen

end Sys2Proof.Machine
end

