-- ==== Sys2Proof/Machine/Flags.lean ====
section
/-! DEFINITION. The errors a command can raise and every STATUS value (10_state.md R23, R29; 60_exceptions.md R211,
R213). -/

namespace Sys2Proof.Machine

/-- The errors of R211, each with its DETAIL where that is not 0 (R14). -/
inductive Raise where
  | notFound
  | unsupportedProfile (profileIdc : Byte)
  | unsupportedVui
  | invalidSize
  | malformedBitstream
  | illegalCommand
  | valueRange
  deriving DecidableEq, Repr

/-- STATUS.CODE of an error (R211). -/
def Raise.code : Raise → BitVec 4
  | .notFound => 1#4
  | .unsupportedProfile _ => 2#4
  | .unsupportedVui => 3#4
  | .invalidSize => 4#4
  | .malformedBitstream => 5#4
  | .illegalCommand => 6#4
  | .valueRange => 7#4

/-- STATUS.DETAIL of an error: profile_idc for UnsupportedProfile, else 0 (R211). -/
def Raise.detail : Raise → Byte
  | .unsupportedProfile p => p
  | .notFound => 0#8
  | .unsupportedVui => 0#8
  | .invalidSize => 0#8
  | .malformedBitstream => 0#8
  | .illegalCommand => 0#8
  | .valueRange => 0#8

/-- STATUS after success (R213). -/
def statusOk : Word := 0x00000000#32

/-- STATUS from a CMD write until the command completes (R33). -/
def statusBusy : Word := 0x00000001#32

/-- STATUS after `raise e` (R213): (zext(detail) << 8) | (code << 4) | 0b10. -/
def statusOfRaise (e : Raise) : Word :=
  (e.detail.setWidth 32 <<< 8) ||| (e.code.setWidth 32 <<< 4) ||| 0b10#32

/-- STATUS.BUSY, bit 0 (R23). -/
def busyBit (w : Word) : Bool := w.getLsbD 0

/-- STATUS.ERR, bit 1 (R23). -/
def errBit (w : Word) : Bool := w.getLsbD 1

/-- STATUS.CODE, bits 7:4 (R23). -/
def codeField (w : Word) : BitVec 4 := w.extractLsb' 4 4

/-- STATUS.DETAIL, bits 15:8 (R23). -/
def detailField (w : Word) : Byte := w.extractLsb' 8 8

/-- STATUS's reserved bits 3:2 (R23). -/
def statusReservedLow (w : Word) : BitVec 2 := w.extractLsb' 2 2

/-- STATUS's reserved bits 31:16 (R23). -/
def statusReservedHigh (w : Word) : BitVec 16 := w.extractLsb' 16 16

/-- A command is pending (R33): STATUS.BUSY = 1. -/
def State.busy (s : State) : Bool := busyBit s.status

end Sys2Proof.Machine
end

