-- ==== Sys2Proof/Machine/Ops.lean ====
section
/-! DEFINITION. The shared operations: BUF's bytes and bits (00_scope.md R13), the bit cursor (40_bit_cursor.md R100
to R103), how a command ends (60_exceptions.md R213) and the reset input (70_reset_and_hazards.md R240 to R242). -/

namespace Sys2Proof.Machine

/-! ## Memory: a list of cells -/

/-- What the list holds for an address; an unlisted address has no value (log 3). -/
def Memory.get : List Host.Cell → Nat → Option Byte
  | [], _ => none
  | (b, v) :: m, a => if a = b then some v else Memory.get m a

/-- Writing one byte: in its place by address, over an earlier one. -/
def Memory.set : List Host.Cell → Nat → Byte → List Host.Cell
  | [], a, v => [(a, v)]
  | (b, w) :: m, a, v =>
    if a < b then (a, v) :: (b, w) :: m
    else if a = b then (a, v) :: m
    else (b, w) :: Memory.set m a v

/-- The canonical form: addresses strictly rising. An unlisted address has no value, so no entry can equal what
one reads as (log 3). -/
abbrev Memory.wf (m : List Host.Cell) : Prop := m.Pairwise fun x y => x.1 < y.1

/-! ## BUF (R13) -/

/-- BUF_BYTES, read from the BUF_SIZE register (R8, R21). -/
def Buffer.bytes (b : Buffer) : Nat := b.size.toNat

/-- MemRead(a, 1) (R13). A byte not written since power-on is the free value (R241). -/
def Buffer.read (b : Buffer) (a : Nat) : Byte :=
  (Memory.get b.cells a).getD (Config.powerOnByte b.epoch a)

/-- MemWrite(a, 1, v) (R13). -/
def Buffer.write (b : Buffer) (a : Nat) (v : Byte) : Buffer :=
  { b with cells := Memory.set b.cells a v }

/-- MemRead(a, n): the big-endian concatenation of n bytes, as a number (R13). -/
def Buffer.readN (b : Buffer) (a : Nat) : Nat → Nat
  | 0 => 0
  | n + 1 => (b.readN a n <<< 8) ||| (b.read (a + n)).toNat

/-- Bytes stored at consecutive rising addresses from `a` (R58). -/
def Buffer.writeBytes (b : Buffer) (a : Nat) : List Byte → Buffer
  | [] => b
  | v :: vs => (b.write a v).writeBytes (a + 1) vs

/-- The n bytes of the number v, most significant first (R13). -/
def bigEndianBytes (n v : Nat) : List Byte :=
  (List.range n).map fun i => BitVec.ofNat 8 (v >>> (8 * (n - 1 - i)))

/-- MemWrite(a, n, v): the bytes of v in big-endian order (R13). -/
def Buffer.writeN (b : Buffer) (a n v : Nat) : Buffer := b.writeBytes a (bigEndianBytes n v)

/-- GetBit(a) = (MemRead(a div 8, 1) >> (7 - a mod 8)) & 1 (R13). -/
def Buffer.getBit (b : Buffer) (a : Nat) : Bool := (b.read (a / 8)).getLsbD (7 - a % 8)

/-- PutBit(a, v): the byte with bit 7 - a mod 8 cleared, or-ed with v there (R13). -/
def Buffer.putBit (b : Buffer) (a : Nat) (v : Bool) : Buffer :=
  b.write (a / 8)
    ((b.read (a / 8) &&& ~~~(1#8 <<< (7 - a % 8))) ||| ((if v then 1#8 else 0#8) <<< (7 - a % 8)))

/-! ## The bit cursor (R15, R54, R100 to R103) -/

/-- A cursor (R15), on unbounded integers (R54, D38). -/
structure Cursor where
  base : Nat
  pos : Nat
  limit : Nat
  deriving DecidableEq, Repr

/-- The bit address of the cursor's position: 8 x base + pos. -/
def Cursor.bitAddr (c : Cursor) : Nat := 8 * c.base + c.pos

/-- R54: the bit at the cursor may be touched. -/
def Cursor.inBounds (c : Cursor) (bufBytes : Nat) : Bool :=
  decide (c.pos < 8 * c.limit ∧ c.base + c.pos / 8 < bufBytes)

/-- The cursor `n` bits on. -/
def Cursor.advance (c : Cursor) (n : Nat) : Cursor := { c with pos := c.pos + n }

/-- CursorReadBit (R100). -/
def cursorReadBit (b : Buffer) (c : Cursor) : Except Raise (Bool × Cursor) :=
  if c.inBounds b.bytes then .ok (b.getBit c.bitAddr, c.advance 1) else .error .malformedBitstream

/-- CursorWriteBit (R101). -/
def cursorWriteBit (b : Buffer) (c : Cursor) (v : Bool) : Except Raise (Buffer × Cursor) :=
  if c.inBounds b.bytes then .ok (b.putBit c.bitAddr v, c.advance 1) else .error .malformedBitstream

/-- The loop of R102, `n` bits still to come and `v` read so far. -/
def cursorReadBitsFrom (b : Buffer) : Nat → Nat → Cursor → Except Raise (Nat × Cursor)
  | 0, v, c => .ok (v, c)
  | n + 1, v, c => do
    let (bit, c') ← cursorReadBit b c
    cursorReadBitsFrom b n ((v <<< 1) ||| bit.toNat) c'

/-- CursorReadBits (R102). -/
def cursorReadBits (b : Buffer) (c : Cursor) (n : Nat) : Except Raise (Nat × Cursor) :=
  cursorReadBitsFrom b n 0 c

/-- CursorWriteBits (R103): bit v[n-1] first. -/
def cursorWriteBits (b : Buffer) (c : Cursor) : Nat → Nat → Except Raise (Buffer × Cursor)
  | 0, _ => .ok (b, c)
  | n + 1, v => do
    let (b', c') ← cursorWriteBit b c (v.testBit n)
    cursorWriteBits b' c' n v

/-! ## How a command ends (R213, R14, R57) -/

/-- The end of a command that raises: STATUS reports the error and nothing else changes (R14, R213). This is the
block's whole taking of an exception (R210): no handler, nothing saved (R218), nothing to return from (R219). -/
def State.fail (s : State) (e : Raise) : State := { s with status := statusOfRaise e }

/-- The end of a command that succeeds: RES0, RES1 and STATUS (R25, R213). -/
def State.succeed (s : State) (r0 r1 : Word) : State :=
  { s with res0 := r0, res1 := r1, status := statusOk }

/-- CUR_POS after a cursor command (R26). -/
def State.setPos (s : State) (pos : Nat) : State := { s with curPos := BitVec.ofNat 32 pos }

/-- BUF after a command that writes it. -/
def State.setBuf (s : State) (b : Buffer) : State := { s with buf := b }

/-- A command's one atomic transition (R57): the state it computed, or on a raise the old state with STATUS. -/
def finish (s : State) : Except Raise State → Host.Outcome State Fault Refusal
  | .ok t => .next t
  | .error e => .next (s.fail e)

/-! ## The reset input (R240 to R242) -/

/-- Every register at its reset value, BUF unchanged; a pending command is cancelled with BUSY (R240 to R242). -/
def State.afterReset (s : State) : State :=
  { s with
    cmd := 0#32, status := statusOk
    arg0 := 0#32, arg1 := 0#32, arg2 := 0#32, arg3 := 0#32
    res0 := 0#32, res1 := 0#32
    curBase := 0#32, curPos := 0#32, curLimit := 0#32 }

/-- A power-on reset: the registers as after any reset, and every byte of BUF a fresh draw (R241, log 12). -/
def State.afterPowerOn (s : State) : State :=
  { s.afterReset with buf := { s.buf with epoch := s.buf.epoch + 1, cells := [] } }

end Sys2Proof.Machine
end

