-- ==== Sys2Proof/Machine/Operands.lean ====
section
/-! DEFINITION. How the commands read their operands (30_encoding.md R75) and write results (00_scope.md R10, R11). -/

namespace Sys2Proof.Machine

/-- "u32" of R75: the register's 32 bits as an unsigned number. -/
def u32 (w : Word) : Nat := w.toNat

/-- "s32" of R75: two's complement (R10). -/
def s32 (w : Word) : Int := if w.toNat < 2 ^ 31 then (w.toNat : Int) else (w.toNat : Int) - 2 ^ 32

/-- "bit0" of R75: bit 0 alone. -/
def bit0 (w : Word) : Bool := w.getLsbD 0

/-- u32(v) = v mod 2^32 (R10), v not negative. -/
def word (v : Nat) : Word := BitVec.ofNat 32 v

/-- u32(v) of a signed v (R10, R127). -/
def wordOfInt (v : Int) : Word := BitVec.ofInt 32 v

/-- The user-visible cursor (R15, R26). -/
def State.cursor (s : State) : Cursor :=
  { base := u32 s.curBase, pos := u32 s.curPos, limit := u32 s.curLimit }

end Sys2Proof.Machine
end

