-- ==== Sys2Proof/Machine/BitCursor.lean ====
section
/-! DEFINITION. The CURSOR commands (40_bit_cursor.md R104 to R107). -/

namespace Sys2Proof.Machine

/-- READ_BIT (R104). -/
def execReadBit (s : State) : Host.Outcome State Fault Refusal :=
  finish s do
    let (v, c) ← cursorReadBit s.buf s.cursor
    return (s.setPos c.pos).succeed (word v.toNat) (word 1)

/-- WRITE_BIT (R105). -/
def execWriteBit (s : State) : Host.Outcome State Fault Refusal :=
  finish s do
    let (b, c) ← cursorWriteBit s.buf s.cursor (bit0 s.arg0)
    return ((s.setBuf b).setPos c.pos).succeed (word 0) (word 1)

/-- READ_BITS n (R106); N > 32 is IllegalCommand (R71, log 11). -/
def execReadBits (n : BitVec 6) (s : State) : Host.Outcome State Fault Refusal :=
  finish s do
    if n.toNat ≤ 32 then
      let (v, c) ← cursorReadBits s.buf s.cursor n.toNat
      return (s.setPos c.pos).succeed (word v) (word n.toNat)
    else .error .illegalCommand

/-- WRITE_BITS n (R107); N > 32 is IllegalCommand (R71, log 11). -/
def execWriteBits (n : BitVec 6) (s : State) : Host.Outcome State Fault Refusal :=
  finish s do
    if n.toNat ≤ 32 then
      let (b, c) ← cursorWriteBits s.buf s.cursor n.toNat (u32 s.arg0)
      return ((s.setBuf b).setPos c.pos).succeed (word 0) (word n.toNat)
    else .error .illegalCommand

end Sys2Proof.Machine
end

