-- ==== Sys2Proof/Machine/ExpGolomb.lean ====
section
/-! DEFINITION. The Exp-Golomb codec functions (41_expgolomb.md R121 to R124) and the EG commands (R125 to R128). -/

namespace Sys2Proof.Machine

/-- floor_log2(t) for t >= 1 (R10). -/
def floorLog2 (t : Nat) : Nat := Nat.log2 t

/-- The leading-zero loop of R121: `fuel` more zeros are allowed, `k` were read. With `fuel` = 32 at the start, the
32nd zero raises once it has been read. -/
def leadingZeros (b : Buffer) : Nat → Nat → Cursor → Except Raise (Nat × Cursor)
  | 0, _, _ => .error .malformedBitstream
  | fuel + 1, k, c => do
    let (bit, c') ← cursorReadBit b c
    if bit then return (k, c') else leadingZeros b fuel (k + 1) c'

/-- ReadUE (R121). -/
def readUE (b : Buffer) (c : Cursor) : Except Raise (Nat × Cursor) := do
  let (k, c1) ← leadingZeros b 32 0 c
  let (tail, c2) ← cursorReadBits b c1 k
  return (2 ^ k - 1 + tail, c2)

/-- WriteUE (R122): the range check comes before any bit. -/
def writeUE (b : Buffer) (c : Cursor) (v : Nat) : Except Raise (Buffer × Cursor) :=
  if v > 2 ^ 32 - 2 then .error .valueRange
  else do
    let tmp := v + 1
    let k := floorLog2 tmp
    let (b1, c1) ← cursorWriteBits b c k 0
    cursorWriteBits b1 c1 (k + 1) tmp

/-- The signed value of a mapped Ue value (R123). -/
def seOfUe (tmp : Nat) : Int := if tmp % 2 = 1 then ((tmp + 1) / 2 : Nat) else -((tmp / 2 : Nat) : Int)

/-- The mapped Ue value of a signed value (R124, C1). -/
def ueOfSe (v : Int) : Nat := if v > 0 then (2 * v - 1).toNat else (-2 * v).toNat

/-- ReadSE (R123). -/
def readSE (b : Buffer) (c : Cursor) : Except Raise (Int × Cursor) := do
  let (tmp, c') ← readUE b c
  return (seOfUe tmp, c')

/-- WriteSE (R124). -/
def writeSE (b : Buffer) (c : Cursor) (v : Int) : Except Raise (Buffer × Cursor) :=
  if v = -2 ^ 31 then .error .valueRange else writeUE b c (ueOfSe v)

/-- READ_UE (R125). -/
def execReadUe (s : State) : Host.Outcome State Fault Refusal :=
  finish s do
    let (v, c) ← readUE s.buf s.cursor
    return (s.setPos c.pos).succeed (word v) (word (c.pos - s.cursor.pos))

/-- WRITE_UE (R126). -/
def execWriteUe (s : State) : Host.Outcome State Fault Refusal :=
  finish s do
    let (b, c) ← writeUE s.buf s.cursor (u32 s.arg0)
    return ((s.setBuf b).setPos c.pos).succeed (word 0) (word (c.pos - s.cursor.pos))

/-- READ_SE (R127). -/
def execReadSe (s : State) : Host.Outcome State Fault Refusal :=
  finish s do
    let (v, c) ← readSE s.buf s.cursor
    return (s.setPos c.pos).succeed (wordOfInt v) (word (c.pos - s.cursor.pos))

/-- WRITE_SE (R128). -/
def execWriteSe (s : State) : Host.Outcome State Fault Refusal :=
  finish s do
    let (b, c) ← writeSE s.buf s.cursor (s32 s.arg0)
    return ((s.setBuf b).setPos c.pos).succeed (word 0) (word (c.pos - s.cursor.pos))

end Sys2Proof.Machine
end

