-- ==== Sys2Proof/Machine/Crop.lean ====
section
/-! DEFINITION. FIX_CROP, the SPS frame-crop rewrite (43_sps_crop.md R160 to R172). -/

namespace Sys2Proof.Machine

/-- UNSUPPORTED_PROFILES (R163, R9). -/
def unsupportedProfiles : List Nat := [100, 110, 122, 244, 44, 83, 86, 118, 128]

/-- The fields that follow pic_order_cnt_type (R164, R165; names of R19). -/
inductive PocFields where
  /-- pic_order_cnt_type 0 -/
  | lsb (log2MaxPicOrderCntLsbMinus4 : Nat)
  /-- pic_order_cnt_type 1; the length of the list is num_ref_frames_in_pic_order_cnt_cycle -/
  | cycle (deltaPicOrderAlwaysZero : Bool) (offsetForNonRefPic offsetForTopToBottomField : Int)
      (offsetForRefFrame : List Int)
  /-- any other value, no further fields -/
  | other (picOrderCntType : Nat)
  deriving DecidableEq, Repr

/-- The fields R164 reads before the splice point, "a structured, fully-named field record" (R160); it is no state of
the block. -/
structure SpsFields where
  profileIdc : Nat
  constraintByte : Nat
  levelIdc : Nat
  seqParameterSetId : Nat
  log2MaxFrameNumMinus4 : Nat
  poc : PocFields
  maxNumRefFrames : Nat
  gapsInFrameNumValueAllowed : Bool
  picWidthInMbsMinus1 : Nat
  picHeightInMapUnitsMinus1 : Nat
  frameMbsOnly : Bool
  /-- read exactly when frame_mbs_only_flag = 0 (R166) -/
  mbAdaptiveFrameField : Option Bool
  direct8x8Inference : Bool
  deriving DecidableEq, Repr

/-- The four crop offsets, in stream order: left, right, top, bottom (R164, R170). -/
structure CropOffsets where
  left : Nat
  right : Nat
  top : Nat
  bottom : Nat
  deriving DecidableEq, Repr

/-- What the parse phase finds (R160, R164, R167). -/
structure SpsParse where
  fields : SpsFields
  /-- the splice point S -/
  splice : Nat
  /-- the old crop offsets, read when frame_cropping_flag = 1 -/
  oldCrop : Option CropOffsets
  vui : Bool
  deriving DecidableEq, Repr

/-- `repeat n times: ReadSE(r)` (R164). -/
def readSEs (b : Buffer) : Nat → Cursor → Except Raise (List Int × Cursor)
  | 0, r => .ok ([], r)
  | n + 1, r => do
    let (v, r1) ← readSE b r
    let (vs, r2) ← readSEs b n r1
    return (v :: vs, r2)

/-- pic_order_cnt_type and the fields it selects (R164, R165). -/
def parsePoc (b : Buffer) (r : Cursor) : Except Raise (PocFields × Cursor) := do
  let (pocType, r) ← readUE b r
  if pocType = 0 then
    let (lsb, r) ← readUE b r
    return (.lsb lsb, r)
  else if pocType = 1 then
    let (always, r) ← cursorReadBit b r
    let (nonRef, r) ← readSE b r
    let (topBottom, r) ← readSE b r
    let (n, r) ← readUE b r
    let (offsets, r) ← readSEs b n r
    return (.cycle always nonRef topBottom offsets, r)
  else return (.other pocType, r)

/-- mb_adaptive_frame_field_flag, read exactly when frame_mbs_only_flag = 0 (R166). -/
def parseMbaff (b : Buffer) (frameMbsOnly : Bool) (r : Cursor) : Except Raise (Option Bool × Cursor) :=
  if frameMbsOnly then .ok (none, r)
  else do
    let (v, r) ← cursorReadBit b r
    return (some v, r)

/-- The fields R164 reads after profile_idc and before the splice point. -/
def parseAfterProfile (b : Buffer) (profile : Nat) (r : Cursor) : Except Raise (SpsFields × Cursor) := do
  let (constraint, r) ← cursorReadBits b r 8
  let (level, r) ← cursorReadBits b r 8
  let (spsId, r) ← readUE b r
  let (log2Frame, r) ← readUE b r
  let (poc, r) ← parsePoc b r
  let (refs, r) ← readUE b r
  let (gaps, r) ← cursorReadBit b r
  let (width, r) ← readUE b r
  let (height, r) ← readUE b r
  let (fmo, r) ← cursorReadBit b r
  let (mbaff, r) ← parseMbaff b fmo r
  let (direct, r) ← cursorReadBit b r
  return ({ profileIdc := profile, constraintByte := constraint, levelIdc := level,
            seqParameterSetId := spsId, log2MaxFrameNumMinus4 := log2Frame, poc := poc,
            maxNumRefFrames := refs, gapsInFrameNumValueAllowed := gaps,
            picWidthInMbsMinus1 := width, picHeightInMapUnitsMinus1 := height,
            frameMbsOnly := fmo, mbAdaptiveFrameField := mbaff, direct8x8Inference := direct }, r)

/-- The parse sequence of R164 up to the splice point, with the unsupported-profile test right after profile_idc
(R163). -/
def parseFields (b : Buffer) (r : Cursor) : Except Raise (SpsFields × Cursor) := do
  let (profile, r) ← cursorReadBits b r 8
  if profile ∈ unsupportedProfiles then .error (.unsupportedProfile (BitVec.ofNat 8 profile))
  else parseAfterProfile b profile r

/-- The old frame_cropping_flag and, if it is 1, the four old offsets (R164). -/
def parseOldCrop (b : Buffer) (r : Cursor) : Except Raise (Option CropOffsets × Cursor) := do
  let (flag, r) ← cursorReadBit b r
  if flag then
    let (left, r) ← readUE b r
    let (right, r) ← readUE b r
    let (top, r) ← readUE b r
    let (bottom, r) ← readUE b r
    return (some { left := left, right := right, top := top, bottom := bottom }, r)
  else return (none, r)

/-- The whole parse phase (R164, R167, R168). -/
def parseSps (b : Buffer) (r : Cursor) : Except Raise SpsParse := do
  let (fields, r) ← parseFields b r
  let splice := r.pos
  let (oldCrop, r) ← parseOldCrop b r
  let (vui, _) ← cursorReadBit b r
  if vui then .error .unsupportedVui
  else return { fields := fields, splice := splice, oldCrop := oldCrop, vui := vui }

/-- (16 - (v mod 16)) mod 16, which is round_up(v, 16) - v (R169). -/
def macroblockGap (v : Nat) : Nat := (16 - v % 16) % 16

/-- The crop values (R169); `div` is floor division. -/
def cropValues (width height : Nat) (frameMbsOnly : Bool) : CropOffsets :=
  { left := 0, right := macroblockGap width / 2
    top := 0, bottom := macroblockGap height / (if frameMbsOnly then 2 else 4) }

/-- The write phase (R170); the cursor it ends with is at F. -/
def writeCrop (b : Buffer) (w : Cursor) (crop : CropOffsets) (vui : Bool) : Except Raise (Buffer × Cursor) := do
  let (b, w) ← cursorWriteBit b w true
  let (b, w) ← writeUE b w crop.left
  let (b, w) ← writeUE b w crop.right
  let (b, w) ← writeUE b w crop.top
  let (b, w) ← writeUE b w crop.bottom
  let (b, w) ← cursorWriteBit b w vui
  cursorWriteBit b w true

/-- ceil_div(a, b) = (a + b - 1) div b (R10). -/
def ceilDiv (a b : Nat) : Nat := (a + b - 1) / b

/-- A cursor over the parse region of the range [base, base + cap) (R162); Nat subtraction is max(cap - 5, 0). -/
def regionCursor (base cap pos : Nat) : Cursor := { base := base + 5, pos := pos, limit := cap - 5 }

/-- FIX_CROP (R172). -/
def execFixCrop (s : State) : Host.Outcome State Fault Refusal :=
  finish s do
    if u32 s.arg0 + u32 s.arg1 > s.buf.bytes then .error .malformedBitstream
    else
      let p ← parseSps s.buf (regionCursor (u32 s.arg0) (u32 s.arg1) 0)
      let crop := cropValues (u32 s.arg2) (u32 s.arg3) p.fields.frameMbsOnly
      let (b, w) ← writeCrop s.buf (regionCursor (u32 s.arg0) (u32 s.arg1) p.splice) crop p.vui
      return (s.setBuf b).succeed (word (5 + ceilDiv w.pos 8)) (word w.pos)

end Sys2Proof.Machine
end

