-- ==== Sys2Proof/Machine/Filler.lean ====
section
/-! DEFINITION. The filler NAL and padding commands (44_filler.md R190 to R193). -/

namespace Sys2Proof.Machine

/-- FillerBytes(n), n >= 6 (R190). -/
def fillerBytes (n : Nat) : List Byte :=
  [0x00#8, 0x00#8, 0x00#8, 0x01#8, 0x0C#8] ++ List.replicate (n - 6) 0xFF#8 ++ [0x80#8]

/-- FILLER_LEN[0..7] (R192). -/
def fillerLengths : List Nat := [0, 7, 14, 13, 12, 11, 10, 9]

/-- FILLER_LEN[d] (R192). -/
def fillerLen (d : Nat) : Nat := fillerLengths.getD d 0

/-- The bounds check and the write that both commands share (R191, R193): a + n is an unbounded sum (R55). -/
def placeFiller (b : Buffer) (a n : Nat) : Except Raise Buffer :=
  if a + n > b.bytes then .error .malformedBitstream else .ok (b.writeBytes a (fillerBytes n))

/-- FILLER_NAL (R191): InvalidSize is tested before the bounds. -/
def execFillerNal (s : State) : Host.Outcome State Fault Refusal :=
  finish s do
    if u32 s.arg1 < 6 then .error .invalidSize
    else
      let b ← placeFiller s.buf (u32 s.arg0) (u32 s.arg1)
      return (s.setBuf b).succeed (word (u32 s.arg1)) (word 0)

/-- PAD (R193). -/
def execPad (s : State) : Host.Outcome State Fault Refusal :=
  finish s do
    let d := u32 s.arg1 % 8
    if d = 0 then return s.succeed (word 0) (word 0)
    else
      let b ← placeFiller s.buf (u32 s.arg0 + u32 s.arg1) (fillerLen d)
      return (s.setBuf b).succeed (word (fillerLen d)) (word d)

end Sys2Proof.Machine
end

