-- ==== Sys2Proof/Machine/Nal.lean ====
section
/-! DEFINITION. The NAL locator and the NAL commands (42_nal_locator.md R140 to R147). -/

namespace Sys2Proof.Machine

/-- nal_unit_type of a header byte: its low 5 bits (R147). -/
def nalUnitType (h : Byte) : Nat := (h &&& 0x1F#8).toNat

/-- nal_unit_type of an SPS (R9). -/
def spsType : Nat := 7

/-- The loop of R140: `fuel` bytes still to scan, the next at `i`, the rolling window `w`. The low 24 bits of the
window are compared (C6). -/
def findStartCodeFrom (b : Buffer) : Nat → Nat → Word → Option Nat
  | 0, _, _ => none
  | fuel + 1, i, w =>
    let w' := (w <<< 8) ||| (b.read i).setWidth 32
    if w'.extractLsb' 0 24 = 0x000001#24 then some (i + 1) else findStartCodeFrom b fuel (i + 1) w'

/-- FindStartCode(start, end) (R140): the byte just past the first 00 00 01 in [start, stop). -/
def findStartCode (b : Buffer) (start stop : Nat) : Option Nat :=
  findStartCodeFrom b (stop - start) start 0xFFFFFFFF#32

/-- The loop of R143 with at most `fuel` start codes looked at. -/
def findSpsFrom (b : Buffer) (stop : Nat) : Nat → Nat → Except Raise Nat
  | 0, _ => .error .notFound
  | fuel + 1, pos =>
    match findStartCode b pos stop with
    | none => .error .notFound
    | some p =>
      if p ≥ stop then .error .notFound
      else if nalUnitType (b.read p) = spsType then .ok p
      else findSpsFrom b stop fuel (p + 1)

/-- FindSPS(start, end) (R143): the address of the SPS header byte. Each pass moves on by at least 4 bytes (R143), so
this fuel is never used up (`Laws`: `findSpsFrom_fuel`). -/
def findSps (b : Buffer) (start stop : Nat) : Except Raise Nat :=
  findSpsFrom b stop (stop - start + 1) start

/-- InspectProfile(start, end) (R145): profile_idc and level_idc. -/
def inspectProfile (b : Buffer) (start stop : Nat) : Except Raise (Byte × Byte) := do
  let p ← findSps b start stop
  if p + 3 ≥ stop then .error .malformedBitstream
  else return (b.read (p + 1), b.read (p + 3))

/-- The range check of all three commands: end > BUF_BYTES raises before any byte is read (42_nal_locator.md
section 3, D37). -/
def checkEnd (b : Buffer) (stop : Nat) : Except Raise Unit :=
  if stop > b.bytes then .error .malformedBitstream else .ok ()

/-- FIND_START_CODE (R142). -/
def execFindStartCode (s : State) : Host.Outcome State Fault Refusal :=
  finish s do
    checkEnd s.buf (u32 s.arg1)
    match findStartCode s.buf (u32 s.arg0) (u32 s.arg1) with
    | none => .error .notFound
    | some p => return s.succeed (word p) (word 0)

/-- FIND_SPS (R144). -/
def execFindSps (s : State) : Host.Outcome State Fault Refusal :=
  finish s do
    checkEnd s.buf (u32 s.arg1)
    let p ← findSps s.buf (u32 s.arg0) (u32 s.arg1)
    return s.succeed (word p) (word (s.buf.read p).toNat)

/-- INSPECT_PROFILE (R146). -/
def execInspectProfile (s : State) : Host.Outcome State Fault Refusal :=
  finish s do
    checkEnd s.buf (u32 s.arg1)
    let (profile, level) ← inspectProfile s.buf (u32 s.arg0) (u32 s.arg1)
    return s.succeed (word profile.toNat) (word level.toNat)

end Sys2Proof.Machine
end

