-- ==== Sys2Proof/Machine/Dispatch.lean ====
section
/-! DEFINITION. One arm per command (30_encoding.md R72). -/

namespace Sys2Proof.Machine

def exec (i : Instr) (s : State) : Host.Outcome State Fault Refusal :=
  match i with
  | .readBit => Sys2Proof.Machine.execReadBit s
  | .writeBit => Sys2Proof.Machine.execWriteBit s
  | .readBits n => Sys2Proof.Machine.execReadBits n s
  | .writeBits n => Sys2Proof.Machine.execWriteBits n s
  | .readUe => Sys2Proof.Machine.execReadUe s
  | .writeUe => Sys2Proof.Machine.execWriteUe s
  | .readSe => Sys2Proof.Machine.execReadSe s
  | .writeSe => Sys2Proof.Machine.execWriteSe s
  | .findStartCode => Sys2Proof.Machine.execFindStartCode s
  | .findSps => Sys2Proof.Machine.execFindSps s
  | .inspectProfile => Sys2Proof.Machine.execInspectProfile s
  | .fixCrop => Sys2Proof.Machine.execFixCrop s
  | .fillerNal => Sys2Proof.Machine.execFillerNal s
  | .pad => Sys2Proof.Machine.execPad s

end Sys2Proof.Machine
end

