-- ==== Sys2Proof/Machine/HostPort.lean ====
section
/-! DEFINITION. The host's accesses (10_state.md R21 to R33; 20_memory.md R50, R51, R56; 70_reset_and_hazards.md R250,
R251). -/

namespace Sys2Proof.Machine

/-- What stands at a word of the register space (R21). -/
inductive Slot where
  | reg (r : Reg)
  | reserved
  deriving DecidableEq, Repr

/-- The register map (R21, R31). An offset that is not a multiple of 4, or is 0x40 or more, has no slot. -/
def slotAt (offset : Nat) : Option Slot :=
  if offset = 0x00 then some (.reg .cmd)
  else if offset = 0x04 then some (.reg .status)
  else if offset = 0x08 then some (.reg .arg0)
  else if offset = 0x0C then some (.reg .arg1)
  else if offset = 0x10 then some (.reg .arg2)
  else if offset = 0x14 then some (.reg .arg3)
  else if offset = 0x18 then some (.reg .res0)
  else if offset = 0x1C then some (.reg .res1)
  else if offset = 0x20 then some (.reg .curBase)
  else if offset = 0x24 then some (.reg .curPos)
  else if offset = 0x28 then some (.reg .curLimit)
  else if offset = 0x2C then some (.reg .bufSize)
  else if offset = 0x30 ∨ offset = 0x34 ∨ offset = 0x38 ∨ offset = 0x3C then some .reserved
  else none

/-- The offset of a register (R21). -/
def Reg.offset : Reg → Nat
  | .cmd => 0x00
  | .status => 0x04
  | .arg0 => 0x08
  | .arg1 => 0x0C
  | .arg2 => 0x10
  | .arg3 => 0x14
  | .res0 => 0x18
  | .res1 => 0x1C
  | .curBase => 0x20
  | .curPos => 0x24
  | .curLimit => 0x28
  | .bufSize => 0x2C

/-- x[R] (R11). -/
def State.readReg (s : State) : Reg → Word
  | .cmd => s.cmd
  | .status => s.status
  | .arg0 => s.arg0
  | .arg1 => s.arg1
  | .arg2 => s.arg2
  | .arg3 => s.arg3
  | .res0 => s.res0
  | .res1 => s.res1
  | .curBase => s.curBase
  | .curPos => s.curPos
  | .curLimit => s.curLimit
  | .bufSize => s.buf.size

/-- A reserved word reads 0 (R31). -/
def State.readSlot (s : State) : Slot → Word
  | .reg r => s.readReg r
  | .reserved => 0#32

/-- A CMD write while BUSY = 0 (R33): it stores the word and makes the command pending. -/
def State.startCommand (s : State) (w : Word) : State := { s with cmd := w, status := statusBusy }

/-- A host write to a register (R21): CMD starts a command, RW registers take the value, RO registers ignore it. -/
def State.hostWriteReg (s : State) (r : Reg) (v : Word) : State :=
  match r with
  | .cmd => s.startCommand v
  | .status => s
  | .arg0 => { s with arg0 := v }
  | .arg1 => { s with arg1 := v }
  | .arg2 => { s with arg2 := v }
  | .arg3 => { s with arg3 := v }
  | .res0 => s
  | .res1 => s
  | .curBase => { s with curBase := v }
  | .curPos => { s with curPos := v }
  | .curLimit => { s with curLimit := v }
  | .bufSize => s

/-- A reserved word ignores writes (R31). -/
def State.hostWriteSlot (s : State) (t : Slot) (v : Word) : State :=
  match t with
  | .reg r => s.hostWriteReg r v
  | .reserved => s

/-- A read's value goes to the host and changes nothing else (R56, log 7). -/
def State.recordRead (s : State) (v : Word) : State := { s with reads := v :: s.reads }

/-- R251: the access is part of the interface, else the refusal that says why not. -/
def HostAccess.check (bufBytes : Nat) : HostAccess → Option Refusal
  | .readReg off w => if w = 4 ∧ (slotAt off).isSome then none else some (.registerAccess off w)
  | .writeReg off w _ => if w = 4 ∧ (slotAt off).isSome then none else some (.registerAccess off w)
  | .readBuf a w => if w = 1 ∧ a < bufBytes then none else some (.bufferAccess a w)
  | .writeBuf a w _ => if w = 1 ∧ a < bufBytes then none else some (.bufferAccess a w)

/-- R250: the one access allowed while BUSY = 1 is a read of STATUS. -/
def HostAccess.isStatusRead : HostAccess → Bool
  | .readReg off _ => decide (slotAt off = some (.reg .status))
  | .writeReg _ _ _ => false
  | .readBuf _ _ => false
  | .writeBuf _ _ _ => false

/-- The effect of an access that is part of the interface and no hazard (R21, R31, R33, R50, R56). -/
def HostAccess.effect (a : HostAccess) (s : State) : State :=
  match a with
  | .readReg off _ => s.recordRead (s.readSlot ((slotAt off).getD .reserved))
  | .writeReg off _ v => s.hostWriteSlot ((slotAt off).getD .reserved) v
  | .readBuf addr _ => s.recordRead ((s.buf.read addr).setWidth 32)
  | .writeBuf addr _ v => s.setBuf (s.buf.write addr v)

/-- A host access: refused outside the interface (R251), a hazard while BUSY unless it reads STATUS (R250), else its
effect. DESIGN CHOICE (log 6): an access that is both is refused. -/
def hostAccess (a : HostAccess) (s : State) : Host.Outcome State Fault Refusal :=
  match a.check s.buf.bytes with
  | some r => .refused r
  | none => if s.busy && !a.isStatusRead then .fault .hostHazard else .next (a.effect s)

/-- HOST_MAP applied (R51): the place of the block an access reaches; none when the address is not the block's. -/
def MappedAccess.resolve : MappedAccess → Option HostAccess
  | .read h w =>
    match Config.hostMap h with
    | some (.reg off) => some (.readReg off w)
    | some (.buf a) => some (.readBuf a w)
    | none => none
  | .write h w v =>
    match Config.hostMap h with
    | some (.reg off) => some (.writeReg off w v)
    | some (.buf a) => some (.writeBuf a w (v.setWidth 8))
    | none => none

/-- A host access at an address of its own map. One that HOST_MAP does not place at the block is no access to it
(log 8). -/
def mappedAccess (m : MappedAccess) (s : State) : Host.Outcome State Fault Refusal :=
  match m.resolve with
  | some a => hostAccess a s
  | none => .next s

end Sys2Proof.Machine
end

