-- ==== Sys2Proof/Machine/Turns.lean ====
section
/-! DEFINITION. One turn of the block, the host or the reset input (00_scope.md R7; 20_memory.md R59). -/

namespace Sys2Proof.Machine

/-- The block's step on its pending command (R33): the word check first (R74, R216), then the command. -/
def blockStep (s : State) : Host.Outcome State Fault Refusal :=
  match decode s.cmd with
  | .ok i => exec i s
  | .error _ => .next (s.fail .illegalCommand)

/-- The block's turn: it steps only while BUSY = 1 (R7), else it is idle (R243). -/
def blockTurn (s : State) : Host.Outcome State Fault Refusal :=
  if s.busy then blockStep s else .next s

/-- A read of STATUS by the host (R21). -/
def statusRead : HostAccess := .readReg Reg.status.offset 4

/-- A poll (R77): STATUS reads that end with the first one that finds BUSY = 0. While BUSY = 1, each of `busyReads`
reads leaves the poll to go on, and then the block moves (I7, R255). -/
def pollTurn (busyReads : Nat) (s : State) : Host.Outcome State Fault Refusal :=
  if s.busy then
    match busyReads with
    | 0 => blockTurn { s with agenda := .poll 0 :: s.agenda }
    | n + 1 => hostAccess statusRead { s with agenda := .poll n :: s.agenda }
  else hostAccess statusRead s

/-- One turn. -/
def runTurn (t : Turn) (s : State) : Host.Outcome State Fault Refusal :=
  match t with
  | .block => blockTurn s
  | .host a => hostAccess a s
  | .hostAt m => mappedAccess m s
  | .poll n => pollTurn n s
  | .reset => .next s.afterReset
  | .powerOn => .next s.afterPowerOn

/-- The first turn of the agenda; on an empty one the block moves, so a pending command takes its step (R255, log 4). -/
def nextTurn (s : State) : Host.Outcome State Fault Refusal :=
  match s.agenda with
  | [] => blockTurn s
  | t :: rest => runTurn t { s with agenda := rest }

end Sys2Proof.Machine
end

