-- ==== Sys2Proof/Machine/Step.lean ====
section
/-! DEFINITION. One step of the machine, and a command word placed where the block takes its next one. -/

namespace Sys2Proof.Machine

/-- One step: the next turn of R59's total order. -/
def step (s : State) : Host.Outcome State Fault Refusal := nextTurn s

/-- The state in which the block's next step runs the command word `w`: the CMD write of R33 has been made, and the
block moves next (log 9). -/
def State.withFetchWord (s : State) (nbits w : Nat) : State :=
  { s.startCommand (BitVec.ofNat 32 (w % 2 ^ nbits)) with
    agenda := match s.agenda with
      | [] => []
      | t :: rest => .block :: t :: rest }

end Sys2Proof.Machine
end

