-- ==== Sys2Proof/Machine/HostProgram.lean ====
section
/-! DEFINITION. The host-program syntax and its pseudo-instructions (30_encoding.md R77, R78), as syntax trees that
expand to turns of the host. -/

namespace Sys2Proof.Machine

/-- A line of a host program (R77). -/
inductive HostLine where
  /-- `wr REG, v`; a negative v means its two's-complement pattern; a v of more than 32 bits: log 19 -/
  | wr (r : Reg) (v : Int)
  /-- `rd REG` -/
  | rd (r : Reg)
  /-- `wb a, v` -/
  | wb (a : Nat) (v : Byte)
  /-- `rb a` -/
  | rb (a : Nat)
  /-- `cmd MNEMONIC` and `cmd MNEMONIC n` -/
  | cmd (i : Instr)
  /-- `poll` -/
  | poll
  deriving DecidableEq, Repr

/-- A 32-bit write to a register's offset. -/
def writeRegTurn (r : Reg) (v : Word) : Turn := .host (.writeReg r.offset 4 v)

/-- A 32-bit read of a register's offset. -/
def readRegTurn (r : Reg) : Turn := .host (.readReg r.offset 4)

/-- The one host action a line stands for (R77); `busyReads` counts for a `poll` alone (I7, log 13). DESIGN CHOICE
(log 19): a `wr` of a v of 2^32 or more, or below -2^31, of which R77 says nothing, writes v mod 2^32. -/
def HostLine.turn (busyReads : Nat) : HostLine → Turn
  | .wr r v => writeRegTurn r (BitVec.ofInt 32 v)
  | .rd r => readRegTurn r
  | .wb a v => .host (.writeBuf a 1 v)
  | .rb a => .host (.readBuf a 1)
  | .cmd i => writeRegTurn .cmd (encode i)
  | .poll => .poll busyReads

/-- A line or a pseudo-instruction (R78). -/
inductive HostMacro where
  | line (l : HostLine)
  /-- `do MNEMONIC[ n] a0[, a1[, a2[, a3]]]`; no operand, or more than four: log 19 -/
  | run (i : Instr) (args : List Int)
  /-- `seek p` -/
  | seek (p : Int)
  /-- `cursor b, p, l` -/
  | cursor (b p l : Int)
  deriving DecidableEq, Repr

/-- What a pseudo-instruction expands to (R78). DESIGN CHOICE (log 19): R78's `do` has one to four operands; with none it
expands here to the `cmd` and the `poll`, and of more than four the fifth and later are dropped. -/
def HostMacro.expand : HostMacro → List HostLine
  | .line l => [l]
  | .run i args =>
    ([Reg.arg0, Reg.arg1, Reg.arg2, Reg.arg3].zip args).map (fun p => HostLine.wr p.1 p.2) ++ [.cmd i, .poll]
  | .seek p => [.wr .curPos p]
  | .cursor b p l => [.wr .curBase b, .wr .curPos p, .wr .curLimit l]

/-- The lines of a program, its pseudo-instructions expanded (R78). -/
def programLines (p : List HostMacro) : List HostLine := p.flatMap HostMacro.expand

/-- The turns of a program. A poll that is line `k` reads STATUS `busyReads k` times while BUSY = 1, so that each poll
has a number of its own (I7, log 13). DESIGN CHOICE (log 18): there is no block turn between two lines, so the block
moves only within a poll or after the last line, and a `rd STATUS` between a `cmd` and its `poll` finds BUSY = 1. R255
and I7 leave open whether the block has moved by then; an agenda that lists block turns says any other order. -/
def programTurns (busyReads : Nat → Nat) (p : List HostMacro) : List Turn :=
  (programLines p).mapIdx fun k l => l.turn (busyReads k)

end Sys2Proof.Machine
end

