-- ==== Sys2Proof/Safety.lean ====
section
/-! DEFINITION. What counts as a good state and a safe run, and the terms the claims use: bit strings of the stream
(00_scope.md R12), the codes of 41_expgolomb.md R76, the SPS's fields as bits (43_sps_crop.md R164), start codes
(42_nal_locator.md R140). None of these says how the machine computes; they are what a claim compares it with. -/

namespace Sys2Proof.Machine

/-! ## Good states and safe runs -/

/-- BUF's cells are in canonical form and inside BUF, and BUF_SIZE is legal (R8, R32). -/
abbrev Buffer.Wf (b : Buffer) : Prop :=
  Memory.wf b.cells ∧ (∀ x ∈ b.cells, x.1 < b.bytes) ∧ 1 ≤ b.bytes ∧ b.bytes ≤ 2 ^ 28

/-- What R23, R211, R213 and R33 say of every STATUS value: the reserved bits are 0; ERR = 1 exactly when CODE is
not 0; CODE is at most 7; DETAIL is a profile of R163's set with code 2 and 0 with any other; while BUSY = 1 the
others are 0. -/
abbrev StatusLegal (w : Word) : Prop :=
  statusReservedLow w = 0#2 ∧ statusReservedHigh w = 0#16 ∧
  (errBit w = true ↔ codeField w ≠ 0#4) ∧ codeField w ≤ 7#4 ∧
  (codeField w = 2#4 → (detailField w).toNat ∈ unsupportedProfiles) ∧
  (codeField w ≠ 2#4 → detailField w = 0#8) ∧
  (busyBit w = true → errBit w = false ∧ codeField w = 0#4 ∧ detailField w = 0#8)

/-- The invariant every step keeps. -/
abbrev State.Inv (s : State) : Prop := s.buf.Wf ∧ StatusLegal s.status

/-- The run from `s` uses up its turns and ends idle, and meets no fault and no refusal. -/
def RunsToItsEnd (s : State) : Prop :=
  ∃ k t, Sys2Proof.core.run k s = .next t ∧ t.agenda = [] ∧ busyBit t.status = false

/-- The lines of a host that keeps to the interface (R246, R250, R251): BUF addresses are below BUF_BYTES, and from a
CMD write (`pending`) on it only reads STATUS until it has polled. -/
def disciplined (bufBytes : Nat) : (pending : Bool) → List HostLine → Bool
  | _, [] => true
  | false, .wr r _ :: ls => disciplined bufBytes (decide (r = .cmd)) ls
  | false, .rd _ :: ls => disciplined bufBytes false ls
  | false, .wb a _ :: ls => decide (a < bufBytes) && disciplined bufBytes false ls
  | false, .rb a :: ls => decide (a < bufBytes) && disciplined bufBytes false ls
  | false, .cmd _ :: ls => disciplined bufBytes true ls
  | false, .poll :: ls => disciplined bufBytes false ls
  | true, .rd r :: ls => decide (r = .status) && disciplined bufBytes true ls
  | true, .poll :: ls => disciplined bufBytes false ls
  | true, .wr _ _ :: _ => false
  | true, .wb _ _ :: _ => false
  | true, .rb _ :: _ => false
  | true, .cmd _ :: _ => false

/-! ## Bit strings in stream order -/

/-- The `n` stream bits from bit address `start` (R12). -/
def Buffer.stream (b : Buffer) (start n : Nat) : List Bool :=
  (List.range n).map fun i => b.getBit (start + i)

/-- `bits` stand in the stream from bit address `start`. -/
abbrev StreamAt (b : Buffer) (start : Nat) (bits : List Bool) : Prop := b.stream start bits.length = bits

/-- The low `n` bits of `v`, most significant first (R52). -/
def bitsOf (n v : Nat) : List Bool := (List.range n).map fun i => v.testBit (n - 1 - i)

/-- The number a bit string stands for, first bit most significant (R52). -/
def valueOf (bits : List Bool) : Nat := bits.foldl (fun v x => 2 * v + x.toNat) 0

/-- The Ue code of `v` (R76): k = floor_log2(v + 1) zeros, then the k + 1 bits of v + 1. -/
def ueCode (v : Nat) : List Bool :=
  List.replicate (Nat.log2 (v + 1)) false ++ bitsOf (Nat.log2 (v + 1) + 1) (v + 1)

/-- The Se code of `v` (R76): the Ue code of 2v - 1 for a positive v, of -2v for any other (R124, C1). -/
def seCode (v : Int) : List Bool := ueCode (if 0 < v then 2 * v.natAbs - 1 else 2 * v.natAbs)

/-- `n` bits from the cursor are in bounds (R54, in the closed form of R106); no bits always are. -/
abbrev Cursor.Fits (c : Cursor) (bufBytes n : Nat) : Prop :=
  n = 0 ∨ (c.pos + n ≤ 8 * c.limit ∧ c.base + (c.pos + n - 1) / 8 < bufBytes)

/-- `b'` is `b` with `bits` written from bit address `start` and nothing else changed: every bit, and every byte
that holds no written bit. -/
def BitsWritten (b b' : Buffer) (start : Nat) (bits : List Bool) : Prop :=
  b'.size = b.size ∧ b'.epoch = b.epoch ∧
  (∀ p, b'.getBit p =
    if start ≤ p ∧ p < start + bits.length then bits.getD (p - start) false else b.getBit p) ∧
  (∀ a, (∀ p, start ≤ p → p < start + bits.length → p / 8 ≠ a) → b'.read a = b.read a)

/-- `b'` is `b` with the bytes `bs` stored from address `a` and nothing else changed. -/
def BytesWritten (b b' : Buffer) (a : Nat) (bs : List Byte) : Prop :=
  b'.size = b.size ∧ b'.epoch = b.epoch ∧
  ∀ x, b'.read x = if a ≤ x ∧ x < a + bs.length then bs.getD (x - a) 0#8 else b.read x

/-! ## Start codes (R140, R143) -/

/-- 00 00 01 at address `j`. -/
abbrev StartCodeAt (b : Buffer) (j : Nat) : Prop :=
  b.read j = 0x00#8 ∧ b.read (j + 1) = 0x00#8 ∧ b.read (j + 2) = 0x01#8

/-- The smallest j >= start with j + 2 < stop and a start code at j (R140); p = j + 3 is what FOUND gives. -/
abbrev FirstStartCode (b : Buffer) (start stop j : Nat) : Prop :=
  start ≤ j ∧ j + 2 < stop ∧ StartCodeAt b j ∧ ∀ i < j, start ≤ i → ¬ StartCodeAt b i

/-- No start code lies wholly in [start, stop). -/
abbrev NoStartCode (b : Buffer) (start stop : Nat) : Prop :=
  ∀ j < stop, start ≤ j → j + 2 < stop → ¬ StartCodeAt b j

/-- R143's scan from `pos` ends at the SPS header byte `p`. -/
inductive FirstSps (b : Buffer) (stop : Nat) : Nat → Nat → Prop where
  | here {pos j : Nat} : FirstStartCode b pos stop j → j + 3 < stop → (b.read (j + 3)).toNat % 32 = 7 →
      FirstSps b stop pos (j + 3)
  | skip {pos j p : Nat} : FirstStartCode b pos stop j → j + 3 < stop → (b.read (j + 3)).toNat % 32 ≠ 7 →
      FirstSps b stop (j + 4) p → FirstSps b stop pos p

/-! ## An SPS as bits (R164, R170) -/

/-- A Ue value (R120). -/
abbrev UeRange (v : Nat) : Prop := v ≤ 2 ^ 32 - 2

/-- A Se value (R120). -/
abbrev SeRange (v : Int) : Prop := -(2 ^ 31 - 1) ≤ v ∧ v ≤ 2 ^ 31 - 1

/-- pic_order_cnt_type and the fields it selects, in stream order (R164, R165). -/
def PocFields.bits : PocFields → List Bool
  | .lsb v => ueCode 0 ++ ueCode v
  | .cycle always nonRef topBottom offsets =>
    ueCode 1 ++ [always] ++ seCode nonRef ++ seCode topBottom ++ ueCode offsets.length ++ offsets.flatMap seCode
  | .other t => ueCode t

/-- Every value has a code (R120), and `other` is a type without further fields (R165). -/
def PocFields.Legal : PocFields → Prop
  | .lsb v => UeRange v
  | .cycle _ nonRef topBottom offsets =>
    SeRange nonRef ∧ SeRange topBottom ∧ UeRange offsets.length ∧ ∀ v ∈ offsets, SeRange v
  | .other t => 2 ≤ t ∧ UeRange t

/-- The fields before the splice point, in stream order (R164, R166). -/
def SpsFields.bits (f : SpsFields) : List Bool :=
  bitsOf 8 f.profileIdc ++ bitsOf 8 f.constraintByte ++ bitsOf 8 f.levelIdc ++
  ueCode f.seqParameterSetId ++ ueCode f.log2MaxFrameNumMinus4 ++ f.poc.bits ++ ueCode f.maxNumRefFrames ++
  [f.gapsInFrameNumValueAllowed] ++ ueCode f.picWidthInMbsMinus1 ++ ueCode f.picHeightInMapUnitsMinus1 ++
  [f.frameMbsOnly] ++ f.mbAdaptiveFrameField.toList ++ [f.direct8x8Inference]

/-- Every field has a code, the profile is not in R163's set, and mb_adaptive_frame_field_flag is there exactly when
frame_mbs_only_flag = 0 (R166). -/
def SpsFields.Legal (f : SpsFields) : Prop :=
  f.profileIdc < 256 ∧ f.profileIdc ∉ unsupportedProfiles ∧ f.constraintByte < 256 ∧ f.levelIdc < 256 ∧
  UeRange f.seqParameterSetId ∧ UeRange f.log2MaxFrameNumMinus4 ∧ f.poc.Legal ∧ UeRange f.maxNumRefFrames ∧
  UeRange f.picWidthInMbsMinus1 ∧ UeRange f.picHeightInMapUnitsMinus1 ∧
  f.mbAdaptiveFrameField.isSome = !f.frameMbsOnly

/-- frame_cropping_flag and the four offsets it announces (R164). -/
def cropBits : Option CropOffsets → List Bool
  | none => [false]
  | some c => [true] ++ ueCode c.left ++ ueCode c.right ++ ueCode c.top ++ ueCode c.bottom

/-- The four offsets have codes. -/
def CropLegal : Option CropOffsets → Prop
  | none => True
  | some c => UeRange c.left ∧ UeRange c.right ∧ UeRange c.top ∧ UeRange c.bottom

/-- What FIX_CROP writes from the splice point (R170, R173): the flag and offsets, the vui bit 0, the stop bit 1. -/
def rewrittenBits (c : CropOffsets) : List Bool := cropBits (some c) ++ [false, true]

/-- The SPS that stands at the cursor, in bounds: its fields, its old crop fields and its vui flag (R164). -/
def SpsAt (b : Buffer) (c : Cursor) (f : SpsFields) (old : Option CropOffsets) (vui : Bool) : Prop :=
  f.Legal ∧ CropLegal old ∧ c.Fits b.bytes (f.bits ++ cropBits old ++ [vui]).length ∧
    StreamAt b c.bitAddr (f.bits ++ cropBits old ++ [vui])

/-- round_up(v, 16) of the source (R169). -/
def roundUp16 (v : Nat) : Nat := 16 * ((v + 15) / 16)

/-- The crop values as the source writes them (R169): (round_up(width, 16) - width) / 2, and the height's difference
by 2 or 4. -/
def sourceCrop (width height : Nat) (frameMbsOnly : Bool) : CropOffsets :=
  { left := 0, right := (roundUp16 width - width) / 2
    top := 0, bottom := (roundUp16 height - height) / (if frameMbsOnly then 2 else 4) }

end Sys2Proof.Machine

namespace Sys2Proof

open Machine

/-! ## The tables of R75 and R212 -/

/-- R212: which errors a command can raise, the word check's IllegalCommand included. -/
def Instr.mayRaise : Instr → Raise → Bool
  | _, .illegalCommand => true
  | .readBit, e => decide (e = .malformedBitstream)
  | .writeBit, e => decide (e = .malformedBitstream)
  | .readBits _, e => decide (e = .malformedBitstream)
  | .writeBits _, e => decide (e = .malformedBitstream)
  | .readUe, e => decide (e = .malformedBitstream)
  | .readSe, e => decide (e = .malformedBitstream)
  | .writeUe, e => decide (e = .malformedBitstream ∨ e = .valueRange)
  | .writeSe, e => decide (e = .malformedBitstream ∨ e = .valueRange)
  | .findStartCode, e => decide (e = .malformedBitstream ∨ e = .notFound)
  | .findSps, e => decide (e = .malformedBitstream ∨ e = .notFound)
  | .inspectProfile, e => decide (e = .malformedBitstream ∨ e = .notFound)
  | .fixCrop, .unsupportedProfile p => decide (p.toNat ∈ unsupportedProfiles)
  | .fixCrop, e => decide (e = .malformedBitstream ∨ e = .unsupportedVui)
  | .fillerNal, e => decide (e = .malformedBitstream ∨ e = .invalidSize)
  | .pad, e => decide (e = .malformedBitstream)

/-- R75: the command uses the cursor registers. -/
def Instr.usesCursor : Instr → Bool
  | .readBit => true
  | .writeBit => true
  | .readBits _ => true
  | .writeBits _ => true
  | .readUe => true
  | .writeUe => true
  | .readSe => true
  | .writeSe => true
  | .findStartCode => false
  | .findSps => false
  | .inspectProfile => false
  | .fixCrop => false
  | .fillerNal => false
  | .pad => false

/-- R75: how many of ARG0 to ARG3, from ARG0 up, the command reads. -/
def Instr.argsRead : Instr → Nat
  | .readBit => 0
  | .writeBit => 1
  | .readBits _ => 0
  | .writeBits _ => 1
  | .readUe => 0
  | .writeUe => 1
  | .readSe => 0
  | .writeSe => 1
  | .findStartCode => 2
  | .findSps => 2
  | .inspectProfile => 2
  | .fixCrop => 4
  | .fillerNal => 2
  | .pad => 2

/-- R56: the command may write BUF. -/
def Instr.writesBuf : Instr → Bool
  | .readBit => false
  | .writeBit => true
  | .readBits _ => false
  | .writeBits _ => true
  | .readUe => false
  | .writeUe => true
  | .readSe => false
  | .writeSe => true
  | .findStartCode => false
  | .findSps => false
  | .inspectProfile => false
  | .fixCrop => true
  | .fillerNal => true
  | .pad => true

end Sys2Proof
end

