-- ==== Sys2Proof/Certificates/Slice0/Obligations.lean ====
section
/-! DEFINITION. The statements for the provers. Each docstring names the rules of spec/ it formalises, or says that it
rests on a choice of the model and names its log entry. -/

open Sys2Proof Sys2Proof.Machine

/-! ## Reset, turns and the host's accesses -/

/-- R240: at power-on, with any legal BUF_BYTES, and at a reset asserted in any state, every register takes its reset
value, and BUF_SIZE is BUF_BYTES; R241: a later reset leaves BUF. The model's choices in it: that a reset leaves what is
still to come (log 4) and what the host has read (log 7), and that a second power-on is a turn (log 12). -/
def Obligations.ResetGivesEveryRegisterItsResetValue : Prop :=
  (∀ c : Config, c.Legal →
    (State.powerOn c).cmd = 0#32 ∧ (State.powerOn c).status = 0#32 ∧
    (State.powerOn c).arg0 = 0#32 ∧ (State.powerOn c).arg1 = 0#32 ∧
    (State.powerOn c).arg2 = 0#32 ∧ (State.powerOn c).arg3 = 0#32 ∧
    (State.powerOn c).res0 = 0#32 ∧ (State.powerOn c).res1 = 0#32 ∧
    (State.powerOn c).curBase = 0#32 ∧ (State.powerOn c).curPos = 0#32 ∧ (State.powerOn c).curLimit = 0#32 ∧
    (State.powerOn c).buf.size.toNat = c.bufBytes) ∧
  ∀ (s : State) (rest : List Turn),
    (s.agenda = .reset :: rest →
      step s = .next { cmd := 0#32, status := 0#32, arg0 := 0#32, arg1 := 0#32, arg2 := 0#32, arg3 := 0#32,
                       res0 := 0#32, res1 := 0#32, curBase := 0#32, curPos := 0#32, curLimit := 0#32,
                       buf := s.buf, agenda := rest, reads := s.reads }) ∧
    (s.agenda = .powerOn :: rest →
      ∃ b, b.size = s.buf.size ∧
        step s = .next { cmd := 0#32, status := 0#32, arg0 := 0#32, arg1 := 0#32, arg2 := 0#32, arg3 := 0#32,
                         res0 := 0#32, res1 := 0#32, curBase := 0#32, curPos := 0#32, curLimit := 0#32,
                         buf := b, agenda := rest, reads := s.reads })

/-- R242: a reset asserted while a command is pending cancels it. After the reset turn no command runs: the machine
is idle on its own, BUF and its contents are those from before the command, and RES0 and RES1 are the reset values. -/
def Obligations.ResetCancelsThePendingCommand : Prop :=
  ∀ s : State, busyBit s.status = true → s.agenda = [.reset] →
    ∃ t, step s = .next t ∧ step t = .next t ∧ t.buf = s.buf ∧
      t.cmd = 0#32 ∧ t.status = 0#32 ∧ t.arg0 = 0#32 ∧ t.arg1 = 0#32 ∧ t.arg2 = 0#32 ∧ t.arg3 = 0#32 ∧
      t.res0 = 0#32 ∧ t.res1 = 0#32 ∧ t.curBase = 0#32 ∧ t.curPos = 0#32 ∧ t.curLimit = 0#32

/-- R241 in the model's form (log 3, log 12): after a power-on turn every byte of BUF reads as its own free value of
the new epoch, and after a reset turn every byte reads as before. -/
def Obligations.PowerOnMakesEveryByteOfBufFree : Prop :=
  ∀ (s t : State) (rest : List Turn), step s = .next t →
    (s.agenda = .powerOn :: rest → ∀ a, t.buf.read a = Config.powerOnByte (s.buf.epoch + 1) a) ∧
    (s.agenda = .reset :: rest → ∀ a, t.buf.read a = s.buf.read a)

/-- R243: straight after power-on the block is idle, every cursor command raises MalformedBitstream because CUR_LIMIT
is 0, except READ_BITS and WRITE_BITS with N = 0, which succeed, and the word 0 raises IllegalCommand. -/
def Obligations.CursorCommandsStraightAfterPowerOn : Prop :=
  ∀ c : Config, c.Legal →
    step (State.powerOn c) = .next (State.powerOn c) ∧
    (∀ i : Instr, i.wf = true → i.usesCursor = true → i ≠ .readBits 0#6 → i ≠ .writeBits 0#6 →
      exec i (State.powerOn c) = .next { State.powerOn c with status := 0x00000052#32 }) ∧
    exec (.readBits 0#6) (State.powerOn c) = .next (State.powerOn c) ∧
    exec (.writeBits 0#6) (State.powerOn c) = .next (State.powerOn c) ∧
    ∀ rest : List Turn,
      step { State.powerOn c with status := 0x00000001#32, agenda := .block :: rest } =
        .next { State.powerOn c with status := 0x00000062#32, agenda := rest }

/-- R33, R22: a CMD write while BUSY = 0 stores the word, whatever it is, sets STATUS to 1 and changes nothing else;
the block's next turn then performs the command the word names, or fails with IllegalCommand; a CMD write while
BUSY = 1 is the hazard. -/
def Obligations.CmdWriteStartsTheCommand : Prop :=
  ∀ (s : State) (w : Word) (rest : List Turn), s.agenda = .host (.writeReg 0x00 4 w) :: rest →
    (busyBit s.status = false →
      step s = .next { s with cmd := w, status := 0x00000001#32, agenda := rest } ∧
      ∀ rest' : List Turn, rest = .block :: rest' →
        (∀ i, decode w = .ok i →
          step { s with cmd := w, status := 0x00000001#32, agenda := rest } =
            exec i { s with cmd := w, status := 0x00000001#32, agenda := rest' }) ∧
        (∀ e, decode w = .error e →
          step { s with cmd := w, status := 0x00000001#32, agenda := rest } =
            .next { s with cmd := w, status := 0x00000062#32, agenda := rest' })) ∧
    (busyBit s.status = true → step s = .fault .hostHazard)

/-- R21, R31, R56: a 32-bit read of a register returns its value and changes nothing else, allowed while BUSY = 0, and
of STATUS at any time; the reserved words read 0. What a read returns stands first in `reads` (log 7). -/
def Obligations.HostReadsReturnTheRegister : Prop :=
  ∀ (s : State) (off : Nat) (v : Word) (rest : List Turn), s.agenda = .host (.readReg off 4) :: rest →
    busyBit s.status = false ∨ off = 0x04 →
    (off, v) ∈ [(0x00, s.cmd), (0x04, s.status), (0x08, s.arg0), (0x0C, s.arg1), (0x10, s.arg2), (0x14, s.arg3),
      (0x18, s.res0), (0x1C, s.res1), (0x20, s.curBase), (0x24, s.curPos), (0x28, s.curLimit), (0x2C, s.buf.size),
      (0x30, 0#32), (0x34, 0#32), (0x38, 0#32), (0x3C, 0#32)] →
    step s = .next { s with reads := v :: s.reads, agenda := rest }

/-- R21, R24, R26, R31: while BUSY = 0 a 32-bit write to an RW register stores the value whatever it is, and a write
to an RO register or a reserved word changes nothing. -/
def Obligations.HostWritesStoreOrAreIgnored : Prop :=
  ∀ (s : State) (off : Nat) (v : Word) (rest : List Turn), s.agenda = .host (.writeReg off 4 v) :: rest →
    busyBit s.status = false →
    (off = 0x08 → step s = .next { s with arg0 := v, agenda := rest }) ∧
    (off = 0x0C → step s = .next { s with arg1 := v, agenda := rest }) ∧
    (off = 0x10 → step s = .next { s with arg2 := v, agenda := rest }) ∧
    (off = 0x14 → step s = .next { s with arg3 := v, agenda := rest }) ∧
    (off = 0x20 → step s = .next { s with curBase := v, agenda := rest }) ∧
    (off = 0x24 → step s = .next { s with curPos := v, agenda := rest }) ∧
    (off = 0x28 → step s = .next { s with curLimit := v, agenda := rest }) ∧
    (off ∈ [0x04, 0x18, 0x1C, 0x2C, 0x30, 0x34, 0x38, 0x3C] → step s = .next { s with agenda := rest })

/-- R32, R50: while BUSY = 0 a one-byte write stores exactly that byte of BUF, and a one-byte read returns it. -/
def Obligations.HostBufAccessesReadAndWriteOneByte : Prop :=
  ∀ (s : State) (a : Nat) (v : Byte) (rest : List Turn), busyBit s.status = false → a < s.buf.size.toNat →
    (s.agenda = .host (.writeBuf a 1 v) :: rest →
      ∃ b', step s = .next { s with buf := b', agenda := rest } ∧ BytesWritten s.buf b' a [v]) ∧
    (s.agenda = .host (.readBuf a 1) :: rest →
      step s = .next { s with reads := (s.buf.read a).setWidth 32 :: s.reads, agenda := rest })

/-- R250: while BUSY = 1 every access of the interface but a read of STATUS is the fault HostHazard. -/
def Obligations.HostAccessWhileBusyIsAHazard : Prop :=
  ∀ (s : State) (rest : List Turn), busyBit s.status = true →
    (∀ off < 0x40, off % 4 = 0 → off ≠ 0x04 → s.agenda = .host (.readReg off 4) :: rest →
      step s = .fault .hostHazard) ∧
    (∀ off < 0x40, off % 4 = 0 → ∀ v, s.agenda = .host (.writeReg off 4 v) :: rest →
      step s = .fault .hostHazard) ∧
    (∀ a < s.buf.size.toNat, s.agenda = .host (.readBuf a 1) :: rest → step s = .fault .hostHazard) ∧
    (∀ a < s.buf.size.toNat, ∀ v, s.agenda = .host (.writeBuf a 1 v) :: rest → step s = .fault .hostHazard) ∧
    (s.agenda = .host (.readReg 0x04 4) :: rest →
      step s = .next { s with reads := s.status :: s.reads, agenda := rest })

/-- R251: a register access that is not 4 bytes wide, not aligned, or at an offset of 0x40 or more, and a BUF access
that is not one byte wide or at an address of BUF_BYTES or more, are refused, busy or not (log 6). -/
def Obligations.AccessesOutsideTheInterfaceAreRefused : Prop :=
  ∀ (s : State) (rest : List Turn),
    (∀ off w, w ≠ 4 ∨ off % 4 ≠ 0 ∨ 0x40 ≤ off →
      (s.agenda = .host (.readReg off w) :: rest → step s = .refused (.registerAccess off w)) ∧
      ∀ v, s.agenda = .host (.writeReg off w v) :: rest → step s = .refused (.registerAccess off w)) ∧
    (∀ a w, w ≠ 1 ∨ s.buf.size.toNat ≤ a →
      (s.agenda = .host (.readBuf a w) :: rest → step s = .refused (.bufferAccess a w)) ∧
      ∀ v, s.agenda = .host (.writeBuf a w v) :: rest → step s = .refused (.bufferAccess a w))

/-- R51 in the model's form (log 8): whatever HOST_MAP is, an access at an address of the host's own map does what
the access at the place it stands for does, and one it places nowhere does nothing to the block. -/
def Obligations.MappedAccessesDoWhatTheirPlaceDoes : Prop :=
  ∀ (s : State) (h w : Nat) (v : Word) (rest : List Turn),
    (∀ off, Config.hostMap h = some (.reg off) →
      step { s with agenda := .hostAt (.read h w) :: rest } = step { s with agenda := .host (.readReg off w) :: rest } ∧
      step { s with agenda := .hostAt (.write h w v) :: rest } =
        step { s with agenda := .host (.writeReg off w v) :: rest }) ∧
    (∀ a, Config.hostMap h = some (.buf a) →
      step { s with agenda := .hostAt (.read h w) :: rest } = step { s with agenda := .host (.readBuf a w) :: rest } ∧
      step { s with agenda := .hostAt (.write h w v) :: rest } =
        step { s with agenda := .host (.writeBuf a w (v.setWidth 8)) :: rest }) ∧
    (Config.hostMap h = none →
      step { s with agenda := .hostAt (.read h w) :: rest } = .next { s with agenda := rest } ∧
      step { s with agenda := .hostAt (.write h w v) :: rest } = .next { s with agenda := rest })

/-- R7, R62: a pending command whose word decodes to `i` is run by the block's turn, and the step is `exec i`; the
agenda's turn is used up first, and on an empty agenda the block moves (log 4). An idle block's turn changes nothing
(R243). -/
def Obligations.StepRunsTheDecodedCommand : Prop :=
  ∀ (s : State) (rest : List Turn),
    (∀ i, busyBit s.status = true → decode s.cmd = .ok i →
      (s.agenda = [] → step s = exec i s) ∧
      (s.agenda = .block :: rest → step s = exec i { s with agenda := rest })) ∧
    (busyBit s.status = false →
      (s.agenda = [] → step s = .next s) ∧
      (s.agenda = .block :: rest → step s = .next { s with agenda := rest }))

/-- R74, R211: an illegal word's step raises IllegalCommand and changes STATUS only. -/
def Obligations.IllegalWordChangesStatusOnly : Prop :=
  ∀ (s : State) (e : DecodeError), busyBit s.status = true → decode s.cmd = .error e →
    (s.agenda = [] → step s = .next { s with status := 0x00000062#32 }) ∧
    ∀ rest, s.agenda = .block :: rest → step s = .next { s with status := 0x00000062#32, agenda := rest }

/-- R77: a poll is STATUS reads that end at the first one with BUSY = 0. Of an idle block it is exactly one read. Of a
pending command it is `n` reads that return the busy STATUS, then the block's turn, then one read that returns the
completed command's STATUS, whatever the finite number `n` (I7; as turns, log 13). -/
def Obligations.PollReadsStatusUntilIdle : Prop :=
  ∀ (s : State) (n : Nat) (rest : List Turn), s.agenda = .poll n :: rest →
    (busyBit s.status = false →
      step s = .next { s with reads := s.status :: s.reads, agenda := rest }) ∧
    (busyBit s.status = true →
      ∃ u, step { s with agenda := .block :: rest } = .next u ∧ busyBit u.status = false ∧ u.agenda = rest ∧
        u.reads = s.reads ∧
        core.run (n + 2) s = .next { u with reads := u.status :: (List.replicate n s.status ++ s.reads) })

/-- R77, R78, R246: a host that keeps to the interface and polls between a CMD write and any access but a STATUS read
never meets the busy hazard: from an idle state every such program, with any number of STATUS reads in each of its
polls, runs to its end, which is an idle block (turns and polls: log 4, log 13; that no block turn stands between two
lines of the program: log 18; forms R77 and R78 do not give: log 19). -/
def Obligations.DisciplinedProgramRunsToItsEnd : Prop :=
  ∀ (s : State) (p : List HostMacro) (busyReads : Nat → Nat), busyBit s.status = false →
    disciplined s.buf.size.toNat false (programLines p) = true → s.agenda = programTurns busyReads p →
    RunsToItsEnd s

/-! ## The command word -/

/-- R70, R72: every legal command's word decodes to it, its bit count at every value included. -/
def Obligations.DecodeUndoesEncode : Prop :=
  ∀ i : Instr, i.wf = true → decode (encode i) = .ok i

/-- R72: only the encoding of a command decodes to it: a legal C0 word is exactly 0x000000OP, a legal CN word is
0x0000NNOP. -/
def Obligations.OnlyTheEncodingDecodes : Prop :=
  ∀ (w : Word) (i : Instr), decode w = .ok i →
    i.wf = true ∧ w = BitVec.ofNat 32 (i.count.toNat * 256 + i.opcode.toNat)

/-- R73: a word is illegal exactly when OP is reserved, RSVD is not 0, N is not 0 on an opcode other than 0x03 and
0x04, or N is over 32 on one of those. -/
def Obligations.IllegalWordsAreExactlyTheReservedOnes : Prop :=
  ∀ w : Word, (∃ e, decode w = .error e) ↔
    ((w.toNat % 256 = 0x00 ∨ (0x09 ≤ w.toNat % 256 ∧ w.toNat % 256 ≤ 0x0F) ∨
      (0x13 ≤ w.toNat % 256 ∧ w.toNat % 256 ≤ 0x17) ∨ (0x19 ≤ w.toNat % 256 ∧ w.toNat % 256 ≤ 0x1F) ∨
      (0x22 ≤ w.toNat % 256)) ∨
     w.toNat / 2 ^ 14 ≠ 0 ∨
     (w.toNat / 256 % 64 ≠ 0 ∧ w.toNat % 256 ≠ 0x03 ∧ w.toNat % 256 ≠ 0x04) ∨
     (32 < w.toNat / 256 % 64 ∧ (w.toNat % 256 = 0x03 ∨ w.toNat % 256 = 0x04)))

/-- Words written out from R72 and from the rules' encodings decode to their commands; a sanity statement. -/
def Obligations.SampleWordsDecode : Prop :=
  decode 0x00000001#32 = .ok .readBit ∧ decode 0x00000002#32 = .ok .writeBit ∧
  decode 0x00000803#32 = .ok (.readBits 8#6) ∧ decode 0x00000304#32 = .ok (.writeBits 3#6) ∧
  decode 0x00002003#32 = .ok (.readBits 32#6) ∧ decode 0x00000005#32 = .ok .readUe ∧
  decode 0x00000010#32 = .ok .findStartCode ∧ decode 0x00000012#32 = .ok .inspectProfile ∧
  decode 0x00000018#32 = .ok .fixCrop ∧ decode 0x00000020#32 = .ok .fillerNal ∧ decode 0x00000021#32 = .ok .pad

/-! ## Rules over all commands -/

/-- R57, R14, R256: every command completes in one step. It either succeeds, writing at most BUF, CUR_POS, RES0,
RES1 and a STATUS of 0, or it raises and only STATUS changes. So CMD, the ARG registers, CUR_BASE, CUR_LIMIT and
BUF_SIZE are never written by a command (R22, R24, R26). -/
def Obligations.EveryCommandIsAtomic : Prop :=
  ∀ (i : Instr) (s : State),
    (∃ b p r0 r1, b.size = s.buf.size ∧ b.epoch = s.buf.epoch ∧
      exec i s = .next { s with buf := b, curPos := p, res0 := r0, res1 := r1, status := 0#32 }) ∨
    ∃ e : Raise, exec i s = .next { s with status := statusOfRaise e }

/-- R212, first direction, and R56: what a command can raise is in its row of the matrix, and a command that only
reads never changes BUF. -/
def Obligations.CommandsRaiseOnlyTheirErrors : Prop :=
  ∀ (i : Instr) (s t : State), i.wf = true → exec i s = .next t →
    (t.status ≠ 0#32 → ∃ e : Raise, e ≠ .illegalCommand ∧ i.mayRaise e = true ∧
      t = { s with status := statusOfRaise e }) ∧
    (i.writesBuf = false → t.buf = s.buf) ∧
    (i.usesCursor = false → t.curPos = s.curPos)

/-- R212, second direction: every X of the matrix happens. For each command and each error of its row but
IllegalCommand some command of its opcode raises that error in some state; IllegalCommand is raised by a word of its
opcode that does not decode. -/
def Obligations.EveryErrorOfTheMatrixHappens : Prop :=
  ∀ (i : Instr) (e : Raise), i.wf = true → i.mayRaise e = true →
    if e = .illegalCommand then ∃ w d, opField w = i.opcode ∧ decode w = .error d
    else ∃ (j : Instr) (s : State), j.wf = true ∧ j.opcode = i.opcode ∧
      exec j s = .next { s with status := statusOfRaise e }

/-- R211, R213: the STATUS value of each error: BUSY 0, ERR 1, the code in bits 7:4, DETAIL in bits 15:8, 0 but for
UnsupportedProfile's profile_idc. -/
def Obligations.StatusValueOfEachError : Prop :=
  statusOfRaise .notFound = 0x00000012#32 ∧
  (∀ p : Byte, (statusOfRaise (.unsupportedProfile p)).toNat = p.toNat * 256 + 0x22) ∧
  statusOfRaise .unsupportedVui = 0x00000032#32 ∧ statusOfRaise .invalidSize = 0x00000042#32 ∧
  statusOfRaise .malformedBitstream = 0x00000052#32 ∧ statusOfRaise .illegalCommand = 0x00000062#32 ∧
  statusOfRaise .valueRange = 0x00000072#32

/-- R24, R75: an ARG register a command does not read has no effect on it, nor have the cursor registers on a command
that does not use them: with other values there the command does the same to everything else. -/
def Obligations.UnreadOperandsHaveNoEffect : Prop :=
  ∀ (i : Instr) (s : State) (a0 a1 a2 a3 cb cp cl : Word),
    (1 ≤ i.argsRead → a0 = s.arg0) → (2 ≤ i.argsRead → a1 = s.arg1) →
    (3 ≤ i.argsRead → a2 = s.arg2) → (4 ≤ i.argsRead → a3 = s.arg3) →
    (i.usesCursor = true → cb = s.curBase ∧ cp = s.curPos ∧ cl = s.curLimit) →
    ∃ t, exec i s = .next t ∧
      exec i { s with arg0 := a0, arg1 := a1, arg2 := a2, arg3 := a3, curBase := cb, curPos := cp, curLimit := cl } =
        .next { t with arg0 := a0, arg1 := a1, arg2 := a2, arg3 := a3, curBase := cb, curLimit := cl,
                       curPos := if i.usesCursor then t.curPos else cp }

/-- R29: no command's result depends on STATUS, and R22: none on CMD. -/
def Obligations.CommandsDoNotReadStatus : Prop :=
  ∀ (i : Instr) (s : State) (st c : Word),
    ∃ t, exec i s = .next t ∧ exec i { s with status := st, cmd := c } = .next { t with cmd := c }

/-- R26: a cursor command that succeeds adds exactly the bits it consumed or wrote, RES1, to CUR_POS, and the sum does
not wrap; this needs BUF_SIZE at most 2^28 (R8), which BUF's well-formedness says. -/
def Obligations.CursorAdvancesByTheBitsTouched : Prop :=
  ∀ (i : Instr) (s t : State), i.usesCursor = true → s.buf.Wf → exec i s = .next t →
    t.status = 0#32 → t.curPos.toNat = s.curPos.toNat + t.res1.toNat

/-! ## The invariant -/

/-- The reset state of every legal parameter meets the invariant, and so does `State.reset`. -/
def Obligations.ResetMeetsTheInvariant : Prop :=
  State.reset.Inv ∧ ∀ c : Config, c.Legal → (State.powerOn c).Inv

/-- Every step of every agent keeps the invariant: BUF's cells stay in canonical form and inside BUF, BUF_SIZE stays
legal (R8, R32), and STATUS stays one of the values R23, R211, R213 and R33 allow. -/
def Obligations.EveryStepKeepsTheInvariant : Prop :=
  ∀ s t : State, s.Inv → step s = .next t → t.Inv

/-- Every run from power-on, with any legal BUF_BYTES and any order of turns, stays in the invariant, and BUF_SIZE
reads BUF_BYTES throughout (R21). -/
def Obligations.EveryRunFromPowerOnStaysGood : Prop :=
  ∀ (c : Config) (turns : List Turn) (k : Nat) (t : State), c.Legal →
    core.run k { State.powerOn c with agenda := turns } = .next t → t.Inv ∧ t.buf.size.toNat = c.bufBytes

/-! ## CURSOR -/

/-- R104: READ_BIT, its word, its result and frame in bounds, its error out of bounds. -/
def Obligations.ReadBitReadsTheBitAtTheCursor : Prop :=
  (∀ w, decode w = .ok .readBit ↔ w = 0x00000001#32) ∧
  ∀ s : State,
    ((s.curPos.toNat < 8 * s.curLimit.toNat ∧ s.curBase.toNat + s.curPos.toNat / 8 < s.buf.size.toNat) →
      exec .readBit s = .next { s with
        res0 := if (s.buf.read (s.curBase.toNat + s.curPos.toNat / 8)).getLsbD (7 - s.curPos.toNat % 8)
          then 1#32 else 0#32
        res1 := 1#32, curPos := BitVec.ofNat 32 (s.curPos.toNat + 1), status := 0#32 }) ∧
    (¬ (s.curPos.toNat < 8 * s.curLimit.toNat ∧ s.curBase.toNat + s.curPos.toNat / 8 < s.buf.size.toNat) →
      exec .readBit s = .next { s with status := 0x00000052#32 })

/-- R105: WRITE_BIT writes bit 0 of ARG0 at the cursor and nothing else in BUF. -/
def Obligations.WriteBitWritesOneBit : Prop :=
  (∀ w, decode w = .ok .writeBit ↔ w = 0x00000002#32) ∧
  ∀ s : State,
    ((s.curPos.toNat < 8 * s.curLimit.toNat ∧ s.curBase.toNat + s.curPos.toNat / 8 < s.buf.size.toNat) →
      ∃ b', exec .writeBit s = .next { s with
          buf := b', res0 := 0#32, res1 := 1#32, curPos := BitVec.ofNat 32 (s.curPos.toNat + 1), status := 0#32 } ∧
        BitsWritten s.buf b' (8 * s.curBase.toNat + s.curPos.toNat) [s.arg0.getLsbD 0]) ∧
    (¬ (s.curPos.toNat < 8 * s.curLimit.toNat ∧ s.curBase.toNat + s.curPos.toNat / 8 < s.buf.size.toNat) →
      exec .writeBit s = .next { s with status := 0x00000052#32 })

/-- R106: READ_BITS n for every n: its word, its result and frame in bounds, its errors; N = 0 raises nothing whatever the
cursor is, N > 32 is IllegalCommand. -/
def Obligations.ReadBitsReadsAField : Prop :=
  (∀ w n, decode w = .ok (.readBits n) ↔ n.toNat ≤ 32 ∧ w = BitVec.ofNat 32 (n.toNat * 256 + 0x03)) ∧
  ∀ (s : State) (n : BitVec 6),
    (n.toNat ≤ 32 → s.cursor.Fits s.buf.size.toNat n.toNat →
      exec (.readBits n) s = .next { s with
        res0 := BitVec.ofNat 32 (valueOf (s.buf.stream (8 * s.curBase.toNat + s.curPos.toNat) n.toNat))
        res1 := BitVec.ofNat 32 n.toNat, curPos := BitVec.ofNat 32 (s.curPos.toNat + n.toNat), status := 0#32 }) ∧
    (n.toNat ≤ 32 → ¬ s.cursor.Fits s.buf.size.toNat n.toNat →
      exec (.readBits n) s = .next { s with status := 0x00000052#32 }) ∧
    (32 < n.toNat → exec (.readBits n) s = .next { s with status := 0x00000062#32 })

/-- R107: WRITE_BITS n writes the low n bits of ARG0, most significant first, and nothing else in BUF; its word, results
and errors as for READ_BITS. -/
def Obligations.WriteBitsWritesAField : Prop :=
  (∀ w n, decode w = .ok (.writeBits n) ↔ n.toNat ≤ 32 ∧ w = BitVec.ofNat 32 (n.toNat * 256 + 0x04)) ∧
  ∀ (s : State) (n : BitVec 6),
    (n.toNat ≤ 32 → s.cursor.Fits s.buf.size.toNat n.toNat →
      ∃ b', exec (.writeBits n) s = .next { s with
          buf := b', res0 := 0#32, res1 := BitVec.ofNat 32 n.toNat
          curPos := BitVec.ofNat 32 (s.curPos.toNat + n.toNat), status := 0#32 } ∧
        BitsWritten s.buf b' (8 * s.curBase.toNat + s.curPos.toNat) (bitsOf n.toNat s.arg0.toNat)) ∧
    (n.toNat ≤ 32 → ¬ s.cursor.Fits s.buf.size.toNat n.toNat →
      exec (.writeBits n) s = .next { s with status := 0x00000052#32 }) ∧
    (32 < n.toNat → exec (.writeBits n) s = .next { s with status := 0x00000062#32 })

/-- R108: what WRITE_BITS N wrote, READ_BITS N reads back after a seek to the old position, and CUR_POS ends N bits
on; the same for WRITE_BIT and READ_BIT. -/
def Obligations.WrittenFieldsReadBack : Prop :=
  (∀ (s t : State) (n : BitVec 6), n.toNat ≤ 32 → s.buf.Wf → s.arg0.toNat < 2 ^ n.toNat →
    exec (.writeBits n) s = .next t → t.status = 0#32 →
    ∃ u, exec (.readBits n) { t with curPos := s.curPos } = .next u ∧ u.status = 0#32 ∧ u.res0 = s.arg0 ∧
      u.curPos.toNat = s.curPos.toNat + n.toNat) ∧
  (∀ s t : State, s.buf.Wf → s.arg0.toNat < 2 → exec .writeBit s = .next t → t.status = 0#32 →
    ∃ u, exec .readBit { t with curPos := s.curPos } = .next u ∧ u.status = 0#32 ∧ u.res0 = s.arg0 ∧
      u.curPos.toNat = s.curPos.toNat + 1)

/-! ## EG -/

/-- R125, R121: READ_UE decodes the Ue value whose code stands at the cursor in bounds, and raises MalformedBitstream
when none does, or when 32 zeros stand there. -/
def Obligations.ReadUeDecodesTheCode : Prop :=
  (∀ w, decode w = .ok .readUe ↔ w = 0x00000005#32) ∧
  ∀ s : State,
    (∀ v, UeRange v → StreamAt s.buf (8 * s.curBase.toNat + s.curPos.toNat) (ueCode v) →
      s.cursor.Fits s.buf.size.toNat (ueCode v).length →
      exec .readUe s = .next { s with
        res0 := BitVec.ofNat 32 v, res1 := BitVec.ofNat 32 (ueCode v).length
        curPos := BitVec.ofNat 32 (s.curPos.toNat + (ueCode v).length), status := 0#32 }) ∧
    ((∀ v, UeRange v → StreamAt s.buf (8 * s.curBase.toNat + s.curPos.toNat) (ueCode v) →
        ¬ s.cursor.Fits s.buf.size.toNat (ueCode v).length) →
      exec .readUe s = .next { s with status := 0x00000052#32 }) ∧
    (StreamAt s.buf (8 * s.curBase.toNat + s.curPos.toNat) (List.replicate 32 false) →
      exec .readUe s = .next { s with status := 0x00000052#32 })

/-- R126, R122: WRITE_UE writes exactly the code of ARG0; ValueRange comes before the bounds. -/
def Obligations.WriteUeWritesTheCode : Prop :=
  (∀ w, decode w = .ok .writeUe ↔ w = 0x00000006#32) ∧
  ∀ s : State,
    (s.arg0 ≠ 0xFFFFFFFF#32 → s.cursor.Fits s.buf.size.toNat (ueCode s.arg0.toNat).length →
      ∃ b', exec .writeUe s = .next { s with
          buf := b', res0 := 0#32, res1 := BitVec.ofNat 32 (ueCode s.arg0.toNat).length
          curPos := BitVec.ofNat 32 (s.curPos.toNat + (ueCode s.arg0.toNat).length), status := 0#32 } ∧
        BitsWritten s.buf b' (8 * s.curBase.toNat + s.curPos.toNat) (ueCode s.arg0.toNat)) ∧
    (s.arg0 ≠ 0xFFFFFFFF#32 → ¬ s.cursor.Fits s.buf.size.toNat (ueCode s.arg0.toNat).length →
      exec .writeUe s = .next { s with status := 0x00000052#32 }) ∧
    (s.arg0 = 0xFFFFFFFF#32 → exec .writeUe s = .next { s with status := 0x00000072#32 })

/-- R127, R123: READ_SE decodes the Se value whose code stands at the cursor in bounds, and raises as READ_UE. -/
def Obligations.ReadSeDecodesTheCode : Prop :=
  (∀ w, decode w = .ok .readSe ↔ w = 0x00000007#32) ∧
  ∀ s : State,
    (∀ v, SeRange v → StreamAt s.buf (8 * s.curBase.toNat + s.curPos.toNat) (seCode v) →
      s.cursor.Fits s.buf.size.toNat (seCode v).length →
      exec .readSe s = .next { s with
        res0 := BitVec.ofInt 32 v, res1 := BitVec.ofNat 32 (seCode v).length
        curPos := BitVec.ofNat 32 (s.curPos.toNat + (seCode v).length), status := 0#32 }) ∧
    ((∀ v, SeRange v → StreamAt s.buf (8 * s.curBase.toNat + s.curPos.toNat) (seCode v) →
        ¬ s.cursor.Fits s.buf.size.toNat (seCode v).length) →
      exec .readSe s = .next { s with status := 0x00000052#32 }) ∧
    (StreamAt s.buf (8 * s.curBase.toNat + s.curPos.toNat) (List.replicate 32 false) →
      exec .readSe s = .next { s with status := 0x00000052#32 }) ∧
    ∀ t, exec .readSe s = .next t → t.status = 0#32 → t.res0 ≠ 0x80000000#32

/-- R128, R124: WRITE_SE writes exactly the code of ARG0 read as two's complement, with the mapping of C1. -/
def Obligations.WriteSeWritesTheCode : Prop :=
  (∀ w, decode w = .ok .writeSe ↔ w = 0x00000008#32) ∧
  ∀ s : State,
    (s.arg0 ≠ 0x80000000#32 → s.cursor.Fits s.buf.size.toNat (seCode s.arg0.toInt).length →
      ∃ b', exec .writeSe s = .next { s with
          buf := b', res0 := 0#32, res1 := BitVec.ofNat 32 (seCode s.arg0.toInt).length
          curPos := BitVec.ofNat 32 (s.curPos.toNat + (seCode s.arg0.toInt).length), status := 0#32 } ∧
        BitsWritten s.buf b' (8 * s.curBase.toNat + s.curPos.toNat) (seCode s.arg0.toInt)) ∧
    (s.arg0 ≠ 0x80000000#32 → ¬ s.cursor.Fits s.buf.size.toNat (seCode s.arg0.toInt).length →
      exec .writeSe s = .next { s with status := 0x00000052#32 }) ∧
    (s.arg0 = 0x80000000#32 → exec .writeSe s = .next { s with status := 0x00000072#32 })

/-- R129: what WRITE_UE wrote, READ_UE reads back from the same position, moving by the same 2 floor_log2(v + 1) + 1
bits; what WRITE_SE wrote, READ_SE reads back. -/
def Obligations.ExpGolombRoundTrip : Prop :=
  (∀ s t : State, s.buf.Wf → exec .writeUe s = .next t → t.status = 0#32 →
    t.curPos.toNat = s.curPos.toNat + (2 * Nat.log2 (s.arg0.toNat + 1) + 1) ∧
    ∃ u, exec .readUe { t with curPos := s.curPos } = .next u ∧ u.status = 0#32 ∧ u.res0 = s.arg0 ∧
      u.curPos = t.curPos ∧ u.res1.toNat = 2 * Nat.log2 (s.arg0.toNat + 1) + 1) ∧
  (∀ s t : State, s.buf.Wf → exec .writeSe s = .next t → t.status = 0#32 →
    ∃ u, exec .readSe { t with curPos := s.curPos } = .next u ∧ u.status = 0#32 ∧ u.res0 = s.arg0 ∧
      u.curPos = t.curPos ∧ u.res1 = t.res1)

/-- R130: the codes of the small values, as WRITE_UE and WRITE_SE write them. -/
def Obligations.SmallValuesHaveTheTabledCodes : Prop :=
  ∀ s : State,
    (∀ row ∈ [(0, [true]), (1, [false, true, false]), (2, [false, true, true]),
        (3, [false, false, true, false, false]), (4, [false, false, true, false, true]),
        (5, [false, false, true, true, false]), (6, [false, false, true, true, true]),
        (7, [false, false, false, true, false, false, false]), (8, [false, false, false, true, false, false, true]),
        (14, [false, false, false, true, true, true, true]),
        (15, [false, false, false, false, true, false, false, false, false])],
      s.arg0.toNat = row.1 → s.cursor.Fits s.buf.size.toNat row.2.length →
      ∃ t, exec .writeUe s = .next t ∧ t.status = 0#32 ∧ t.res1.toNat = row.2.length ∧
        BitsWritten s.buf t.buf (8 * s.curBase.toNat + s.curPos.toNat) row.2) ∧
    (∀ row ∈ [((0 : Int), [true]), (1, [false, true, false]), (-1, [false, true, true]),
        (2, [false, false, true, false, false]), (-2, [false, false, true, false, true]),
        (3, [false, false, true, true, false]), (-3, [false, false, true, true, true])],
      s.arg0.toInt = row.1 → s.cursor.Fits s.buf.size.toNat row.2.length →
      ∃ t, exec .writeSe s = .next t ∧ t.status = 0#32 ∧ t.res1.toNat = row.2.length ∧
        BitsWritten s.buf t.buf (8 * s.curBase.toNat + s.curPos.toNat) row.2)

/-! ## NAL -/

/-- R142, R140: FIND_START_CODE answers the position past the first 00 00 01 that lies wholly in [ARG0, ARG1), NotFound
if there is none, and MalformedBitstream before anything else if ARG1 is over BUF_BYTES. -/
def Obligations.FindStartCodeFindsTheFirst : Prop :=
  (∀ w, decode w = .ok .findStartCode ↔ w = 0x00000010#32) ∧
  ∀ s : State,
    (s.arg1.toNat ≤ s.buf.size.toNat →
      (∀ j, FirstStartCode s.buf s.arg0.toNat s.arg1.toNat j →
        exec .findStartCode s = .next { s with res0 := BitVec.ofNat 32 (j + 3), res1 := 0#32, status := 0#32 }) ∧
      ((∀ j, ¬ FirstStartCode s.buf s.arg0.toNat s.arg1.toNat j) →
        exec .findStartCode s = .next { s with status := 0x00000012#32 })) ∧
    (s.buf.size.toNat < s.arg1.toNat → exec .findStartCode s = .next { s with status := 0x00000052#32 })

/-- R141: for a 4-byte start code 00 00 00 01 the answer is the position past its 01, as for the 3-byte form. -/
def Obligations.FindStartCodeOnTheFourByteForm : Prop :=
  ∀ (s : State) (j : Nat), s.arg1.toNat ≤ s.buf.size.toNat → s.arg0.toNat ≤ j → j + 3 < s.arg1.toNat →
    s.buf.read j = 0x00#8 → s.buf.read (j + 1) = 0x00#8 → s.buf.read (j + 2) = 0x00#8 →
    s.buf.read (j + 3) = 0x01#8 → (∀ i < j, s.arg0.toNat ≤ i → ¬ StartCodeAt s.buf i) →
    exec .findStartCode s = .next { s with res0 := BitVec.ofNat 32 (j + 4), res1 := 0#32, status := 0#32 }

/-- R144, R143: FIND_SPS answers the first SPS header byte R143's scan meets and its value, NotFound if there is none,
MalformedBitstream first if ARG1 is over BUF_BYTES. -/
def Obligations.FindSpsFindsTheFirstHeader : Prop :=
  (∀ w, decode w = .ok .findSps ↔ w = 0x00000011#32) ∧
  ∀ s : State,
    (s.arg1.toNat ≤ s.buf.size.toNat →
      (∀ p, FirstSps s.buf s.arg1.toNat s.arg0.toNat p →
        exec .findSps s = .next { s with
          res0 := BitVec.ofNat 32 p, res1 := (s.buf.read p).setWidth 32, status := 0#32 }) ∧
      ((∀ p, ¬ FirstSps s.buf s.arg1.toNat s.arg0.toNat p) →
        exec .findSps s = .next { s with status := 0x00000012#32 })) ∧
    (s.buf.size.toNat < s.arg1.toNat → exec .findSps s = .next { s with status := 0x00000052#32 })

/-- R146, R145: INSPECT_PROFILE answers the bytes 1 and 3 past the first SPS header, with no profile check; it raises
MalformedBitstream if the SPS ends before its level byte or ARG1 is over BUF_BYTES, NotFound as FIND_SPS. -/
def Obligations.InspectProfileReadsProfileAndLevel : Prop :=
  (∀ w, decode w = .ok .inspectProfile ↔ w = 0x00000012#32) ∧
  ∀ s : State,
    (s.arg1.toNat ≤ s.buf.size.toNat →
      (∀ p, FirstSps s.buf s.arg1.toNat s.arg0.toNat p →
        (p + 3 < s.arg1.toNat →
          exec .inspectProfile s = .next { s with
            res0 := (s.buf.read (p + 1)).setWidth 32, res1 := (s.buf.read (p + 3)).setWidth 32, status := 0#32 }) ∧
        (s.arg1.toNat ≤ p + 3 → exec .inspectProfile s = .next { s with status := 0x00000052#32 })) ∧
      ((∀ p, ¬ FirstSps s.buf s.arg1.toNat s.arg0.toNat p) →
        exec .inspectProfile s = .next { s with status := 0x00000012#32 })) ∧
    (s.buf.size.toNat < s.arg1.toNat → exec .inspectProfile s = .next { s with status := 0x00000052#32 })

/-! ## SPS -/

/-- R172 with R162 to R171: FIX_CROP on an SPS without VUI whose rewritten fields fit writes exactly the new crop
fields, the vui bit and the stop bit from the splice point and reports the new size and F; it raises
MalformedBitstream when they do not fit, UnsupportedVui on a set vui flag, UnsupportedProfile as soon as profile_idc
is in the set, and MalformedBitstream for a range past BUF or a parse that meets no SPS. -/
def Obligations.FixCropRewritesTheCropFields : Prop :=
  (∀ w, decode w = .ok .fixCrop ↔ w = 0x00000018#32) ∧
  ∀ s : State,
    (s.buf.size.toNat < s.arg0.toNat + s.arg1.toNat →
      exec .fixCrop s = .next { s with status := 0x00000052#32 }) ∧
    (s.arg0.toNat + s.arg1.toNat ≤ s.buf.size.toNat →
      (∀ f old, SpsAt s.buf { base := s.arg0.toNat + 5, pos := 0, limit := s.arg1.toNat - 5 } f old false →
        (f.bits.length + (rewrittenBits (sourceCrop s.arg2.toNat s.arg3.toNat f.frameMbsOnly)).length ≤
            8 * (s.arg1.toNat - 5) →
          ∃ b' F, F = f.bits.length + (rewrittenBits (sourceCrop s.arg2.toNat s.arg3.toNat f.frameMbsOnly)).length ∧
            exec .fixCrop s = .next { s with
              buf := b', res0 := BitVec.ofNat 32 (5 + (F + 7) / 8), res1 := BitVec.ofNat 32 F, status := 0#32 } ∧
            BitsWritten s.buf b' (8 * (s.arg0.toNat + 5) + f.bits.length)
              (rewrittenBits (sourceCrop s.arg2.toNat s.arg3.toNat f.frameMbsOnly))) ∧
        (8 * (s.arg1.toNat - 5) <
            f.bits.length + (rewrittenBits (sourceCrop s.arg2.toNat s.arg3.toNat f.frameMbsOnly)).length →
          exec .fixCrop s = .next { s with status := 0x00000052#32 })) ∧
      (∀ f old, SpsAt s.buf { base := s.arg0.toNat + 5, pos := 0, limit := s.arg1.toNat - 5 } f old true →
        exec .fixCrop s = .next { s with status := 0x00000032#32 }) ∧
      (5 < s.arg1.toNat → (s.buf.read (s.arg0.toNat + 5)).toNat ∈ [100, 110, 122, 244, 44, 83, 86, 118, 128] →
        exec .fixCrop s = .next { s with
          status := BitVec.ofNat 32 ((s.buf.read (s.arg0.toNat + 5)).toNat * 256 + 0x22) }) ∧
      ((∀ f old vui, ¬ SpsAt s.buf { base := s.arg0.toNat + 5, pos := 0, limit := s.arg1.toNat - 5 } f old vui) →
        ¬ (5 < s.arg1.toNat ∧
          (s.buf.read (s.arg0.toNat + 5)).toNat ∈ [100, 110, 122, 244, 44, 83, 86, 118, 128]) →
        exec .fixCrop s = .next { s with status := 0x00000052#32 }))

/-- R163, R175: on a profile of the set FIX_CROP changes nothing but STATUS, which reports UnsupportedProfile with
profile_idc in DETAIL, whatever follows profile_idc; for profile_idc 100 STATUS is 0x6422. -/
def Obligations.FixCropLeavesAnUnsupportedProfileAlone : Prop :=
  ∀ s : State, s.arg0.toNat + s.arg1.toNat ≤ s.buf.size.toNat → 6 ≤ s.arg1.toNat →
    (s.buf.read (s.arg0.toNat + 5)).toNat ∈ [100, 110, 122, 244, 44, 83, 86, 118, 128] →
    (∃ t, exec .fixCrop s = .next t ∧ t = { s with status := t.status } ∧ codeField t.status = 2#4 ∧
      detailField t.status = s.buf.read (s.arg0.toNat + 5) ∧ errBit t.status = true ∧ busyBit t.status = false) ∧
    (s.buf.read (s.arg0.toNat + 5) = 100#8 → exec .fixCrop s = .next { s with status := 0x00006422#32 })

/-- R169: the block's crop values are the source's formulas with floor division, 0 to 7; R171: the rewritten fields
are 7 to 19 bits long. -/
def Obligations.CropValuesAreTheSources : Prop :=
  ∀ (w h : Word) (fmo : Bool),
    cropValues w.toNat h.toNat fmo = sourceCrop w.toNat h.toNat fmo ∧
    (sourceCrop w.toNat h.toNat fmo).right ≤ 7 ∧
    (sourceCrop w.toNat h.toNat fmo).bottom ≤ (if fmo then 7 else 3) ∧
    7 ≤ (rewrittenBits (sourceCrop w.toNat h.toNat fmo)).length ∧
    (rewrittenBits (sourceCrop w.toNat h.toNat fmo)).length ≤ 19

/-- R173: after a successful FIX_CROP every bit of the parse region before the splice point, the five bytes before the
region and every byte outside the range are as before; the rewritten fields stand from the splice point, and every bit
of the region from F on is as before (R170). -/
def Obligations.FixCropPreservesEverythingElse : Prop :=
  ∀ s t : State, exec .fixCrop s = .next t → t.status = 0#32 →
    ∃ f old F, SpsAt s.buf { base := s.arg0.toNat + 5, pos := 0, limit := s.arg1.toNat - 5 } f old false ∧
      F = f.bits.length + (rewrittenBits (sourceCrop s.arg2.toNat s.arg3.toNat f.frameMbsOnly)).length ∧
      t.res1 = BitVec.ofNat 32 F ∧ F ≤ 8 * (s.arg1.toNat - 5) ∧
      (∀ p < f.bits.length,
        t.buf.getBit (8 * (s.arg0.toNat + 5) + p) = s.buf.getBit (8 * (s.arg0.toNat + 5) + p)) ∧
      (∀ a, a < s.arg0.toNat + 5 ∨ s.arg0.toNat + s.arg1.toNat ≤ a → t.buf.read a = s.buf.read a) ∧
      StreamAt t.buf (8 * (s.arg0.toNat + 5) + f.bits.length)
        (rewrittenBits (sourceCrop s.arg2.toNat s.arg3.toNat f.frameMbsOnly)) ∧
      (∀ p, F ≤ p → t.buf.getBit (8 * (s.arg0.toNat + 5) + p) = s.buf.getBit (8 * (s.arg0.toNat + 5) + p))

/-- R174: re-parsing the rewritten region gives the same fields before the splice point, then the new crop values and
vui flag 0, then the stop bit; and FIX_CROP again with the same operands gives the same bytes and results. -/
def Obligations.FixCropReparsesAndRepeats : Prop :=
  ∀ s t : State, exec .fixCrop s = .next t → t.status = 0#32 →
    (∃ f old F, SpsAt s.buf { base := s.arg0.toNat + 5, pos := 0, limit := s.arg1.toNat - 5 } f old false ∧
      F = f.bits.length + (rewrittenBits (sourceCrop s.arg2.toNat s.arg3.toNat f.frameMbsOnly)).length ∧
      SpsAt t.buf { base := s.arg0.toNat + 5, pos := 0, limit := s.arg1.toNat - 5 } f
        (some (sourceCrop s.arg2.toNat s.arg3.toNat f.frameMbsOnly)) false ∧
      t.buf.getBit (8 * (s.arg0.toNat + 5) + F - 1) = true) ∧
    ∃ u, exec .fixCrop t = .next u ∧ u.status = 0#32 ∧ u.res0 = t.res0 ∧ u.res1 = t.res1 ∧
      ∀ a, u.buf.read a = t.buf.read a

/-! ## FILL -/

/-- R191, R190: FILLER_NAL stores exactly the filler unit of ARG1 bytes at ARG0; InvalidSize is tested before the
bounds. -/
def Obligations.FillerNalStoresTheFillerUnit : Prop :=
  (∀ w, decode w = .ok .fillerNal ↔ w = 0x00000020#32) ∧
  ∀ s : State,
    (s.arg1.toNat < 6 → exec .fillerNal s = .next { s with status := 0x00000042#32 }) ∧
    (6 ≤ s.arg1.toNat → s.buf.size.toNat < s.arg0.toNat + s.arg1.toNat →
      exec .fillerNal s = .next { s with status := 0x00000052#32 }) ∧
    (6 ≤ s.arg1.toNat → s.arg0.toNat + s.arg1.toNat ≤ s.buf.size.toNat →
      ∃ b', exec .fillerNal s = .next { s with buf := b', res0 := s.arg1, res1 := 0#32, status := 0#32 } ∧
        BytesWritten s.buf b' s.arg0.toNat
          ([0x00#8, 0x00#8, 0x00#8, 0x01#8, 0x0C#8] ++ List.replicate (s.arg1.toNat - 6) 0xFF#8 ++ [0x80#8]))

/-- R193, R192: PAD stores the filler unit of the tabled length just past the buffer, or nothing when the size is a
multiple of 8. -/
def Obligations.PadStoresTheTabledFiller : Prop :=
  (∀ w, decode w = .ok .pad ↔ w = 0x00000021#32) ∧
  ∀ s : State,
    (s.arg1.toNat % 8 = 0 → exec .pad s = .next { s with res0 := 0#32, res1 := 0#32, status := 0#32 }) ∧
    (∀ row ∈ [(1, 7), (2, 14), (3, 13), (4, 12), (5, 11), (6, 10), (7, 9)], s.arg1.toNat % 8 = row.1 →
      (s.buf.size.toNat < s.arg0.toNat + s.arg1.toNat + row.2 →
        exec .pad s = .next { s with status := 0x00000052#32 }) ∧
      (s.arg0.toNat + s.arg1.toNat + row.2 ≤ s.buf.size.toNat →
        ∃ b', exec .pad s = .next { s with
            buf := b', res0 := BitVec.ofNat 32 row.2, res1 := BitVec.ofNat 32 row.1, status := 0#32 } ∧
          BytesWritten s.buf b' (s.arg0.toNat + s.arg1.toNat)
            ([0x00#8, 0x00#8, 0x00#8, 0x01#8, 0x0C#8] ++ List.replicate (row.2 - 6) 0xFF#8 ++ [0x80#8])))

/-- R194: whenever PAD does not raise, size + RES0 is a multiple of 8; for a deficit of 1 to 7 a filler unit of the
tabled length, at least 6 bytes, is inserted at base + size and nothing else is stored; for a deficit of 0 nothing is
inserted. -/
def Obligations.PaddedSizeIsAMultipleOfEight : Prop :=
  ∀ s t : State, exec .pad s = .next t → t.status = 0#32 →
    (s.arg1.toNat + t.res0.toNat) % 8 = 0 ∧
    (s.arg1.toNat % 8 = 0 → t.res0 = 0#32 ∧ t.buf = s.buf) ∧
    (s.arg1.toNat % 8 ≠ 0 → t.res0.toNat = [0, 7, 14, 13, 12, 11, 10, 9].getD (s.arg1.toNat % 8) 0 ∧
      6 ≤ t.res0.toNat ∧
      BytesWritten s.buf t.buf (s.arg0.toNat + s.arg1.toNat)
        ([0x00#8, 0x00#8, 0x00#8, 0x01#8, 0x0C#8] ++ List.replicate (t.res0.toNat - 6) 0xFF#8 ++ [0x80#8]))

/-! ## Memory -/

/-- R13: MemRead(a, n) is the big-endian concatenation of the n bytes from a, the number their 8n stream bits stand for;
MemWrite(a, n, v) stores the bytes of v in the same order, the most significant at a, and leaves every other byte; so
MemRead(a, n) after it is v mod 2^(8n). BUF stays well formed when the bytes are inside it. -/
def Obligations.MemReadUndoesMemWrite : Prop :=
  ∀ (b : Buffer) (a n v : Nat),
    b.readN a n = valueOf (b.stream (8 * a) (8 * n)) ∧
    (∀ i < n, ((b.writeN a n v).read (a + i)).toNat = v / 2 ^ (8 * (n - 1 - i)) % 256) ∧
    (∀ x, x < a ∨ a + n ≤ x → (b.writeN a n v).read x = b.read x) ∧
    (b.writeN a n v).readN a n = v % 2 ^ (8 * n) ∧
    (b.Wf → a + n ≤ b.size.toNat → (b.writeN a n v).Wf)
end

