-- ==== Sys2Proof/Laws/Memory.lean ====
section
/-! SUPPORT. BUF's bytes and bits: a read after a write, what a write leaves alone, and that every memory operation
keeps the canonical form (Memory.wf, Buffer.Wf). -/

namespace Sys2Proof.Machine

/-! ## The list of cells -/

@[simp] theorem Memory.get_nil (a : Nat) : Memory.get [] a = none := rfl

theorem Memory.get_cons (b : Nat) (v : Byte) (m : List Host.Cell) (a : Nat) :
    Memory.get ((b, v) :: m) a = if a = b then some v else Memory.get m a := rfl

/-- A read after a write, for every address. -/
theorem Memory.get_set (m : List Host.Cell) (a : Nat) (v : Byte) (x : Nat) :
    Memory.get (Memory.set m a v) x = if x = a then some v else Memory.get m x := by
  induction m with
  | nil => simp [Memory.set, Memory.get_cons]
  | cons c m ih =>
    obtain ⟨b, w⟩ := c
    by_cases h1 : a < b
    · simp [Memory.set, h1, Memory.get_cons]
    · by_cases h2 : a = b
      · subst h2
        simp only [Memory.set, lt_irrefl, if_false, if_true, Memory.get_cons]
        split <;> simp_all
      · simp only [Memory.set, h1, h2, if_false, Memory.get_cons, ih]
        by_cases h3 : x = b <;> by_cases h4 : x = a <;> simp_all

/-- The addresses listed after a write. -/
theorem Memory.mem_set {m : List Host.Cell} {a : Nat} {v : Byte} {c : Host.Cell} (h : c ∈ Memory.set m a v) :
    c.1 = a ∨ c ∈ m := by
  induction m with
  | nil => simp_all [Memory.set]
  | cons d m ih =>
    obtain ⟨b, w⟩ := d
    unfold Memory.set at h
    split at h
    · simp only [List.mem_cons] at h ⊢
      rcases h with rfl | h
      · exact .inl rfl
      · exact .inr h
    · split at h
      · simp only [List.mem_cons] at h ⊢
        rcases h with rfl | h
        · exact .inl rfl
        · exact .inr (.inr h)
      · simp only [List.mem_cons] at h ⊢
        rcases h with rfl | h
        · exact .inr (.inl rfl)
        · rcases ih h with h | h
          · exact .inl h
          · exact .inr (.inr h)

/-- A write keeps the canonical form. -/
theorem Memory.set_wf {m : List Host.Cell} (h : Memory.wf m) (a : Nat) (v : Byte) : Memory.wf (Memory.set m a v) := by
  induction m with
  | nil => simp [Memory.set]
  | cons d m ih =>
    obtain ⟨b, w⟩ := d
    have hb : ∀ c ∈ m, b < c.1 := fun c hc => List.rel_of_pairwise_cons h hc
    have ht : Memory.wf m := List.Pairwise.of_cons h
    unfold Memory.set
    split
    · next hab =>
      refine List.pairwise_cons.2 ⟨fun c hc => ?_, h⟩
      rcases List.mem_cons.1 hc with rfl | hc
      · exact hab
      · exact lt_trans hab (hb c hc)
    · split
      · next hab =>
        subst hab
        exact List.pairwise_cons.2 ⟨hb, ht⟩
      · next h1 h2 =>
        refine List.pairwise_cons.2 ⟨fun c hc => ?_, ih ht⟩
        rcases Memory.mem_set hc with h3 | h3
        · show b < c.1
          omega
        · exact hb c h3

/-! ## Bytes -/

@[simp] theorem Buffer.write_size (b : Buffer) (a : Nat) (v : Byte) : (b.write a v).size = b.size := rfl
@[simp] theorem Buffer.write_epoch (b : Buffer) (a : Nat) (v : Byte) : (b.write a v).epoch = b.epoch := rfl
@[simp] theorem Buffer.write_bytes (b : Buffer) (a : Nat) (v : Byte) : (b.write a v).bytes = b.bytes := rfl

/-- A read after a write of one byte, for every address (R13). -/
theorem Buffer.read_write (b : Buffer) (a : Nat) (v : Byte) (x : Nat) :
    (b.write a v).read x = if x = a then v else b.read x := by
  simp only [Buffer.read, Buffer.write, Memory.get_set]
  split <;> simp

@[simp] theorem Buffer.read_write_same (b : Buffer) (a : Nat) (v : Byte) : (b.write a v).read a = v := by
  simp [Buffer.read_write]

theorem Buffer.read_write_ne (b : Buffer) (v : Byte) {a x : Nat} (h : x ≠ a) :
    (b.write a v).read x = b.read x := by
  simp [Buffer.read_write, h]

/-- A write inside BUF keeps BUF well formed. -/
theorem Buffer.Wf.write {b : Buffer} (h : b.Wf) {a : Nat} (ha : a < b.bytes) (v : Byte) : (b.write a v).Wf := by
  obtain ⟨h1, h2, h3⟩ := h
  refine ⟨Memory.set_wf h1 a v, fun c hc => ?_, h3⟩
  rcases Memory.mem_set hc with h | h
  · rw [h]; exact ha
  · exact h2 c h

/-! ## Runs of bytes -/

@[simp] theorem Buffer.writeBytes_nil (b : Buffer) (a : Nat) : b.writeBytes a [] = b := rfl

theorem Buffer.writeBytes_cons (b : Buffer) (a : Nat) (v : Byte) (vs : List Byte) :
    b.writeBytes a (v :: vs) = (b.write a v).writeBytes (a + 1) vs := rfl

/-- Storing a run of bytes stores exactly those bytes (R58). -/
theorem Buffer.writeBytes_spec (bs : List Byte) (b : Buffer) (a : Nat) :
    BytesWritten b (b.writeBytes a bs) a bs := by
  induction bs generalizing b a with
  | nil => exact ⟨rfl, rfl, fun x => by simp⟩
  | cons v vs ih =>
    obtain ⟨h1, h2, h3⟩ := ih (b.write a v) (a + 1)
    refine ⟨h1, h2, fun x => ?_⟩
    rw [Buffer.writeBytes_cons, h3 x]
    by_cases hx : x = a
    · subst hx
      simp
    · by_cases hin : a + 1 ≤ x ∧ x < a + 1 + vs.length
      · have : x - a = (x - (a + 1)) + 1 := by omega
        have h' : a ≤ x ∧ x < a + (v :: vs).length := by
          simp only [List.length_cons]; omega
        rw [if_pos hin, if_pos h', this, List.getD_cons_succ]
      · have h' : ¬ (a ≤ x ∧ x < a + (v :: vs).length) := by
          simp only [List.length_cons]; omega
        rw [if_neg hin, if_neg h', Buffer.read_write_ne b v hx]

/-- Storing bytes inside BUF keeps BUF well formed. -/
theorem Buffer.Wf.writeBytes {b : Buffer} (h : b.Wf) (bs : List Byte) {a : Nat} (ha : a + bs.length ≤ b.bytes) :
    (b.writeBytes a bs).Wf := by
  induction bs generalizing b a with
  | nil => exact h
  | cons v vs ih =>
    simp only [List.length_cons] at ha
    refine ih (h.write (by omega) v) ?_
    rw [Buffer.write_bytes]; omega

/-! ## Bits -/

@[simp] theorem Buffer.putBit_size (b : Buffer) (a : Nat) (v : Bool) : (b.putBit a v).size = b.size := rfl
@[simp] theorem Buffer.putBit_epoch (b : Buffer) (a : Nat) (v : Bool) : (b.putBit a v).epoch = b.epoch := rfl
@[simp] theorem Buffer.putBit_bytes (b : Buffer) (a : Nat) (v : Bool) : (b.putBit a v).bytes = b.bytes := rfl

/-- The bits of the byte that PutBit stores: the named one is `v`, the other seven keep their values (R13, D17). -/
theorem putByte_bit (old : Byte) (k : Nat) (hk : k < 8) (v : Bool) (j : Nat) (hj : j < 8) :
    ((old &&& ~~~(1#8 <<< k)) ||| ((if v then 1#8 else 0#8) <<< k)).getLsbD j = if j = k then v else old.getLsbD j := by
  by_cases hjk : j = k
  · subst hjk
    cases v <;> simp [hj]
  · by_cases hlt : j < k
    · cases v <;> simp [hjk, hlt, hj]
    · have h2 : j - k ≠ 0 := by omega
      cases v <;> simp [hjk, hlt, hj, h2]

/-- A bit read after a bit write, for every position: exactly one bit changes (R13, D17). -/
theorem Buffer.getBit_putBit (b : Buffer) (a : Nat) (v : Bool) (p : Nat) :
    (b.putBit a v).getBit p = if p = a then v else b.getBit p := by
  unfold Buffer.getBit Buffer.putBit
  by_cases h : p / 8 = a / 8
  · rw [h, Buffer.read_write_same, putByte_bit _ _ (by omega) _ _ (by omega)]
    have hiff : (7 - p % 8 = 7 - a % 8) ↔ p = a := by omega
    simp only [hiff]
  · rw [Buffer.read_write_ne _ _ h, if_neg (fun hp => h (by rw [hp]))]

/-- A bit write leaves every byte but its own alone. -/
theorem Buffer.read_putBit_ne (b : Buffer) (v : Bool) {a x : Nat} (h : x ≠ a / 8) :
    (b.putBit a v).read x = b.read x := Buffer.read_write_ne _ _ h

/-- A bit write inside BUF keeps BUF well formed. -/
theorem Buffer.Wf.putBit {b : Buffer} (h : b.Wf) {a : Nat} (ha : a / 8 < b.bytes) (v : Bool) : (b.putBit a v).Wf :=
  h.write ha _

/-- Two bytes with equal stream bits are equal. -/
theorem Buffer.read_ext {b b' : Buffer} {a : Nat} (h : ∀ i < 8, b'.getBit (8 * a + i) = b.getBit (8 * a + i)) :
    b'.read a = b.read a := by
  apply BitVec.eq_of_getLsbD_eq
  intro j hj
  have h1 := h (7 - j) (by omega)
  have e1 : (8 * a + (7 - j)) / 8 = a := by omega
  have e2 : 7 - (8 * a + (7 - j)) % 8 = j := by omega
  simp only [Buffer.getBit, e1, e2] at h1
  exact h1

/-! ## Bits written -/

/-- Writing no bits changes nothing. -/
theorem BitsWritten.refl (b : Buffer) (start : Nat) : BitsWritten b b start [] :=
  ⟨rfl, rfl, fun p => by simp; omega, fun _ _ => rfl⟩

/-- One bit written. -/
theorem BitsWritten.putBit (b : Buffer) (a : Nat) (v : Bool) : BitsWritten b (b.putBit a v) a [v] := by
  refine ⟨rfl, rfl, fun p => ?_, fun x hx => ?_⟩
  · rw [Buffer.getBit_putBit]
    by_cases h : p = a
    · subst h; simp
    · rw [if_neg h, if_neg]; simp; omega
  · exact Buffer.read_putBit_ne b v (fun h => hx a (le_refl a) (by simp) h.symm)

/-- Bits written one run after another. -/
theorem BitsWritten.append {b b1 b2 : Buffer} {start : Nat} {xs ys : List Bool} (h1 : BitsWritten b b1 start xs)
    (h2 : BitsWritten b1 b2 (start + xs.length) ys) : BitsWritten b b2 start (xs ++ ys) := by
  obtain ⟨s1, e1, g1, r1⟩ := h1
  obtain ⟨s2, e2, g2, r2⟩ := h2
  refine ⟨s2.trans s1, e2.trans e1, fun p => ?_, fun a ha => ?_⟩
  · rw [g2, g1]
    simp only [List.length_append]
    by_cases hy : start + xs.length ≤ p ∧ p < start + xs.length + ys.length
    · have hp : start ≤ p ∧ p < start + (xs.length + ys.length) := by omega
      rw [if_pos hy, if_pos hp, List.getD_append_right _ _ _ _ (by omega)]
      congr 1; omega
    · rw [if_neg hy]
      by_cases hx : start ≤ p ∧ p < start + xs.length
      · have hp : start ≤ p ∧ p < start + (xs.length + ys.length) := by omega
        rw [if_pos hx, if_pos hp, List.getD_append _ _ _ _ (by omega)]
      · have hp : ¬ (start ≤ p ∧ p < start + (xs.length + ys.length)) := by omega
        rw [if_neg hx, if_neg hp]
  · simp only [List.length_append] at ha
    rw [r2 a (fun p h h' => ha p (by omega) (by omega)), r1 a (fun p h h' => ha p h (by omega))]

end Sys2Proof.Machine
end

