-- ==== Sys2Proof/Laws/State.lean ====
section
/-! SUPPORT. One lemma per field per update of State, true by rfl, so that no proof unfolds a record update. -/

namespace Sys2Proof.Machine

section
variable (s : State) (e : Raise) (r0 r1 w : Word) (p : Nat) (b : Buffer)

/-! `State.fail` -/

@[simp] theorem State.fail_cmd : (s.fail e).cmd = s.cmd := rfl
@[simp] theorem State.fail_status : (s.fail e).status = statusOfRaise e := rfl
@[simp] theorem State.fail_arg0 : (s.fail e).arg0 = s.arg0 := rfl
@[simp] theorem State.fail_arg1 : (s.fail e).arg1 = s.arg1 := rfl
@[simp] theorem State.fail_arg2 : (s.fail e).arg2 = s.arg2 := rfl
@[simp] theorem State.fail_arg3 : (s.fail e).arg3 = s.arg3 := rfl
@[simp] theorem State.fail_res0 : (s.fail e).res0 = s.res0 := rfl
@[simp] theorem State.fail_res1 : (s.fail e).res1 = s.res1 := rfl
@[simp] theorem State.fail_curBase : (s.fail e).curBase = s.curBase := rfl
@[simp] theorem State.fail_curPos : (s.fail e).curPos = s.curPos := rfl
@[simp] theorem State.fail_curLimit : (s.fail e).curLimit = s.curLimit := rfl
@[simp] theorem State.fail_buf : (s.fail e).buf = s.buf := rfl
@[simp] theorem State.fail_agenda : (s.fail e).agenda = s.agenda := rfl
@[simp] theorem State.fail_reads : (s.fail e).reads = s.reads := rfl

/-! `State.succeed` -/

@[simp] theorem State.succeed_cmd : (s.succeed r0 r1).cmd = s.cmd := rfl
@[simp] theorem State.succeed_status : (s.succeed r0 r1).status = statusOk := rfl
@[simp] theorem State.succeed_arg0 : (s.succeed r0 r1).arg0 = s.arg0 := rfl
@[simp] theorem State.succeed_arg1 : (s.succeed r0 r1).arg1 = s.arg1 := rfl
@[simp] theorem State.succeed_arg2 : (s.succeed r0 r1).arg2 = s.arg2 := rfl
@[simp] theorem State.succeed_arg3 : (s.succeed r0 r1).arg3 = s.arg3 := rfl
@[simp] theorem State.succeed_res0 : (s.succeed r0 r1).res0 = r0 := rfl
@[simp] theorem State.succeed_res1 : (s.succeed r0 r1).res1 = r1 := rfl
@[simp] theorem State.succeed_curBase : (s.succeed r0 r1).curBase = s.curBase := rfl
@[simp] theorem State.succeed_curPos : (s.succeed r0 r1).curPos = s.curPos := rfl
@[simp] theorem State.succeed_curLimit : (s.succeed r0 r1).curLimit = s.curLimit := rfl
@[simp] theorem State.succeed_buf : (s.succeed r0 r1).buf = s.buf := rfl
@[simp] theorem State.succeed_agenda : (s.succeed r0 r1).agenda = s.agenda := rfl
@[simp] theorem State.succeed_reads : (s.succeed r0 r1).reads = s.reads := rfl

/-! `State.setPos` -/

@[simp] theorem State.setPos_cmd : (s.setPos p).cmd = s.cmd := rfl
@[simp] theorem State.setPos_status : (s.setPos p).status = s.status := rfl
@[simp] theorem State.setPos_arg0 : (s.setPos p).arg0 = s.arg0 := rfl
@[simp] theorem State.setPos_arg1 : (s.setPos p).arg1 = s.arg1 := rfl
@[simp] theorem State.setPos_arg2 : (s.setPos p).arg2 = s.arg2 := rfl
@[simp] theorem State.setPos_arg3 : (s.setPos p).arg3 = s.arg3 := rfl
@[simp] theorem State.setPos_res0 : (s.setPos p).res0 = s.res0 := rfl
@[simp] theorem State.setPos_res1 : (s.setPos p).res1 = s.res1 := rfl
@[simp] theorem State.setPos_curBase : (s.setPos p).curBase = s.curBase := rfl
@[simp] theorem State.setPos_curPos : (s.setPos p).curPos = BitVec.ofNat 32 p := rfl
@[simp] theorem State.setPos_curLimit : (s.setPos p).curLimit = s.curLimit := rfl
@[simp] theorem State.setPos_buf : (s.setPos p).buf = s.buf := rfl
@[simp] theorem State.setPos_agenda : (s.setPos p).agenda = s.agenda := rfl
@[simp] theorem State.setPos_reads : (s.setPos p).reads = s.reads := rfl

/-! `State.setBuf` -/

@[simp] theorem State.setBuf_cmd : (s.setBuf b).cmd = s.cmd := rfl
@[simp] theorem State.setBuf_status : (s.setBuf b).status = s.status := rfl
@[simp] theorem State.setBuf_arg0 : (s.setBuf b).arg0 = s.arg0 := rfl
@[simp] theorem State.setBuf_arg1 : (s.setBuf b).arg1 = s.arg1 := rfl
@[simp] theorem State.setBuf_arg2 : (s.setBuf b).arg2 = s.arg2 := rfl
@[simp] theorem State.setBuf_arg3 : (s.setBuf b).arg3 = s.arg3 := rfl
@[simp] theorem State.setBuf_res0 : (s.setBuf b).res0 = s.res0 := rfl
@[simp] theorem State.setBuf_res1 : (s.setBuf b).res1 = s.res1 := rfl
@[simp] theorem State.setBuf_curBase : (s.setBuf b).curBase = s.curBase := rfl
@[simp] theorem State.setBuf_curPos : (s.setBuf b).curPos = s.curPos := rfl
@[simp] theorem State.setBuf_curLimit : (s.setBuf b).curLimit = s.curLimit := rfl
@[simp] theorem State.setBuf_buf : (s.setBuf b).buf = b := rfl
@[simp] theorem State.setBuf_agenda : (s.setBuf b).agenda = s.agenda := rfl
@[simp] theorem State.setBuf_reads : (s.setBuf b).reads = s.reads := rfl

/-! `State.startCommand` -/

@[simp] theorem State.startCommand_cmd : (s.startCommand w).cmd = w := rfl
@[simp] theorem State.startCommand_status : (s.startCommand w).status = statusBusy := rfl
@[simp] theorem State.startCommand_arg0 : (s.startCommand w).arg0 = s.arg0 := rfl
@[simp] theorem State.startCommand_arg1 : (s.startCommand w).arg1 = s.arg1 := rfl
@[simp] theorem State.startCommand_arg2 : (s.startCommand w).arg2 = s.arg2 := rfl
@[simp] theorem State.startCommand_arg3 : (s.startCommand w).arg3 = s.arg3 := rfl
@[simp] theorem State.startCommand_res0 : (s.startCommand w).res0 = s.res0 := rfl
@[simp] theorem State.startCommand_res1 : (s.startCommand w).res1 = s.res1 := rfl
@[simp] theorem State.startCommand_curBase : (s.startCommand w).curBase = s.curBase := rfl
@[simp] theorem State.startCommand_curPos : (s.startCommand w).curPos = s.curPos := rfl
@[simp] theorem State.startCommand_curLimit : (s.startCommand w).curLimit = s.curLimit := rfl
@[simp] theorem State.startCommand_buf : (s.startCommand w).buf = s.buf := rfl
@[simp] theorem State.startCommand_agenda : (s.startCommand w).agenda = s.agenda := rfl
@[simp] theorem State.startCommand_reads : (s.startCommand w).reads = s.reads := rfl

/-! `State.recordRead` -/

@[simp] theorem State.recordRead_cmd : (s.recordRead w).cmd = s.cmd := rfl
@[simp] theorem State.recordRead_status : (s.recordRead w).status = s.status := rfl
@[simp] theorem State.recordRead_arg0 : (s.recordRead w).arg0 = s.arg0 := rfl
@[simp] theorem State.recordRead_arg1 : (s.recordRead w).arg1 = s.arg1 := rfl
@[simp] theorem State.recordRead_arg2 : (s.recordRead w).arg2 = s.arg2 := rfl
@[simp] theorem State.recordRead_arg3 : (s.recordRead w).arg3 = s.arg3 := rfl
@[simp] theorem State.recordRead_res0 : (s.recordRead w).res0 = s.res0 := rfl
@[simp] theorem State.recordRead_res1 : (s.recordRead w).res1 = s.res1 := rfl
@[simp] theorem State.recordRead_curBase : (s.recordRead w).curBase = s.curBase := rfl
@[simp] theorem State.recordRead_curPos : (s.recordRead w).curPos = s.curPos := rfl
@[simp] theorem State.recordRead_curLimit : (s.recordRead w).curLimit = s.curLimit := rfl
@[simp] theorem State.recordRead_buf : (s.recordRead w).buf = s.buf := rfl
@[simp] theorem State.recordRead_agenda : (s.recordRead w).agenda = s.agenda := rfl
@[simp] theorem State.recordRead_reads : (s.recordRead w).reads = w :: s.reads := rfl

/-! `State.afterReset`, `State.afterPowerOn` -/

@[simp] theorem State.afterReset_cmd : s.afterReset.cmd = 0#32 := rfl
@[simp] theorem State.afterReset_status : s.afterReset.status = statusOk := rfl
@[simp] theorem State.afterReset_arg0 : s.afterReset.arg0 = 0#32 := rfl
@[simp] theorem State.afterReset_arg1 : s.afterReset.arg1 = 0#32 := rfl
@[simp] theorem State.afterReset_arg2 : s.afterReset.arg2 = 0#32 := rfl
@[simp] theorem State.afterReset_arg3 : s.afterReset.arg3 = 0#32 := rfl
@[simp] theorem State.afterReset_res0 : s.afterReset.res0 = 0#32 := rfl
@[simp] theorem State.afterReset_res1 : s.afterReset.res1 = 0#32 := rfl
@[simp] theorem State.afterReset_curBase : s.afterReset.curBase = 0#32 := rfl
@[simp] theorem State.afterReset_curPos : s.afterReset.curPos = 0#32 := rfl
@[simp] theorem State.afterReset_curLimit : s.afterReset.curLimit = 0#32 := rfl
@[simp] theorem State.afterReset_buf : s.afterReset.buf = s.buf := rfl
@[simp] theorem State.afterReset_agenda : s.afterReset.agenda = s.agenda := rfl
@[simp] theorem State.afterReset_reads : s.afterReset.reads = s.reads := rfl
@[simp] theorem State.afterPowerOn_cmd : s.afterPowerOn.cmd = 0#32 := rfl
@[simp] theorem State.afterPowerOn_status : s.afterPowerOn.status = statusOk := rfl
@[simp] theorem State.afterPowerOn_arg0 : s.afterPowerOn.arg0 = 0#32 := rfl
@[simp] theorem State.afterPowerOn_arg1 : s.afterPowerOn.arg1 = 0#32 := rfl
@[simp] theorem State.afterPowerOn_arg2 : s.afterPowerOn.arg2 = 0#32 := rfl
@[simp] theorem State.afterPowerOn_arg3 : s.afterPowerOn.arg3 = 0#32 := rfl
@[simp] theorem State.afterPowerOn_res0 : s.afterPowerOn.res0 = 0#32 := rfl
@[simp] theorem State.afterPowerOn_res1 : s.afterPowerOn.res1 = 0#32 := rfl
@[simp] theorem State.afterPowerOn_curBase : s.afterPowerOn.curBase = 0#32 := rfl
@[simp] theorem State.afterPowerOn_curPos : s.afterPowerOn.curPos = 0#32 := rfl
@[simp] theorem State.afterPowerOn_curLimit : s.afterPowerOn.curLimit = 0#32 := rfl
@[simp] theorem State.afterPowerOn_agenda : s.afterPowerOn.agenda = s.agenda := rfl
@[simp] theorem State.afterPowerOn_reads : s.afterPowerOn.reads = s.reads := rfl
@[simp] theorem State.afterPowerOn_size : s.afterPowerOn.buf.size = s.buf.size := rfl
@[simp] theorem State.afterPowerOn_epoch : s.afterPowerOn.buf.epoch = s.buf.epoch + 1 := rfl
@[simp] theorem State.afterPowerOn_cells : s.afterPowerOn.buf.cells = [] := rfl

/-! The cursor and BUSY after an update -/

@[simp] theorem State.setBuf_cursor : (s.setBuf b).cursor = s.cursor := rfl
@[simp] theorem State.fail_cursor : (s.fail e).cursor = s.cursor := rfl
@[simp] theorem State.cursor_base : s.cursor.base = s.curBase.toNat := rfl
@[simp] theorem State.cursor_pos : s.cursor.pos = s.curPos.toNat := rfl
@[simp] theorem State.cursor_limit : s.cursor.limit = s.curLimit.toNat := rfl
@[simp] theorem State.startCommand_busy : (s.startCommand w).busy = true := by
  simp [State.busy, busyBit, statusBusy]
@[simp] theorem State.succeed_busy : (s.succeed r0 r1).busy = false := by
  simp [State.busy, busyBit, statusOk]

end

/-- What `finish` answers on success. -/
@[simp] theorem finish_ok (s t : State) : finish s (.ok t) = .next t := rfl

/-- What `finish` answers on a raise: STATUS alone changes (R57, R213). -/
@[simp] theorem finish_error (s : State) (e : Raise) : finish s (.error e) = .next (s.fail e) := rfl

/-- A command's outcome is always a next state: the one it computed or the failed one. -/
theorem finish_cases (s : State) (r : Except Raise State) :
    (∃ t, r = .ok t ∧ finish s r = .next t) ∨ (∃ e, r = .error e ∧ finish s r = .next (s.fail e)) := by
  cases r with
  | ok t => exact .inl ⟨t, rfl, rfl⟩
  | error e => exact .inr ⟨e, rfl, rfl⟩

/-! The `Except` steps of a meaning -/

@[simp] theorem except_ok_bind {α β : Type} (a : α) (f : α → Except Raise β) :
    ((Except.ok a : Except Raise α) >>= f) = f a := rfl

@[simp] theorem except_error_bind {α β : Type} (e : Raise) (f : α → Except Raise β) :
    ((Except.error e : Except Raise α) >>= f) = .error e := rfl

@[simp] theorem except_pure {α : Type} (a : α) : (pure a : Except Raise α) = .ok a := rfl

/-- A sequence that succeeds has a first part that succeeds. -/
theorem except_bind_eq_ok {α β : Type} {x : Except Raise α} {f : α → Except Raise β} {b : β} :
    (x >>= f) = .ok b ↔ ∃ a, x = .ok a ∧ f a = .ok b := by
  cases x <;> simp

/-- A sequence that raises raises in its first part or after it. -/
theorem except_bind_eq_error {α β : Type} {x : Except Raise α} {f : α → Except Raise β} {e : Raise} :
    (x >>= f) = .error e ↔ x = .error e ∨ ∃ a, x = .ok a ∧ f a = .error e := by
  cases x <;> simp

end Sys2Proof.Machine
end

