-- ==== Sys2Proof/Laws/Cursor.lean ====
section
/-! SUPPORT. What the cursor functions R100 to R103 do, once: the bounds as R106 closes them, the bits read, the bits
written, and that a write keeps BUF well formed. -/

namespace Sys2Proof.Machine

/-! ## Cursors -/

@[simp] theorem Cursor.advance_base (c : Cursor) (n : Nat) : (c.advance n).base = c.base := rfl
@[simp] theorem Cursor.advance_limit (c : Cursor) (n : Nat) : (c.advance n).limit = c.limit := rfl
@[simp] theorem Cursor.advance_pos (c : Cursor) (n : Nat) : (c.advance n).pos = c.pos + n := rfl
@[simp] theorem Cursor.advance_zero (c : Cursor) : c.advance 0 = c := rfl
@[simp] theorem Cursor.advance_advance (c : Cursor) (m n : Nat) : (c.advance m).advance n = c.advance (m + n) := by
  simp [Cursor.advance, Nat.add_assoc]
@[simp] theorem Cursor.advance_bitAddr (c : Cursor) (n : Nat) : (c.advance n).bitAddr = c.bitAddr + n := by
  simp [Cursor.bitAddr, Nat.add_assoc]

theorem Cursor.inBounds_iff (c : Cursor) (n : Nat) :
    c.inBounds n = true ↔ c.pos < 8 * c.limit ∧ c.base + c.pos / 8 < n := by
  simp [Cursor.inBounds]

theorem Cursor.inBounds_iff_fits (c : Cursor) (n : Nat) : c.inBounds n = true ↔ c.Fits n 1 := by
  rw [Cursor.inBounds_iff]
  constructor
  · rintro ⟨h1, h2⟩
    exact .inr ⟨by omega, by simpa using h2⟩
  · rintro (h | ⟨h1, h2⟩)
    · omega
    · exact ⟨by omega, by simpa using h2⟩

/-- One bit more fits exactly when the bit at the cursor is in bounds and the rest fits after it (R54, R106). -/
theorem Cursor.fits_succ (c : Cursor) (m n : Nat) :
    c.Fits m (n + 1) ↔ c.inBounds m = true ∧ (c.advance 1).Fits m n := by
  rw [Cursor.inBounds_iff]
  simp only [Cursor.Fits, Cursor.advance_base, Cursor.advance_limit, Cursor.advance_pos]
  constructor
  · rintro (h | ⟨h1, h2⟩)
    · omega
    · refine ⟨⟨by omega, ?_⟩, ?_⟩
      · have : c.pos / 8 ≤ (c.pos + (n + 1) - 1) / 8 := Nat.div_le_div_right (by omega)
        omega
      · by_cases hn : n = 0
        · exact .inl hn
        · refine .inr ⟨by omega, ?_⟩
          rw [show c.pos + 1 + n - 1 = c.pos + (n + 1) - 1 by omega]
          exact h2
  · rintro ⟨⟨h1, h2⟩, h3⟩
    rcases h3 with h3 | ⟨h3, h4⟩
    · subst h3
      exact .inr ⟨by omega, by simpa using h2⟩
    · refine .inr ⟨by omega, ?_⟩
      rw [show c.pos + (n + 1) - 1 = c.pos + 1 + n - 1 by omega]
      exact h4

theorem Cursor.fits_zero (c : Cursor) (m : Nat) : c.Fits m 0 := .inl rfl

/-- A run of bits fits exactly when its two parts do. -/
theorem Cursor.fits_add (c : Cursor) (m i j : Nat) : c.Fits m (i + j) ↔ c.Fits m i ∧ (c.advance i).Fits m j := by
  induction i generalizing c with
  | zero => simp [Cursor.Fits]
  | succ i ih =>
    rw [show i + 1 + j = (i + j) + 1 by omega, Cursor.fits_succ, ih, Cursor.fits_succ, Cursor.advance_advance,
      Nat.add_comm 1 i, and_assoc]

theorem Cursor.Fits.mono {c : Cursor} {m n n' : Nat} (h : c.Fits m n) (hn : n' ≤ n) : c.Fits m n' := by
  obtain ⟨k, rfl⟩ := Nat.exists_eq_add_of_le hn
  exact ((c.fits_add m n' k).1 h).1

/-! ## Streams -/

@[simp] theorem Buffer.stream_length (b : Buffer) (start n : Nat) : (b.stream start n).length = n := by
  simp [Buffer.stream]

@[simp] theorem Buffer.stream_zero (b : Buffer) (start : Nat) : b.stream start 0 = [] := rfl

theorem Buffer.stream_succ (b : Buffer) (start n : Nat) :
    b.stream start (n + 1) = b.getBit start :: b.stream (start + 1) n := by
  simp only [Buffer.stream, List.range_succ_eq_map, List.map_cons, List.map_map, Nat.add_zero, List.cons.injEq, true_and]
  apply List.map_congr_left
  intro i _
  simp only [Function.comp, Nat.succ_eq_add_one]
  congr 1; omega

theorem Buffer.stream_add (b : Buffer) (start m n : Nat) :
    b.stream start (m + n) = b.stream start m ++ b.stream (start + m) n := by
  induction m generalizing start with
  | zero => simp [Buffer.stream]
  | succ m ih =>
    rw [show m + 1 + n = (m + n) + 1 by omega, Buffer.stream_succ, Buffer.stream_succ, ih]
    simp [Nat.add_comm, Nat.add_left_comm]

theorem streamAt_append {b : Buffer} {start : Nat} {xs ys : List Bool} :
    StreamAt b start (xs ++ ys) ↔ StreamAt b start xs ∧ StreamAt b (start + xs.length) ys := by
  unfold StreamAt
  rw [List.length_append, Buffer.stream_add]
  constructor
  · intro h
    exact List.append_inj h (by simp)
  · rintro ⟨h1, h2⟩
    rw [h1, h2]

theorem streamAt_cons {b : Buffer} {start : Nat} {x : Bool} {ys : List Bool} :
    StreamAt b start (x :: ys) ↔ b.getBit start = x ∧ StreamAt b (start + 1) ys := by
  unfold StreamAt
  rw [List.length_cons, Buffer.stream_succ, List.cons.injEq]

theorem streamAt_nil (b : Buffer) (start : Nat) : StreamAt b start [] := rfl

/-- What was written stands in the stream (R103 is the inverse of R102). -/
theorem BitsWritten.streamAt {b b' : Buffer} {start : Nat} {xs : List Bool} (h : BitsWritten b b' start xs) :
    StreamAt b' start xs := by
  obtain ⟨_, _, h3, _⟩ := h
  apply List.ext_getElem (by simp)
  intro i h1 h2
  have hi : i < xs.length := h2
  simp [Buffer.stream, h3, hi, List.getD_eq_getElem?_getD]

/-! ## Numbers and their bits -/

/-- The value of a bit string, with bits read before it. -/
theorem foldl_valueOf (bits : List Bool) (v : Nat) :
    bits.foldl (fun v x => 2 * v + x.toNat) v = v * 2 ^ bits.length + valueOf bits := by
  unfold valueOf
  induction bits generalizing v with
  | nil => simp
  | cons x xs ih =>
    simp only [List.foldl_cons, List.length_cons]
    rw [ih, ih (2 * 0 + x.toNat)]
    ring

theorem valueOf_cons (x : Bool) (xs : List Bool) : valueOf (x :: xs) = x.toNat * 2 ^ xs.length + valueOf xs := by
  rw [valueOf, List.foldl_cons, foldl_valueOf]
  simp

theorem valueOf_lt (bits : List Bool) : valueOf bits < 2 ^ bits.length := by
  induction bits with
  | nil => simp [valueOf]
  | cons x xs ih =>
    rw [valueOf_cons, List.length_cons, Nat.pow_succ]
    have : x.toNat ≤ 1 := Bool.toNat_le x
    nlinarith [Nat.mul_le_mul_right (2 ^ xs.length) this]

@[simp] theorem bitsOf_length (n v : Nat) : (bitsOf n v).length = n := by simp [bitsOf]

@[simp] theorem bitsOf_zero (v : Nat) : bitsOf 0 v = [] := rfl

theorem bitsOf_succ (n v : Nat) : bitsOf (n + 1) v = v.testBit n :: bitsOf n v := by
  simp only [bitsOf, List.range_succ_eq_map, List.map_cons, List.map_map, List.cons.injEq]
  refine ⟨by simp, ?_⟩
  apply List.map_congr_left
  intro i hi
  simp only [Function.comp, Nat.succ_eq_add_one]
  congr 1
  omega

/-- The low n bits of v read back as v mod 2^n. -/
theorem valueOf_bitsOf (n v : Nat) : valueOf (bitsOf n v) = v % 2 ^ n := by
  induction n with
  | zero => simp [bitsOf, valueOf, Nat.mod_one]
  | succ n ih =>
    rw [bitsOf_succ, valueOf_cons, ih, bitsOf_length, Nat.mod_pow_succ, Nat.testBit_eq_decide_div_mod_eq]
    rcases Nat.mod_two_eq_zero_or_one (v / 2 ^ n) with h | h <;> simp [h, Nat.add_comm]

theorem bitsOf_zero_value (n : Nat) : bitsOf n 0 = List.replicate n false := by
  induction n with
  | zero => rfl
  | succ n ih => rw [bitsOf_succ, ih, Nat.zero_testBit, List.replicate_succ]

/-- A byte read as 8 stream bits has its usual value (R12). -/
theorem valueOf_stream_byte (b : Buffer) (a : Nat) : valueOf (b.stream (8 * a) 8) = (b.read a).toNat := by
  have h : b.stream (8 * a) 8 = bitsOf 8 (b.read a).toNat := by
    apply List.map_congr_left
    intro i hi
    rw [List.mem_range] at hi
    have e1 : (8 * a + i) / 8 = a := by omega
    have e2 : 7 - (8 * a + i) % 8 = 8 - 1 - i := by omega
    rw [Buffer.getBit, e1, e2, BitVec.testBit_toNat]
  rw [h, valueOf_bitsOf]
  exact Nat.mod_eq_of_lt (b.read a).isLt

/-- One loop step of R102: (v << 1) | bit. -/
theorem shift_or_bit (v : Nat) (x : Bool) : (v <<< 1) ||| x.toNat = 2 * v + x.toNat := by
  rw [Nat.shiftLeft_eq, Nat.pow_one, Nat.mul_comm]
  have := Nat.two_pow_add_eq_or_of_lt (i := 1) (b := x.toNat) (by cases x <;> simp) v
  simpa using this.symm

/-! ## R100, R101 -/

theorem cursorReadBit_ok {b : Buffer} {c : Cursor} (h : c.Fits b.bytes 1) :
    cursorReadBit b c = .ok (b.getBit c.bitAddr, c.advance 1) := by
  simp [cursorReadBit, (c.inBounds_iff_fits _).2 h]

theorem cursorReadBit_error {b : Buffer} {c : Cursor} (h : ¬ c.Fits b.bytes 1) :
    cursorReadBit b c = .error .malformedBitstream := by
  rw [← Cursor.inBounds_iff_fits] at h
  simp [cursorReadBit, h]

theorem cursorWriteBit_ok {b : Buffer} {c : Cursor} (v : Bool) (h : c.Fits b.bytes 1) :
    cursorWriteBit b c v = .ok (b.putBit c.bitAddr v, c.advance 1) := by
  simp [cursorWriteBit, (c.inBounds_iff_fits _).2 h]

theorem cursorWriteBit_error {b : Buffer} {c : Cursor} (v : Bool) (h : ¬ c.Fits b.bytes 1) :
    cursorWriteBit b c v = .error .malformedBitstream := by
  rw [← Cursor.inBounds_iff_fits] at h
  simp [cursorWriteBit, h]

/-- All CursorReadBit can do. -/
theorem cursorReadBit_cases (b : Buffer) (c : Cursor) :
    (c.Fits b.bytes 1 ∧ cursorReadBit b c = .ok (b.getBit c.bitAddr, c.advance 1)) ∨
    (¬ c.Fits b.bytes 1 ∧ cursorReadBit b c = .error .malformedBitstream) := by
  by_cases h : c.Fits b.bytes 1
  · exact .inl ⟨h, cursorReadBit_ok h⟩
  · exact .inr ⟨h, cursorReadBit_error h⟩

/-! ## R102 -/

theorem cursorReadBitsFrom_ok (n : Nat) {b : Buffer} {c : Cursor} (v : Nat) (h : c.Fits b.bytes n) :
    cursorReadBitsFrom b n v c =
      .ok ((b.stream c.bitAddr n).foldl (fun v x => 2 * v + x.toNat) v, c.advance n) := by
  induction n generalizing v c with
  | zero => rfl
  | succ n ih =>
    obtain ⟨h1, h2⟩ := (c.fits_succ _ n).1 h
    rw [cursorReadBitsFrom, cursorReadBit_ok ((c.inBounds_iff_fits _).1 h1)]
    simp only [except_ok_bind, shift_or_bit]
    rw [ih _ h2, Buffer.stream_succ]
    simp [Nat.add_comm]

theorem cursorReadBitsFrom_error (n : Nat) {b : Buffer} {c : Cursor} (v : Nat) (h : ¬ c.Fits b.bytes n) :
    cursorReadBitsFrom b n v c = .error .malformedBitstream := by
  induction n generalizing v c with
  | zero => exact absurd (c.fits_zero _) h
  | succ n ih =>
    rw [cursorReadBitsFrom]
    by_cases h1 : c.Fits b.bytes 1
    · rw [cursorReadBit_ok h1, except_ok_bind]
      exact ih _ fun h2 => h ((c.fits_succ _ n).2 ⟨(c.inBounds_iff_fits _).2 h1, h2⟩)
    · rw [cursorReadBit_error h1, except_error_bind]

/-- CursorReadBits in bounds: the number the n stream bits stand for (R102). -/
theorem cursorReadBits_ok {b : Buffer} {c : Cursor} {n : Nat} (h : c.Fits b.bytes n) :
    cursorReadBits b c n = .ok (valueOf (b.stream c.bitAddr n), c.advance n) :=
  cursorReadBitsFrom_ok n 0 h

/-- CursorReadBits out of bounds (R54, R102). -/
theorem cursorReadBits_error {b : Buffer} {c : Cursor} {n : Nat} (h : ¬ c.Fits b.bytes n) :
    cursorReadBits b c n = .error .malformedBitstream :=
  cursorReadBitsFrom_error n 0 h

/-- All CursorReadBits can do. -/
theorem cursorReadBits_cases (b : Buffer) (c : Cursor) (n : Nat) :
    (c.Fits b.bytes n ∧ cursorReadBits b c n = .ok (valueOf (b.stream c.bitAddr n), c.advance n)) ∨
    (¬ c.Fits b.bytes n ∧ cursorReadBits b c n = .error .malformedBitstream) := by
  by_cases h : c.Fits b.bytes n
  · exact .inl ⟨h, cursorReadBits_ok h⟩
  · exact .inr ⟨h, cursorReadBits_error h⟩

/-! ## R103 -/

/-- CursorWriteBits in bounds writes exactly the low n bits of v, most significant first (R103), and keeps BUF well
formed. -/
theorem cursorWriteBits_ok (n v : Nat) {b : Buffer} {c : Cursor} (h : c.Fits b.bytes n) :
    ∃ b', cursorWriteBits b c n v = .ok (b', c.advance n) ∧ BitsWritten b b' c.bitAddr (bitsOf n v) ∧
      (b.Wf → b'.Wf) := by
  induction n generalizing b c with
  | zero => exact ⟨b, rfl, BitsWritten.refl b _, id⟩
  | succ n ih =>
    obtain ⟨h1, h2⟩ := (c.fits_succ _ n).1 h
    have hb : (b.putBit c.bitAddr (v.testBit n)).bytes = b.bytes := rfl
    obtain ⟨b', e, w, g⟩ := ih (b := b.putBit c.bitAddr (v.testBit n)) (c := c.advance 1) (by rw [hb]; exact h2)
    refine ⟨b', ?_, ?_, ?_⟩
    · rw [cursorWriteBits, cursorWriteBit_ok _ ((c.inBounds_iff_fits _).1 h1), except_ok_bind]
      simpa [Nat.add_comm] using e
    · rw [bitsOf_succ]
      have := (BitsWritten.putBit b c.bitAddr (v.testBit n)).append (ys := bitsOf n v) (b2 := b') (by simpa using w)
      simpa using this
    · intro hw
      refine g (hw.putBit ?_ _)
      have := ((c.inBounds_iff _).1 h1).2
      unfold Cursor.bitAddr
      omega

theorem cursorWriteBits_error (n v : Nat) {b : Buffer} {c : Cursor} (h : ¬ c.Fits b.bytes n) :
    cursorWriteBits b c n v = .error .malformedBitstream := by
  induction n generalizing b c with
  | zero => exact absurd (c.fits_zero _) h
  | succ n ih =>
    rw [cursorWriteBits]
    by_cases h1 : c.Fits b.bytes 1
    · rw [cursorWriteBit_ok _ h1, except_ok_bind]
      exact ih fun h2 => h ((c.fits_succ _ n).2 ⟨(c.inBounds_iff_fits _).2 h1, h2⟩)
    · rw [cursorWriteBit_error _ h1, except_error_bind]

end Sys2Proof.Machine
end

