-- ==== Sys2Proof/Laws/ExpGolomb.lean ====
section
/-! SUPPORT. What the codec functions R121 to R124 do, once: ReadUE and WriteUE against R76's code, and the Se
mapping and its inverse. -/

namespace Sys2Proof.Machine

/-! ## The code (R76) -/

/-- A Ue code is 2k + 1 bits long (R122). -/
@[simp] theorem ueCode_length (v : Nat) : (ueCode v).length = 2 * Nat.log2 (v + 1) + 1 := by
  simp [ueCode]; omega

/-- The leading-zero count of a Ue value is at most 31 (R120). -/
theorem log2_ue {v : Nat} (h : UeRange v) : Nat.log2 (v + 1) < 32 := by
  rw [Nat.log2_lt (by omega)]
  unfold UeRange at h
  omega

/-- A Ue code: k zeros, a one, and the low k bits of v + 1. -/
theorem ueCode_eq (v : Nat) :
    ueCode v = List.replicate (Nat.log2 (v + 1)) false ++ (true :: bitsOf (Nat.log2 (v + 1)) (v + 1)) := by
  have : (v + 1).testBit (Nat.log2 (v + 1)) = true := Nat.testBit_log2 (by omega)
  rw [ueCode, bitsOf_succ, this]

/-- The tail of a Ue code gives v back: 2^k - 1 + tail = v (R121). -/
theorem ue_value (v : Nat) :
    2 ^ Nat.log2 (v + 1) - 1 + valueOf (bitsOf (Nat.log2 (v + 1)) (v + 1)) = v := by
  rw [valueOf_bitsOf]
  have h1 : 2 ^ Nat.log2 (v + 1) ≤ v + 1 := Nat.log2_self_le (by omega)
  have h2 : v + 1 < 2 ^ (Nat.log2 (v + 1) + 1) := Nat.lt_log2_self
  have h3 : (v + 1) % 2 ^ Nat.log2 (v + 1) = v + 1 - 2 ^ Nat.log2 (v + 1) := by
    rw [Nat.mod_eq_sub_mod h1, Nat.mod_eq_of_lt]
    rw [Nat.pow_succ] at h2; omega
  rw [h3]
  have := Nat.two_pow_pos (Nat.log2 (v + 1))
  omega

/-- k zeros, a one and any k bits are the Ue code of 2^k - 1 + tail (R121, R76). -/
theorem ueCode_of_bits (k : Nat) (tail : List Bool) (h : tail.length = k) :
    List.replicate k false ++ (true :: tail) = ueCode (2 ^ k - 1 + valueOf tail) ∧
      2 ^ k - 1 + valueOf tail < 2 ^ (k + 1) - 1 := by
  have hlt := valueOf_lt tail
  rw [h] at hlt
  have hp := Nat.two_pow_pos k
  have hv : 2 ^ k - 1 + valueOf tail + 1 = 2 ^ k + valueOf tail := by omega
  have hlog : Nat.log2 (2 ^ k + valueOf tail) = k := by
    rw [Nat.log2_eq_iff (by omega)]
    rw [Nat.pow_succ]; omega
  refine ⟨?_, by rw [Nat.pow_succ]; omega⟩
  rw [ueCode_eq, hv, hlog]
  congr 2
  have hb : ∀ (n : Nat) (t : List Bool), t.length = n → ∀ m, bitsOf n (2 ^ n * m + valueOf t) = t := by
    intro n
    induction n with
    | zero => intro t ht m; rw [List.length_eq_zero_iff.1 ht]; rfl
    | succ n ih =>
      intro t ht m
      obtain ⟨x, xs, rfl⟩ := List.exists_cons_of_length_eq_add_one ht
      simp only [List.length_cons, Nat.add_right_cancel_iff] at ht
      have hx := valueOf_lt xs
      rw [ht] at hx
      have e : 2 ^ (n + 1) * m + valueOf (x :: xs) = 2 ^ n * (2 * m + x.toNat) + valueOf xs := by
        rw [valueOf_cons, ht, Nat.pow_succ]; ring
      rw [bitsOf_succ, e, ih xs ht]
      congr 1
      rw [Nat.testBit_eq_decide_div_mod_eq, Nat.mul_add_div (Nat.two_pow_pos n), Nat.div_eq_of_lt hx]
      cases x <;> simp
  have := hb k tail h 1
  rw [Nat.mul_one] at this
  exact this.symm

/-! ## R121 -/

/-- All the leading-zero loop can do: count k zeros up to a one that is in bounds, or raise. -/
theorem leadingZeros_cases (fuel : Nat) (b : Buffer) (j : Nat) (c : Cursor) :
    (∃ k < fuel, leadingZeros b fuel j c = .ok (j + k, c.advance (k + 1)) ∧ c.Fits b.bytes (k + 1) ∧
      StreamAt b c.bitAddr (List.replicate k false ++ [true])) ∨
    leadingZeros b fuel j c = .error .malformedBitstream := by
  induction fuel generalizing j c with
  | zero => exact .inr rfl
  | succ fuel ih =>
    rw [leadingZeros]
    rcases cursorReadBit_cases b c with ⟨hf, he⟩ | ⟨_, he⟩
    · rw [he]
      simp only [except_ok_bind]
      by_cases hb : b.getBit c.bitAddr = true
      · refine .inl ⟨0, by omega, by simp [hb], hf, ?_⟩
        exact streamAt_cons.2 ⟨hb, streamAt_nil _ _⟩
      · simp only [hb]
        rcases ih (j + 1) (c.advance 1) with ⟨k, hk, e, f, s⟩ | e
        · refine .inl ⟨k + 1, by omega, ?_, ?_, ?_⟩
          · simp only [Bool.false_eq_true, if_false]
            rw [e]
            simp [Nat.add_comm, Nat.add_left_comm]
          · exact (c.fits_succ _ _).2 ⟨(c.inBounds_iff_fits _).2 hf, f⟩
          · rw [List.replicate_succ, List.cons_append, streamAt_cons]
            exact ⟨by simpa using hb, by simpa using s⟩
        · exact .inr (by simpa using e)
    · exact .inr (by rw [he]; rfl)

/-- The loop on k zeros and a one (R121). -/
theorem leadingZeros_ok (k fuel : Nat) {b : Buffer} {c : Cursor} (j : Nat) (hk : k < fuel)
    (hf : c.Fits b.bytes (k + 1)) (hs : StreamAt b c.bitAddr (List.replicate k false ++ [true])) :
    leadingZeros b fuel j c = .ok (j + k, c.advance (k + 1)) := by
  induction k generalizing fuel j c with
  | zero =>
    obtain ⟨fuel, rfl⟩ := Nat.exists_eq_add_of_lt hk
    have hb := (streamAt_cons.1 hs).1
    rw [Nat.zero_add, leadingZeros, cursorReadBit_ok hf]
    simp [hb]
  | succ k ih =>
    cases fuel with
    | zero => omega
    | succ fuel =>
      rw [List.replicate_succ, List.cons_append, streamAt_cons] at hs
      obtain ⟨h1, h2⟩ := (c.fits_succ _ _).1 hf
      rw [leadingZeros, cursorReadBit_ok ((c.inBounds_iff_fits _).1 h1)]
      simp only [except_ok_bind, hs.1, Bool.false_eq_true, if_false]
      rw [ih fuel (j + 1) (by omega) h2 (by simpa using hs.2)]
      simp [Nat.add_comm, Nat.add_left_comm]

/-- ReadUE on the code of v (R121, R76). -/
theorem readUE_ok {b : Buffer} {c : Cursor} {v : Nat} (hv : UeRange v) (hf : c.Fits b.bytes (ueCode v).length)
    (hs : StreamAt b c.bitAddr (ueCode v)) : readUE b c = .ok (v, c.advance (ueCode v).length) := by
  have hlen := ueCode_length v
  set k := Nat.log2 (v + 1) with hk
  rw [ueCode_eq, ← hk, show (true :: bitsOf k (v + 1)) = [true] ++ bitsOf k (v + 1) from rfl, ← List.append_assoc,
    streamAt_append] at hs
  have hf1 : c.Fits b.bytes (k + 1) := hf.mono (by omega)
  have hf2 : (c.advance (k + 1)).Fits b.bytes k := by
    rw [show (ueCode v).length = (k + 1) + k by omega] at hf
    exact ((c.fits_add _ _ _).1 hf).2
  have hst : b.stream (c.advance (k + 1)).bitAddr k = bitsOf k (v + 1) := by
    simpa [StreamAt] using hs.2
  rw [readUE, leadingZeros_ok k 32 0 (log2_ue hv) hf1 hs.1]
  simp only [except_ok_bind, Nat.zero_add]
  rw [cursorReadBits_ok hf2, hst]
  simp only [except_ok_bind, except_pure]
  rw [ue_value v, Cursor.advance_advance, show (k + 1) + k = (ueCode v).length by omega]

/-- All ReadUE can do: decode the Ue value whose code stands at the cursor, in bounds, or raise MalformedBitstream. -/
theorem readUE_cases (b : Buffer) (c : Cursor) :
    (∃ v, UeRange v ∧ c.Fits b.bytes (ueCode v).length ∧ StreamAt b c.bitAddr (ueCode v) ∧
      readUE b c = .ok (v, c.advance (ueCode v).length)) ∨
    readUE b c = .error .malformedBitstream := by
  rcases leadingZeros_cases 32 b 0 c with ⟨k, hk, e, f, s⟩ | e
  · rcases cursorReadBits_cases b (c.advance (k + 1)) k with ⟨f2, _⟩ | ⟨_, e2⟩
    · obtain ⟨hc, hlt⟩ := ueCode_of_bits k (b.stream (c.advance (k + 1)).bitAddr k) (by simp)
      set v := 2 ^ k - 1 + valueOf (b.stream (c.advance (k + 1)).bitAddr k) with hvdef
      have hlen : (ueCode v).length = (k + 1) + k := by rw [← hc]; simp; omega
      have hv : UeRange v := by
        have : 2 ^ (k + 1) ≤ 2 ^ 32 := Nat.pow_le_pow_right (by omega) (by omega)
        unfold UeRange; omega
      have hfit : c.Fits b.bytes (ueCode v).length := by rw [hlen]; exact (c.fits_add _ _ _).2 ⟨f, f2⟩
      have hst : StreamAt b c.bitAddr (ueCode v) := by
        rw [← hc, show ∀ t, (true :: t) = [true] ++ t from fun _ => rfl, ← List.append_assoc, streamAt_append]
        refine ⟨s, ?_⟩
        simp [StreamAt]
      exact .inl ⟨v, hv, hfit, hst, readUE_ok hv hfit hst⟩
    · refine .inr ?_
      rw [readUE, e]
      simp only [except_ok_bind, Nat.zero_add]
      rw [e2]; rfl
  · exact .inr (by rw [readUE, e]; rfl)

/-! ## R122 -/

/-- WriteUE in range and in bounds writes exactly the code of v (R122). -/
theorem writeUE_ok {b : Buffer} {c : Cursor} {v : Nat} (hv : UeRange v) (hf : c.Fits b.bytes (ueCode v).length) :
    ∃ b', writeUE b c v = .ok (b', c.advance (ueCode v).length) ∧ BitsWritten b b' c.bitAddr (ueCode v) ∧
      (b.Wf → b'.Wf) := by
  have hlen := ueCode_length v
  set k := Nat.log2 (v + 1) with hk
  rw [show (ueCode v).length = k + (k + 1) by omega] at hf
  obtain ⟨f1, f2⟩ := (c.fits_add _ _ _).1 hf
  obtain ⟨b1, e1, w1, g1⟩ := cursorWriteBits_ok k 0 f1
  have hsz : b1.bytes = b.bytes := by simp [Buffer.bytes, w1.1]
  obtain ⟨b2, e2, w2, g2⟩ := cursorWriteBits_ok (k + 1) (v + 1) (b := b1) (c := c.advance k) (by rw [hsz]; exact f2)
  refine ⟨b2, ?_, ?_, g2 ∘ g1⟩
  · have hr : ¬ v > 2 ^ 32 - 2 := by unfold UeRange at hv; omega
    have hfl : floorLog2 (v + 1) = k := rfl
    simp only [writeUE, hr, if_false, hfl]
    rw [e1]
    simp only [except_ok_bind]
    rw [e2, Cursor.advance_advance, show k + (k + 1) = (ueCode v).length by omega]
  · rw [ueCode, ← bitsOf_zero_value, ← hk]
    exact w1.append (by simpa using w2)

theorem writeUE_range {b : Buffer} {c : Cursor} {v : Nat} (hv : ¬ UeRange v) :
    writeUE b c v = .error .valueRange := by
  have hr : v > 2 ^ 32 - 2 := by unfold UeRange at hv; omega
  simp only [writeUE, hr, if_true]

theorem writeUE_error {b : Buffer} {c : Cursor} {v : Nat} (hv : UeRange v)
    (hf : ¬ c.Fits b.bytes (ueCode v).length) : writeUE b c v = .error .malformedBitstream := by
  have hlen := ueCode_length v
  set k := Nat.log2 (v + 1) with hk
  have hr : ¬ v > 2 ^ 32 - 2 := by unfold UeRange at hv; omega
  have hfl : floorLog2 (v + 1) = k := rfl
  simp only [writeUE, hr, if_false, hfl]
  by_cases f1 : c.Fits b.bytes k
  · obtain ⟨b1, e1, w1, g1⟩ := cursorWriteBits_ok k 0 f1
    have hsz : b1.bytes = b.bytes := by simp [Buffer.bytes, w1.1]
    rw [e1]
    simp only [except_ok_bind]
    apply cursorWriteBits_error
    rw [hsz]
    intro f2
    apply hf
    rw [show (ueCode v).length = k + (k + 1) by omega]
    exact (c.fits_add _ _ _).2 ⟨f1, f2⟩
  · rw [cursorWriteBits_error _ _ f1, except_error_bind]

/-! ## R123, R124 -/

/-- R123 undoes R124. -/
theorem seOfUe_ueOfSe (v : Int) : seOfUe (ueOfSe v) = v := by
  unfold seOfUe ueOfSe
  split <;> split <;> omega

/-- R124 undoes R123. -/
theorem ueOfSe_seOfUe (t : Nat) : ueOfSe (seOfUe t) = t := by
  unfold seOfUe ueOfSe
  split <;> split <;> omega

/-- The mapped value of a Se value is a Ue value (R120). -/
theorem ueOfSe_range {v : Int} (h : SeRange v) : UeRange (ueOfSe v) := by
  unfold SeRange at h
  unfold UeRange ueOfSe
  split <;> omega

/-- A Ue value maps to a Se value (R120, R123). -/
theorem seOfUe_range {t : Nat} (h : UeRange t) : SeRange (seOfUe t) := by
  unfold UeRange at h
  unfold SeRange seOfUe
  split <;> omega

/-- The Se code is the Ue code of the mapped value (R76, R124). -/
theorem seCode_eq (v : Int) : seCode v = ueCode (ueOfSe v) := by
  unfold seCode ueOfSe
  congr 1
  split <;> omega

/-- ReadSE on the code of v. -/
theorem readSE_ok {b : Buffer} {c : Cursor} {v : Int} (hv : SeRange v) (hf : c.Fits b.bytes (seCode v).length)
    (hs : StreamAt b c.bitAddr (seCode v)) : readSE b c = .ok (v, c.advance (seCode v).length) := by
  rw [seCode_eq] at hf hs ⊢
  rw [readSE, readUE_ok (ueOfSe_range hv) hf hs]
  simp [seOfUe_ueOfSe]

/-- All ReadSE can do. -/
theorem readSE_cases (b : Buffer) (c : Cursor) :
    (∃ v, SeRange v ∧ c.Fits b.bytes (seCode v).length ∧ StreamAt b c.bitAddr (seCode v) ∧
      readSE b c = .ok (v, c.advance (seCode v).length)) ∨
    readSE b c = .error .malformedBitstream := by
  rcases readUE_cases b c with ⟨t, ht, hf, hs, e⟩ | e
  · have hc : seCode (seOfUe t) = ueCode t := by rw [seCode_eq, ueOfSe_seOfUe]
    refine .inl ⟨seOfUe t, seOfUe_range ht, by rw [hc]; exact hf, by rw [hc]; exact hs, ?_⟩
    rw [readSE, e, hc]; rfl
  · exact .inr (by rw [readSE, e]; rfl)

/-- WriteSE in range is WriteUE of the mapped value (R124). -/
theorem writeSE_eq {b : Buffer} {c : Cursor} {v : Int} (hv : SeRange v) : writeSE b c v = writeUE b c (ueOfSe v) := by
  have : v ≠ -2 ^ 31 := by unfold SeRange at hv; omega
  simp only [writeSE, this, if_false]

end Sys2Proof.Machine
end

