-- ==== Sys2Proof/Laws/Crop.lean ====
section
/-! SUPPORT. What FIX_CROP's parse phase R164 reads and its write phase R170 writes, once, against the fields' bits. -/

namespace Sys2Proof.Machine

/-! ## Parsers

`Reads b p R E`: on a buffer `b`, the parser `p` yields exactly the values `v` with `R v bits` for bits that stand at
the cursor in bounds, and moves past them; else it raises an error of `E`. -/

structure Reads {α : Type} (b : Buffer) (p : Cursor → Except Raise (α × Cursor)) (R : α → List Bool → Prop)
    (E : Raise → Prop) : Prop where
  complete : ∀ v bits c, R v bits → c.Fits b.bytes bits.length → StreamAt b c.bitAddr bits →
    p c = .ok (v, c.advance bits.length)
  sound : ∀ c, (∃ v bits, R v bits ∧ c.Fits b.bytes bits.length ∧ StreamAt b c.bitAddr bits) ∨
    ∃ e, E e ∧ p c = .error e

theorem Reads.pure {α : Type} {b : Buffer} {E : Raise → Prop} (w : α) :
    Reads b (fun c => .ok (w, c)) (fun v bits => v = w ∧ bits = []) E :=
  ⟨by rintro v bits c ⟨rfl, rfl⟩ _ _; rfl, fun _ => .inl ⟨w, [], ⟨rfl, rfl⟩, .inl rfl, streamAt_nil _ _⟩⟩

theorem Reads.bind {α β : Type} {b : Buffer} {p : Cursor → Except Raise (α × Cursor)} {R : α → List Bool → Prop}
    {E : Raise → Prop} {q : α → Cursor → Except Raise (β × Cursor)} {R' : α → β → List Bool → Prop}
    (hp : Reads b p R E) (hq : ∀ v, Reads b (q v) (R' v) E) :
    Reads b (fun c => p c >>= fun x => q x.1 x.2)
      (fun w bits => ∃ v xs ys, R v xs ∧ R' v w ys ∧ bits = xs ++ ys) E := by
  refine ⟨?_, fun c => ?_⟩
  · rintro w bits c ⟨v, xs, ys, h1, h2, rfl⟩ hf hs
    rw [List.length_append] at hf
    obtain ⟨f1, f2⟩ := (c.fits_add _ _ _).1 hf
    obtain ⟨s1, s2⟩ := streamAt_append.1 hs
    show p c >>= _ = _
    rw [hp.complete v xs c h1 f1 s1, except_ok_bind]
    rw [(hq v).complete w ys _ h2 f2 (by rw [Cursor.advance_bitAddr]; exact s2)]
    simp
  · rcases hp.sound c with ⟨v, xs, h1, f1, s1⟩ | ⟨e, he, h⟩
    · have e1 := hp.complete v xs c h1 f1 s1
      rcases (hq v).sound (c.advance xs.length) with ⟨w, ys, h2, f2, s2⟩ | ⟨e, he, h⟩
      · refine .inl ⟨w, xs ++ ys, ⟨v, xs, ys, h1, h2, rfl⟩, ?_, ?_⟩
        · rw [List.length_append]; exact (c.fits_add _ _ _).2 ⟨f1, f2⟩
        · exact streamAt_append.2 ⟨s1, by rw [Cursor.advance_bitAddr] at s2; exact s2⟩
      · refine .inr ⟨e, he, ?_⟩
        show p c >>= _ = _
        rw [e1, except_ok_bind]; exact h
    · refine .inr ⟨e, he, ?_⟩
      show p c >>= _ = _
      rw [h, except_error_bind]

theorem Reads.congr {α : Type} {b : Buffer} {p : Cursor → Except Raise (α × Cursor)} {R S : α → List Bool → Prop}
    {E : Raise → Prop} (h : Reads b p R E) (hrs : ∀ v bits, R v bits ↔ S v bits) : Reads b p S E := by
  have : R = S := by funext v bits; exact propext (hrs v bits)
  exact this ▸ h

theorem Reads.ite {α : Type} {b : Buffer} {p q : Cursor → Except Raise (α × Cursor)} {R S : α → List Bool → Prop}
    {E : Raise → Prop} {P : Prop} [Decidable P] (hp : P → Reads b p R E) (hq : ¬ P → Reads b q S E) :
    Reads b (fun c => if P then p c else q c) (fun v bits => (P ∧ R v bits) ∨ (¬ P ∧ S v bits)) E := by
  by_cases h : P
  · simpa only [h, if_true, true_and, not_true, false_and, or_false] using hp h
  · simpa only [h, if_false, false_and, not_false_iff, true_and, false_or] using hq h

section
variable {b : Buffer} {E : Raise → Prop} (hE : E .malformedBitstream)
include hE

theorem reads_bit : Reads b (cursorReadBit b) (fun v bits => bits = [v]) E := by
  refine ⟨?_, fun c => ?_⟩
  · rintro v bits c rfl hf hs
    rw [cursorReadBit_ok hf, (streamAt_cons.1 hs).1]; rfl
  · rcases cursorReadBit_cases b c with ⟨hf, _⟩ | ⟨_, h⟩
    · exact .inl ⟨_, _, rfl, hf, streamAt_cons.2 ⟨rfl, streamAt_nil _ _⟩⟩
    · exact .inr ⟨_, hE, h⟩

theorem reads_bits (n : Nat) :
    Reads b (fun c => cursorReadBits b c n) (fun v bits => v < 2 ^ n ∧ bits = bitsOf n v) E := by
  refine ⟨?_, fun c => ?_⟩
  · rintro v bits c ⟨hv, rfl⟩ hf hs
    rw [bitsOf_length] at hf
    rw [cursorReadBits_ok hf]
    have : b.stream c.bitAddr n = bitsOf n v := by simpa [StreamAt] using hs
    rw [this, valueOf_bitsOf, Nat.mod_eq_of_lt hv, bitsOf_length]
  · rcases cursorReadBits_cases b c n with ⟨hf, _⟩ | ⟨_, h⟩
    · have hl : (b.stream c.bitAddr n).length = n := by simp
      have hb : bitsOf n (valueOf (b.stream c.bitAddr n)) = b.stream c.bitAddr n := by
        have key : ∀ (t : List Bool) (m : Nat), bitsOf t.length (2 ^ t.length * m + valueOf t) = t := by
          intro t
          induction t with
          | nil => intro m; rfl
          | cons x xs ih =>
            intro m
            have hx := valueOf_lt xs
            have e : 2 ^ (xs.length + 1) * m + valueOf (x :: xs) = 2 ^ xs.length * (2 * m + x.toNat) + valueOf xs := by
              rw [valueOf_cons, Nat.pow_succ]; ring
            rw [List.length_cons, bitsOf_succ, e, ih]
            congr 1
            rw [Nat.testBit_eq_decide_div_mod_eq, Nat.mul_add_div (Nat.two_pow_pos _), Nat.div_eq_of_lt hx]
            cases x <;> simp
        have := key (b.stream c.bitAddr n) 0
        simpa [hl] using this
      refine .inl ⟨valueOf (b.stream c.bitAddr n), b.stream c.bitAddr n, ⟨?_, hb.symm⟩, by rw [hl]; exact hf, ?_⟩
      · have := valueOf_lt (b.stream c.bitAddr n)
        rwa [hl] at this
      · simp [StreamAt]
    · exact .inr ⟨_, hE, h⟩

theorem reads_ue : Reads b (readUE b) (fun v bits => UeRange v ∧ bits = ueCode v) E := by
  refine ⟨?_, fun c => ?_⟩
  · rintro v bits c ⟨hv, rfl⟩ hf hs
    exact readUE_ok hv hf hs
  · rcases readUE_cases b c with ⟨v, hv, hf, hs, _⟩ | h
    · exact .inl ⟨v, _, ⟨hv, rfl⟩, hf, hs⟩
    · exact .inr ⟨_, hE, h⟩

theorem reads_se : Reads b (readSE b) (fun v bits => SeRange v ∧ bits = seCode v) E := by
  refine ⟨?_, fun c => ?_⟩
  · rintro v bits c ⟨hv, rfl⟩ hf hs
    exact readSE_ok hv hf hs
  · rcases readSE_cases b c with ⟨v, hv, hf, hs, _⟩ | h
    · exact .inl ⟨v, _, ⟨hv, rfl⟩, hf, hs⟩
    · exact .inr ⟨_, hE, h⟩

/-- The loop over offset_for_ref_frame (R164). -/
theorem reads_ses (n : Nat) :
    Reads b (readSEs b n)
      (fun vs bits => vs.length = n ∧ (∀ v ∈ vs, SeRange v) ∧ bits = vs.flatMap seCode) E := by
  induction n with
  | zero =>
    refine Reads.congr (Reads.pure []) fun vs bits => ?_
    constructor
    · rintro ⟨rfl, rfl⟩; simp
    · rintro ⟨h, _, rfl⟩
      rw [List.length_eq_zero_iff] at h
      subst h; simp
  | succ n ih =>
    refine Reads.congr (Reads.bind (reads_se hE) fun v => Reads.bind ih fun vs => Reads.pure (v :: vs)) fun ws bits => ?_
    constructor
    · rintro ⟨v, xs, ys, ⟨hv, rfl⟩, ⟨vs, zs, us, ⟨hl, hr, rfl⟩, ⟨rfl, rfl⟩, rfl⟩, rfl⟩
      refine ⟨by simp [hl], ?_, by simp⟩
      intro u hu
      rcases List.mem_cons.1 hu with rfl | hu
      · exact hv
      · exact hr u hu
    · rintro ⟨hl, hr, rfl⟩
      obtain ⟨v, vs, rfl⟩ := List.exists_cons_of_length_eq_add_one hl
      exact ⟨v, _, _, ⟨hr v (by simp), rfl⟩,
        ⟨vs, _, [], ⟨by simpa using hl, fun u hu => hr u (by simp [hu]), rfl⟩, ⟨rfl, rfl⟩, rfl⟩, by simp⟩

/-- pic_order_cnt_type and its fields (R164, R165). -/
theorem reads_poc : Reads b (parsePoc b) (fun p bits => p.Legal ∧ bits = p.bits) E := by
  refine Reads.congr (Reads.bind (reads_ue hE) fun t =>
    Reads.ite (P := t = 0) (fun _ => Reads.bind (reads_ue hE) fun lsb => Reads.pure (PocFields.lsb lsb)) fun _ =>
    Reads.ite (P := t = 1) (fun _ =>
      Reads.bind (reads_bit hE) fun always => Reads.bind (reads_se hE) fun nonRef =>
      Reads.bind (reads_se hE) fun topBottom => Reads.bind (reads_ue hE) fun n =>
      Reads.bind (reads_ses hE n) fun offsets => Reads.pure (PocFields.cycle always nonRef topBottom offsets)) fun _ =>
    Reads.pure (PocFields.other t)) fun p bits => ?_
  constructor
  · rintro ⟨t, xs, ys, ⟨ht, rfl⟩, h, rfl⟩
    rcases h with ⟨rfl, v, us, vs, ⟨hv, rfl⟩, ⟨rfl, rfl⟩, rfl⟩ | ⟨h0, h⟩
    · exact ⟨hv, by simp [PocFields.bits]⟩
    · rcases h with ⟨rfl, h⟩ | ⟨h1, rfl, rfl⟩
      · obtain ⟨a, _, _, rfl, ⟨nr, _, _, ⟨hnr, rfl⟩, ⟨tb, _, _, ⟨htb, rfl⟩, ⟨n, _, _, ⟨hn, rfl⟩,
          ⟨vs, _, _, ⟨hl, hr, rfl⟩, ⟨rfl, rfl⟩, rfl⟩, rfl⟩, rfl⟩, rfl⟩, rfl⟩ := h
        subst hl
        exact ⟨⟨hnr, htb, hn, hr⟩, by simp [PocFields.bits]⟩
      · exact ⟨⟨by omega, ht⟩, by simp [PocFields.bits]⟩
  · rintro ⟨hp, rfl⟩
    cases p with
    | lsb v => exact ⟨0, _, _, ⟨by simp [UeRange], rfl⟩, .inl ⟨rfl, v, _, [], ⟨hp, rfl⟩, ⟨rfl, rfl⟩, rfl⟩, by simp [PocFields.bits]⟩
    | cycle a nr tb vs =>
      obtain ⟨h1, h2, h3, h4⟩ := hp
      exact ⟨1, _, _, ⟨by simp [UeRange], rfl⟩, .inr ⟨by omega, .inl ⟨rfl, a, _, _, rfl, ⟨nr, _, _, ⟨h1, rfl⟩,
        ⟨tb, _, _, ⟨h2, rfl⟩, ⟨vs.length, _, _, ⟨h3, rfl⟩, ⟨vs, _, [], ⟨rfl, h4, rfl⟩, ⟨rfl, rfl⟩, rfl⟩, rfl⟩, rfl⟩,
        rfl⟩, rfl⟩⟩, by simp [PocFields.bits]⟩
    | other t =>
      obtain ⟨h1, h2⟩ := hp
      exact ⟨t, _, [], ⟨h2, rfl⟩, .inr ⟨by omega, .inr ⟨by omega, rfl, rfl⟩⟩, by simp [PocFields.bits]⟩

/-- mb_adaptive_frame_field_flag (R166). -/
theorem reads_mbaff (fmo : Bool) :
    Reads b (parseMbaff b fmo) (fun v bits => v.isSome = !fmo ∧ bits = v.toList) E := by
  cases fmo
  · refine Reads.congr (Reads.bind (reads_bit hE) fun v => Reads.pure (some v)) fun v bits => ?_
    constructor
    · rintro ⟨v, _, _, rfl, ⟨rfl, rfl⟩, rfl⟩; simp
    · rintro ⟨h, rfl⟩
      obtain ⟨v, rfl⟩ := Option.isSome_iff_exists.1 (by simpa using h)
      exact ⟨v, _, [], rfl, ⟨rfl, rfl⟩, by simp⟩
  · refine Reads.congr (Reads.pure none) fun v bits => ?_
    cases v <;> simp

/-- The old crop fields (R164). -/
theorem reads_oldCrop : Reads b (parseOldCrop b) (fun o bits => CropLegal o ∧ bits = cropBits o) E := by
  refine Reads.congr (Reads.bind (reads_bit hE) fun flag =>
    Reads.ite (P := flag = true) (fun _ =>
      Reads.bind (reads_ue hE) fun left => Reads.bind (reads_ue hE) fun right =>
      Reads.bind (reads_ue hE) fun top => Reads.bind (reads_ue hE) fun bottom =>
      Reads.pure (some (CropOffsets.mk left right top bottom))) fun _ =>
    Reads.pure none) fun o bits => ?_
  constructor
  · rintro ⟨flag, _, _, rfl, h, rfl⟩
    rcases h with ⟨rfl, l, _, _, ⟨hl, rfl⟩, ⟨r, _, _, ⟨hr, rfl⟩, ⟨t, _, _, ⟨ht, rfl⟩, ⟨bt, _, _, ⟨hb, rfl⟩,
      ⟨rfl, rfl⟩, rfl⟩, rfl⟩, rfl⟩, rfl⟩ | ⟨hn, rfl, rfl⟩
    · exact ⟨⟨hl, hr, ht, hb⟩, by simp [cropBits]⟩
    · rw [Bool.not_eq_true] at hn
      subst hn
      exact ⟨trivial, rfl⟩
  · rintro ⟨ho, rfl⟩
    cases o with
    | none => exact ⟨false, _, [], rfl, .inr ⟨by simp, rfl, rfl⟩, rfl⟩
    | some c =>
      obtain ⟨h1, h2, h3, h4⟩ := ho
      exact ⟨true, _, _, rfl, .inl ⟨rfl, c.left, _, _, ⟨h1, rfl⟩, ⟨c.right, _, _, ⟨h2, rfl⟩, ⟨c.top, _, _, ⟨h3, rfl⟩,
        ⟨c.bottom, _, [], ⟨h4, rfl⟩, ⟨rfl, rfl⟩, rfl⟩, rfl⟩, rfl⟩, rfl⟩, by simp [cropBits]⟩

/-- The fields between profile_idc and the splice point (R164). -/
theorem reads_afterProfile (profile : Nat) (hp : profile < 256) (hn : profile ∉ unsupportedProfiles) :
    Reads b (parseAfterProfile b profile)
      (fun f bits => f.Legal ∧ f.profileIdc = profile ∧ f.bits = bitsOf 8 profile ++ bits) E := by
  have h8 := reads_bits (b := b) hE 8
  refine Reads.congr (Reads.bind h8 fun constraint => Reads.bind h8 fun level => Reads.bind (reads_ue hE) fun spsId =>
    Reads.bind (reads_ue hE) fun log2Frame => Reads.bind (reads_poc hE) fun poc =>
    Reads.bind (reads_ue hE) fun refs => Reads.bind (reads_bit hE) fun gaps => Reads.bind (reads_ue hE) fun width =>
    Reads.bind (reads_ue hE) fun height => Reads.bind (reads_bit hE) fun fmo =>
    Reads.bind (reads_mbaff hE fmo) fun mbaff => Reads.bind (reads_bit hE) fun direct =>
    Reads.pure (SpsFields.mk profile constraint level spsId log2Frame poc refs gaps width height fmo mbaff direct))
    fun f bits => ?_
  constructor
  · rintro ⟨c, _, _, ⟨hc, rfl⟩, ⟨l, _, _, ⟨hl, rfl⟩, ⟨i, _, _, ⟨hi, rfl⟩, ⟨g, _, _, ⟨hg, rfl⟩, ⟨poc, _, _, ⟨hpoc, rfl⟩,
      ⟨rf, _, _, ⟨hrf, rfl⟩, ⟨gp, _, _, rfl, ⟨w, _, _, ⟨hw, rfl⟩, ⟨ht, _, _, ⟨hht, rfl⟩, ⟨fm, _, _, rfl,
      ⟨mb, _, _, ⟨hmb, rfl⟩, ⟨d, _, _, rfl, ⟨rfl, rfl⟩, rfl⟩, rfl⟩, rfl⟩, rfl⟩, rfl⟩, rfl⟩, rfl⟩, rfl⟩, rfl⟩, rfl⟩,
      rfl⟩, rfl⟩
    exact ⟨⟨hp, hn, hc, hl, hi, hg, hpoc, hrf, hw, hht, hmb⟩, rfl, by simp [SpsFields.bits]⟩
  · rintro ⟨⟨_, _, hc, hl, hi, hg, hpoc, hrf, hw, hht, hmb⟩, rfl, hbits⟩
    simp only [SpsFields.bits, List.append_assoc, List.append_cancel_left_eq] at hbits
    subst hbits
    exact ⟨f.constraintByte, _, _, ⟨hc, rfl⟩, ⟨f.levelIdc, _, _, ⟨hl, rfl⟩,
      ⟨f.seqParameterSetId, _, _, ⟨hi, rfl⟩, ⟨f.log2MaxFrameNumMinus4, _, _, ⟨hg, rfl⟩, ⟨f.poc, _, _, ⟨hpoc, rfl⟩,
      ⟨f.maxNumRefFrames, _, _, ⟨hrf, rfl⟩, ⟨f.gapsInFrameNumValueAllowed, _, _, rfl,
      ⟨f.picWidthInMbsMinus1, _, _, ⟨hw, rfl⟩, ⟨f.picHeightInMapUnitsMinus1, _, _, ⟨hht, rfl⟩,
      ⟨f.frameMbsOnly, _, _, rfl, ⟨f.mbAdaptiveFrameField, _, _, ⟨hmb, rfl⟩, ⟨f.direct8x8Inference, _, [], rfl,
      ⟨rfl, rfl⟩, rfl⟩, rfl⟩, rfl⟩, rfl⟩, rfl⟩, rfl⟩, rfl⟩, rfl⟩, rfl⟩, rfl⟩, rfl⟩, by simp⟩

end

/-! ## The parse phase -/

/-- profile_idc as the parse reads it (R164). -/
def profileAt (b : Buffer) (c : Cursor) : Nat := valueOf (b.stream c.bitAddr 8)

theorem profileAt_lt (b : Buffer) (c : Cursor) : profileAt b c < 256 := by
  have := valueOf_lt (b.stream c.bitAddr 8)
  rwa [Buffer.stream_length] at this

/-- The unsupported-profile test comes right after profile_idc (R163): nothing after the first byte counts. -/
theorem parseSps_profile {b : Buffer} {c : Cursor} (hf : c.Fits b.bytes 8)
    (hp : profileAt b c ∈ unsupportedProfiles) :
    parseSps b c = .error (.unsupportedProfile (BitVec.ofNat 8 (profileAt b c))) := by
  unfold profileAt at *
  rw [parseSps, parseFields, cursorReadBits_ok hf]
  simp only [except_ok_bind, hp, if_true, except_error_bind]

/-- Fewer than 8 bits in the window: MalformedBitstream at profile_idc (R172). -/
theorem parseSps_short {b : Buffer} {c : Cursor} (hf : ¬ c.Fits b.bytes 8) :
    parseSps b c = .error .malformedBitstream := by
  rw [parseSps, parseFields, cursorReadBits_error hf]
  rfl

theorem parseFields_eq {b : Buffer} {c : Cursor} (hf : c.Fits b.bytes 8)
    (hp : profileAt b c ∉ unsupportedProfiles) :
    parseFields b c = parseAfterProfile b (profileAt b c) (c.advance 8) := by
  unfold profileAt at *
  rw [parseFields, cursorReadBits_ok hf]
  simp only [except_ok_bind, hp, if_false]

/-- What an SPS at the cursor gives its first byte and the fields after it. -/
theorem parseFields_ok {b : Buffer} {c : Cursor} {f : SpsFields} (hl : f.Legal) (hf : c.Fits b.bytes f.bits.length)
    (hs : StreamAt b c.bitAddr f.bits) : parseFields b c = .ok (f, c.advance f.bits.length) := by
  obtain ⟨rest, hrest⟩ : ∃ rest, f.bits = bitsOf 8 f.profileIdc ++ rest := ⟨_, by
    simp only [SpsFields.bits, List.append_assoc]; rfl⟩
  have hf' := hf
  rw [hrest, List.length_append, bitsOf_length] at hf'
  obtain ⟨f1, f2⟩ := (c.fits_add _ _ _).1 hf'
  have hs' := hs
  rw [hrest] at hs'
  obtain ⟨s1, s2⟩ := streamAt_append.1 hs'
  have hpa : profileAt b c = f.profileIdc := by
    have : b.stream c.bitAddr 8 = bitsOf 8 f.profileIdc := by simpa [StreamAt] using s1
    rw [profileAt, this, valueOf_bitsOf]
    exact Nat.mod_eq_of_lt hl.1
  rw [parseFields_eq f1 (by rw [hpa]; exact hl.2.1), hpa]
  rw [(reads_afterProfile (b := b) (E := fun e => e = .malformedBitstream) rfl _ hl.1 hl.2.1).complete f rest _
    ⟨hl, rfl, hrest⟩ f2 (by rw [Cursor.advance_bitAddr]; simpa using s2)]
  rw [Cursor.advance_advance, hrest, List.length_append, bitsOf_length]

/-- All the parse up to the splice point can do on a supported profile. -/
theorem parseFields_cases {b : Buffer} {c : Cursor} (hf : c.Fits b.bytes 8)
    (hp : profileAt b c ∉ unsupportedProfiles) :
    (∃ f : SpsFields, f.Legal ∧ c.Fits b.bytes f.bits.length ∧ StreamAt b c.bitAddr f.bits) ∨
    parseFields b c = .error .malformedBitstream := by
  rw [parseFields_eq hf hp]
  rcases (reads_afterProfile (b := b) (E := fun e => e = .malformedBitstream) rfl _ (profileAt_lt b c) hp).sound
    (c.advance 8) with ⟨f, bits, ⟨hl, hpf, hbits⟩, f2, s2⟩ | ⟨e, rfl, h⟩
  · refine .inl ⟨f, hl, ?_, ?_⟩
    · rw [hbits, List.length_append, bitsOf_length]
      exact (c.fits_add _ _ _).2 ⟨hf, f2⟩
    · rw [hbits]
      refine streamAt_append.2 ⟨?_, ?_⟩
      · have := valueOf_lt (b.stream c.bitAddr 8)
        have h1 := (reads_bits (b := b) (E := fun e => e = .malformedBitstream) rfl 8).sound c
        rcases h1 with ⟨v, xs, ⟨hv, rfl⟩, _, s1⟩ | ⟨e, _, h⟩
        · have : b.stream c.bitAddr 8 = bitsOf 8 v := by simpa [StreamAt] using s1
          rw [profileAt, this, valueOf_bitsOf, Nat.mod_eq_of_lt hv]
          exact s1
        · rw [cursorReadBits_ok hf] at h
          cases h
      · rw [Cursor.advance_bitAddr] at s2
        simpa using s2
  · exact .inr h

/-- The parse phase on an SPS (R164, R167, R168). -/
theorem parseSps_of_spsAt {b : Buffer} {c : Cursor} {f : SpsFields} {old : Option CropOffsets} {vui : Bool}
    (h : SpsAt b c f old vui) :
    parseSps b c = if vui then .error .unsupportedVui
      else .ok { fields := f, splice := c.pos + f.bits.length, oldCrop := old, vui := false } := by
  obtain ⟨hf, ho, hfit, hs⟩ := h
  rw [List.append_assoc, List.length_append, List.length_append] at hfit
  rw [List.append_assoc] at hs
  obtain ⟨f1, f2⟩ := (c.fits_add _ _ _).1 hfit
  obtain ⟨f2, f3⟩ := (Cursor.fits_add _ _ _ _).1 f2
  obtain ⟨s1, s2⟩ := streamAt_append.1 hs
  obtain ⟨s2, s3⟩ := streamAt_append.1 s2
  have e2 := (reads_oldCrop (b := b) (E := fun e => e = .malformedBitstream) rfl).complete old (cropBits old)
    (c.advance f.bits.length) ⟨ho, rfl⟩ f2 (by rw [Cursor.advance_bitAddr]; exact s2)
  have e3 := (reads_bit (b := b) (E := fun e => e = .malformedBitstream) rfl).complete vui [vui] _ rfl f3
    (by rw [Cursor.advance_bitAddr, Cursor.advance_bitAddr]; exact s3)
  rw [parseSps, parseFields_ok hf f1 s1]
  simp only [except_ok_bind]
  rw [e2]
  simp only [except_ok_bind]
  rw [e3]
  cases vui <;> rfl

/-- All the parse phase can do: the window is too short for profile_idc, the profile is unsupported, an SPS stands
there, or a later read raises MalformedBitstream. -/
theorem parseSps_cases (b : Buffer) (c : Cursor) :
    (¬ c.Fits b.bytes 8 ∧ parseSps b c = .error .malformedBitstream) ∨
    (c.Fits b.bytes 8 ∧ profileAt b c ∈ unsupportedProfiles ∧
      parseSps b c = .error (.unsupportedProfile (BitVec.ofNat 8 (profileAt b c)))) ∨
    (∃ f old vui, SpsAt b c f old vui) ∨
    (c.Fits b.bytes 8 ∧ profileAt b c ∉ unsupportedProfiles ∧ parseSps b c = .error .malformedBitstream) := by
  by_cases hf : c.Fits b.bytes 8
  swap
  · exact .inl ⟨hf, parseSps_short hf⟩
  by_cases hp : profileAt b c ∈ unsupportedProfiles
  · exact .inr (.inl ⟨hf, hp, parseSps_profile hf hp⟩)
  rcases parseFields_cases hf hp with ⟨f, hl, f1, s1⟩ | h
  · have e1 := parseFields_ok hl f1 s1
    rcases (reads_oldCrop (b := b) (E := fun e => e = .malformedBitstream) rfl).sound (c.advance f.bits.length) with
      ⟨old, bits, ⟨ho, rfl⟩, f2, s2⟩ | ⟨e, rfl, h⟩
    · have e2 := (reads_oldCrop (b := b) (E := fun e => e = .malformedBitstream) rfl).complete old (cropBits old) _
        ⟨ho, rfl⟩ f2 s2
      rcases (reads_bit (b := b) (E := fun e => e = .malformedBitstream) rfl).sound
        ((c.advance f.bits.length).advance (cropBits old).length) with ⟨vui, bits, rfl, f3, s3⟩ | ⟨e, rfl, h⟩
      · refine .inr (.inr (.inl ⟨f, old, vui, hl, ho, ?_, ?_⟩))
        · rw [List.append_assoc, List.length_append, List.length_append]
          exact (c.fits_add _ _ _).2 ⟨f1, (Cursor.fits_add _ _ _ _).2 ⟨f2, f3⟩⟩
        · rw [List.append_assoc]
          rw [Cursor.advance_bitAddr] at s2 s3
          rw [Cursor.advance_bitAddr] at s3
          exact streamAt_append.2 ⟨s1, streamAt_append.2 ⟨s2, s3⟩⟩
      · refine .inr (.inr (.inr ⟨hf, hp, ?_⟩))
        rw [parseSps, e1]
        simp only [except_ok_bind]
        rw [e2]
        simp only [except_ok_bind]
        rw [h]; rfl
    · refine .inr (.inr (.inr ⟨hf, hp, ?_⟩))
      rw [parseSps, e1]
      simp only [except_ok_bind]
      rw [h]; rfl
  · exact .inr (.inr (.inr ⟨hf, hp, by rw [parseSps, h]; rfl⟩))

/-! ## The write phase -/

/-- A writer in sequence: it either writes its bits or, out of bounds, raises MalformedBitstream. -/
def Writes (p : Buffer → Cursor → Except Raise (Buffer × Cursor)) (bits : List Bool) : Prop :=
  ∀ b c, (c.Fits b.bytes bits.length ∧ ∃ b', p b c = .ok (b', c.advance bits.length) ∧
      BitsWritten b b' c.bitAddr bits ∧ (b.Wf → b'.Wf)) ∨
    (¬ c.Fits b.bytes bits.length ∧ p b c = .error .malformedBitstream)

theorem Writes.bind {p q : Buffer → Cursor → Except Raise (Buffer × Cursor)} {xs ys : List Bool}
    (hp : Writes p xs) (hq : Writes q ys) : Writes (fun b c => p b c >>= fun x => q x.1 x.2) (xs ++ ys) := by
  intro b c
  rcases hp b c with ⟨f1, b1, e1, w1, g1⟩ | ⟨f1, e1⟩
  · have hsz : b1.bytes = b.bytes := by simp [Buffer.bytes, w1.1]
    rcases hq b1 (c.advance xs.length) with ⟨f2, b2, e2, w2, g2⟩ | ⟨f2, e2⟩
    · rw [hsz] at f2
      refine .inl ⟨by rw [List.length_append]; exact (c.fits_add _ _ _).2 ⟨f1, f2⟩, b2, ?_, ?_, g2 ∘ g1⟩
      · show p b c >>= _ = _
        rw [e1, except_ok_bind, e2]
        simp
      · exact w1.append (by rw [Cursor.advance_bitAddr] at w2; exact w2)
    · rw [hsz] at f2
      refine .inr ⟨fun h => f2 ?_, ?_⟩
      · rw [List.length_append] at h; exact ((c.fits_add _ _ _).1 h).2
      · show p b c >>= _ = _
        rw [e1, except_ok_bind, e2]
  · refine .inr ⟨fun h => f1 ?_, ?_⟩
    · rw [List.length_append] at h; exact ((c.fits_add _ _ _).1 h).1
    · show p b c >>= _ = _
      rw [e1, except_error_bind]

theorem writes_bit (v : Bool) : Writes (fun b c => cursorWriteBit b c v) [v] := by
  intro b c
  by_cases h : c.Fits b.bytes 1
  · refine .inl ⟨h, _, cursorWriteBit_ok v h, BitsWritten.putBit b _ v, fun hw => hw.putBit ?_ v⟩
    have := ((c.inBounds_iff _).1 ((c.inBounds_iff_fits _).2 h)).2
    unfold Cursor.bitAddr
    omega
  · exact .inr ⟨h, cursorWriteBit_error v h⟩

theorem writes_ue {v : Nat} (hv : UeRange v) : Writes (fun b c => writeUE b c v) (ueCode v) := by
  intro b c
  by_cases h : c.Fits b.bytes (ueCode v).length
  · exact .inl ⟨h, writeUE_ok hv h⟩
  · exact .inr ⟨h, writeUE_error hv h⟩

/-- The write phase R170, in bounds or not. -/
theorem writes_crop {crop : CropOffsets} (h : CropLegal (some crop)) (vui : Bool) :
    Writes (fun b c => writeCrop b c crop vui) (cropBits (some crop) ++ [vui, true]) := by
  obtain ⟨h1, h2, h3, h4⟩ := h
  have key := (writes_bit true).bind ((writes_ue h1).bind ((writes_ue h2).bind ((writes_ue h3).bind
    ((writes_ue h4).bind ((writes_bit vui).bind (writes_bit true))))))
  have e : cropBits (some crop) ++ [vui, true] =
      [true] ++ (ueCode crop.left ++ (ueCode crop.right ++ (ueCode crop.top ++ (ueCode crop.bottom ++ ([vui] ++ [true]))))) := by
    simp [cropBits]
  rw [e]
  exact key

/-- The crop values are the source's (R169). -/
theorem macroblockGap_eq (v : Nat) : macroblockGap v = roundUp16 v - v := by
  unfold macroblockGap roundUp16; omega

theorem cropValues_eq (w h : Nat) (fmo : Bool) : cropValues w h fmo = sourceCrop w h fmo := by
  simp [cropValues, sourceCrop, macroblockGap_eq]

/-- The gap to the next macroblock boundary is at most 15 (R169). -/
theorem macroblockGap_lt (v : Nat) : macroblockGap v < 16 := by
  unfold macroblockGap; omega

/-- The crop values have codes (R169: 0 to 7). -/
theorem cropValues_legal (w h : Nat) (fmo : Bool) : CropLegal (some (cropValues w h fmo)) := by
  have hw := macroblockGap_lt w
  have hh := macroblockGap_lt h
  refine ⟨by simp [cropValues, UeRange], ?_, by simp [cropValues, UeRange], ?_⟩
  · simp only [cropValues, UeRange]; omega
  · simp only [cropValues, UeRange]
    split <;> omega

end Sys2Proof.Machine
end

