-- ==== Sys2Proof/Laws/Encoding.lean ====
section
/-! SUPPORT. The command word's fields, and what the opcode map answers (30_encoding.md R70 to R73). -/

namespace Sys2Proof

/-- The fields of (N << 8) | OP (R70). -/
theorem fields_of_word (n : BitVec 6) (op : BitVec 8) :
    opField ((n.setWidth 32 <<< 8) ||| op.setWidth 32) = op ∧
    nField ((n.setWidth 32 <<< 8) ||| op.setWidth 32) = n ∧
    rsvdField ((n.setWidth 32 <<< 8) ||| op.setWidth 32) = 0#18 := by
  refine ⟨?_, ?_, ?_⟩
  · ext j hj
    simp only [opField, BitVec.getElem_extractLsb', Nat.zero_add, BitVec.getLsbD_or, BitVec.getLsbD_shiftLeft,
      BitVec.getLsbD_setWidth]
    simp [hj]; omega
  · ext j hj
    have h : op.getLsbD (8 + j) = false := BitVec.getLsbD_of_ge _ _ (by omega)
    simp only [nField, BitVec.getElem_extractLsb', BitVec.getLsbD_or, BitVec.getLsbD_shiftLeft,
      BitVec.getLsbD_setWidth, h]
    have h1 : 8 + j < 32 := by omega
    have h2 : j < 32 := by omega
    simp [h1, h2, hj]
  · ext j hj
    have h : op.getLsbD (14 + j) = false := BitVec.getLsbD_of_ge _ _ (by omega)
    have h' : n.getLsbD (14 + j - 8) = false := BitVec.getLsbD_of_ge _ _ (by omega)
    simp only [rsvdField, BitVec.getElem_extractLsb', BitVec.getLsbD_or, BitVec.getLsbD_shiftLeft,
      BitVec.getLsbD_setWidth, h, h']
    simp

/-- The fields make up the word. -/
theorem word_of_fields (w : Word) :
    w.toNat = (rsvdField w).toNat * 2 ^ 14 + (nField w).toNat * 256 + (opField w).toNat := by
  simp only [rsvdField, nField, opField, BitVec.extractLsb'_toNat, Nat.shiftRight_eq_div_pow]
  have := w.isLt
  omega

theorem decodeC0_ok {n : BitVec 6} {i j : Instr} (h : decodeC0 n i = .ok j) : n = 0#6 ∧ j = i := by
  unfold decodeC0 at h
  split at h
  · cases h; exact ⟨‹_›, rfl⟩
  · cases h

theorem decodeCN_ok {n : BitVec 6} {i j : Instr} (h : decodeCN n i = .ok j) : n.toNat ≤ 32 ∧ j = i := by
  unfold decodeCN at h
  split at h
  · cases h; exact ⟨‹_›, rfl⟩
  · cases h

/-- One arm of the opcode map. -/
theorem ite_ok {c P : Prop} [Decidable c] {a b : Except DecodeError Instr} {i : Instr}
    (h : (if c then a else b) = .ok i) (ha : c → a = .ok i → P) (hb : b = .ok i → P) : P := by
  by_cases hc : c
  · rw [if_pos hc] at h; exact ha hc h
  · rw [if_neg hc] at h; exact hb h

/-- What the opcode map answers is a legal command with that opcode and bit count (R72, R71). -/
theorem decodeOp_ok {op : BitVec 8} {n : BitVec 6} {i : Instr} (h : decodeOp op n = .ok i) :
    i.wf = true ∧ n = i.count ∧ op = i.opcode := by
  have c0 : ∀ {j : Instr}, decodeC0 n j = .ok i → j.wf = true → j.count = 0#6 → op = j.opcode →
      i.wf = true ∧ n = i.count ∧ op = i.opcode := by
    intro j h hw hc ho
    obtain ⟨rfl, rfl⟩ := decodeC0_ok h
    exact ⟨hw, hc.symm, ho⟩
  have cn : ∀ {j : Instr}, decodeCN n j = .ok i → j.wf = decide (n.toNat ≤ 32) → j.count = n → op = j.opcode →
      i.wf = true ∧ n = i.count ∧ op = i.opcode := by
    intro j h hw hc ho
    obtain ⟨hn, rfl⟩ := decodeCN_ok h
    exact ⟨hw.trans (decide_eq_true hn), hc.symm, ho⟩
  unfold decodeOp at h
  refine ite_ok h (fun ho h => c0 h rfl rfl ho) fun h => ?_
  refine ite_ok h (fun ho h => c0 h rfl rfl ho) fun h => ?_
  refine ite_ok h (fun ho h => cn h rfl rfl ho) fun h => ?_
  refine ite_ok h (fun ho h => cn h rfl rfl ho) fun h => ?_
  refine ite_ok h (fun ho h => c0 h rfl rfl ho) fun h => ?_
  refine ite_ok h (fun ho h => c0 h rfl rfl ho) fun h => ?_
  refine ite_ok h (fun ho h => c0 h rfl rfl ho) fun h => ?_
  refine ite_ok h (fun ho h => c0 h rfl rfl ho) fun h => ?_
  refine ite_ok h (fun ho h => c0 h rfl rfl ho) fun h => ?_
  refine ite_ok h (fun ho h => c0 h rfl rfl ho) fun h => ?_
  refine ite_ok h (fun ho h => c0 h rfl rfl ho) fun h => ?_
  refine ite_ok h (fun ho h => c0 h rfl rfl ho) fun h => ?_
  refine ite_ok h (fun ho h => c0 h rfl rfl ho) fun h => ?_
  refine ite_ok h (fun ho h => c0 h rfl rfl ho) fun h => ?_
  cases h

/-- The opcode map on a legal command's own opcode and bit count. -/
theorem decodeOp_self {i : Instr} (h : i.wf = true) : decodeOp i.opcode i.count = .ok i := by
  cases i
  case readBits n => exact if_pos (of_decide_eq_true h)
  case writeBits n => exact if_pos (of_decide_eq_true h)
  all_goals rfl

end Sys2Proof
end

