-- ==== Sys2Proof/Laws/Nal.lean ====
section
/-! SUPPORT. What the locator R140 and the SPS scan R143 find, and that the scan's fuel is never used up. -/

namespace Sys2Proof.Machine

/-- The bytes the window has seen, from the two before address `i` on. -/
def windowByte (b : Buffer) (i : Nat) (x2 x1 : Byte) : Nat → Byte
  | 0 => x2
  | 1 => x1
  | n + 2 => b.read (i + n)

/-- 00 00 01 in the window's bytes from number `n` on. -/
def windowHit (b : Buffer) (i : Nat) (x2 x1 : Byte) (n : Nat) : Prop :=
  windowByte b i x2 x1 n = 0#8 ∧ windowByte b i x2 x1 (n + 1) = 0#8 ∧ windowByte b i x2 x1 (n + 2) = 1#8

theorem windowHit_succ (b : Buffer) (i : Nat) (x2 x1 : Byte) (n : Nat) :
    windowHit b i x2 x1 (n + 1) ↔ windowHit b (i + 1) x1 (b.read i) n := by
  unfold windowHit
  rcases n with _ | _ | n
  · simp [windowByte]
  · simp [windowByte]
  · simp [windowByte, Nat.add_assoc, Nat.add_comm 1]

theorem shifted_low (w : Word) (v : Byte) :
    (((w <<< 8) ||| v.setWidth 32).extractLsb' 0 24 = 0x000001#24 ↔
      w.extractLsb' 8 8 = 0#8 ∧ w.extractLsb' 0 8 = 0#8 ∧ v = 1#8) ∧
    ((w <<< 8) ||| v.setWidth 32).extractLsb' 8 8 = w.extractLsb' 0 8 ∧
    ((w <<< 8) ||| v.setWidth 32).extractLsb' 0 8 = v := by
  have e3 : ((w <<< 8) ||| v.setWidth 32).extractLsb' 0 8 = v := by
    ext j hj
    simp [hj]
    intro h; omega
  have e2 : ((w <<< 8) ||| v.setWidth 32).extractLsb' 8 8 = w.extractLsb' 0 8 := by
    ext j hj
    simp
    omega
  have e1 : ((w <<< 8) ||| v.setWidth 32).extractLsb' 16 8 = w.extractLsb' 8 8 := by
    ext j hj
    have : v.getLsbD (16 + j) = false := BitVec.getLsbD_of_ge _ _ (by omega)
    simp [this, show 16 + j - 8 = 8 + j by omega]
    omega
  refine ⟨?_, e2, e3⟩
  generalize hx : (w <<< 8) ||| v.setWidth 32 = x at *
  rw [← e1, ← e2]
  conv_rhs => rw [← e3]
  constructor
  · intro h
    refine ⟨?_, ?_, ?_⟩ <;>
    · apply BitVec.eq_of_toNat_eq
      have := congrArg BitVec.toNat h
      simp only [BitVec.extractLsb'_toNat, BitVec.toNat_ofNat, Nat.shiftRight_eq_div_pow] at this ⊢
      omega
  · rintro ⟨h1, h2, h3⟩
    apply BitVec.eq_of_toNat_eq
    have h1 := congrArg BitVec.toNat h1
    have h2 := congrArg BitVec.toNat h2
    have h3 := congrArg BitVec.toNat h3
    simp only [BitVec.extractLsb'_toNat, BitVec.toNat_ofNat, Nat.shiftRight_eq_div_pow] at *
    omega

/-- All the locator's loop can do: the first hit, or none in the bytes it scans. -/
theorem findStartCodeFrom_cases (fuel : Nat) (b : Buffer) (i : Nat) (w : Word) :
    (∃ n < fuel, findStartCodeFrom b fuel i w = some (i + n + 1) ∧
      windowHit b i (w.extractLsb' 8 8) (w.extractLsb' 0 8) n ∧
      ∀ m < n, ¬ windowHit b i (w.extractLsb' 8 8) (w.extractLsb' 0 8) m) ∨
    (findStartCodeFrom b fuel i w = none ∧
      ∀ m < fuel, ¬ windowHit b i (w.extractLsb' 8 8) (w.extractLsb' 0 8) m) := by
  induction fuel generalizing i w with
  | zero => exact .inr ⟨rfl, by omega⟩
  | succ fuel ih =>
    obtain ⟨e1, e2, e3⟩ := shifted_low w (b.read i)
    have h0 : windowHit b i (w.extractLsb' 8 8) (w.extractLsb' 0 8) 0 ↔
        ((w <<< 8) ||| (b.read i).setWidth 32).extractLsb' 0 24 = 0x000001#24 := by
      rw [e1]; simp [windowHit, windowByte]
    have hs : ∀ m, windowHit b (i + 1) (((w <<< 8) ||| (b.read i).setWidth 32).extractLsb' 8 8)
        (((w <<< 8) ||| (b.read i).setWidth 32).extractLsb' 0 8) m ↔
        windowHit b i (w.extractLsb' 8 8) (w.extractLsb' 0 8) (m + 1) := by
      intro m; rw [e2, e3, windowHit_succ]
    by_cases h : ((w <<< 8) ||| (b.read i).setWidth 32).extractLsb' 0 24 = 0x000001#24
    · refine .inl ⟨0, by omega, ?_, h0.2 h, by omega⟩
      simp only [findStartCodeFrom, h, if_true, Nat.add_zero]
    · have hstep : findStartCodeFrom b (fuel + 1) i w =
          findStartCodeFrom b fuel (i + 1) ((w <<< 8) ||| (b.read i).setWidth 32) := by
        simp only [findStartCodeFrom, h, if_false]
      rw [hstep]
      rcases ih (i + 1) ((w <<< 8) ||| (b.read i).setWidth 32) with ⟨n, hn, e, hit, none⟩ | ⟨e, none⟩
      · refine .inl ⟨n + 1, by omega, by rw [e]; congr 1; omega, (hs n).1 hit, fun m hm => ?_⟩
        rcases m with _ | m
        · exact fun hh => h (h0.1 hh)
        · exact fun hh => none m (by omega) ((hs m).2 hh)
      · refine .inr ⟨e, fun m hm => ?_⟩
        rcases m with _ | m
        · exact fun hh => h (h0.1 hh)
        · exact fun hh => none m (by omega) ((hs m).2 hh)

/-- Nothing before the range takes part in a match: the window starts at all ones (R140, D12). -/
theorem windowHit_start (b : Buffer) (start n : Nat) :
    (windowHit b start 0xFF#8 0xFF#8 n → 2 ≤ n) ∧
    (windowHit b start 0xFF#8 0xFF#8 (n + 2) ↔ StartCodeAt b (start + n)) := by
  constructor
  · rcases n with _ | _ | n
    · simp [windowHit, windowByte]
    · simp [windowHit, windowByte]
    · intro _; omega
  · simp [windowHit, windowByte, StartCodeAt, Nat.add_assoc]

/-- All FindStartCode can do (R140): the first start code that lies wholly in the range, or none. -/
theorem findStartCode_cases (b : Buffer) (start stop : Nat) :
    (∃ j, FirstStartCode b start stop j ∧ findStartCode b start stop = some (j + 3)) ∨
    (NoStartCode b start stop ∧ findStartCode b start stop = none) := by
  have hw : (0xFFFFFFFF#32).extractLsb' 8 8 = 0xFF#8 ∧ (0xFFFFFFFF#32).extractLsb' 0 8 = 0xFF#8 := by decide
  rcases findStartCodeFrom_cases (stop - start) b start 0xFFFFFFFF#32 with ⟨n, hn, e, hit, none⟩ | ⟨e, none⟩ <;>
    rw [hw.1, hw.2] at *
  · obtain ⟨k, rfl⟩ := Nat.exists_eq_add_of_le' ((windowHit_start b start n).1 hit)
    refine .inl ⟨start + k, ⟨by omega, by omega, (windowHit_start b start k).2.1 hit, fun i hi hs hc => ?_⟩, ?_⟩
    · obtain ⟨m, rfl⟩ := Nat.exists_eq_add_of_le hs
      exact none (m + 2) (by omega) ((windowHit_start b start m).2.2 hc)
    · rw [findStartCode, e]; congr 1
  · refine .inr ⟨fun j _ hs hj hc => ?_, e⟩
    obtain ⟨m, rfl⟩ := Nat.exists_eq_add_of_le hs
    exact none (m + 2) (by omega) ((windowHit_start b start m).2.2 hc)

/-- The first start code is one position. -/
theorem FirstStartCode.unique {b : Buffer} {start stop i j : Nat} (hi : FirstStartCode b start stop i)
    (hj : FirstStartCode b start stop j) : i = j := by
  rcases Nat.lt_trichotomy i j with h | h | h
  · exact absurd hi.2.2.1 (hj.2.2.2 i h hi.1)
  · exact h
  · exact absurd hj.2.2.1 (hi.2.2.2 j h hj.1)

theorem FirstStartCode.not_none {b : Buffer} {start stop j : Nat} (hj : FirstStartCode b start stop j) :
    ¬ NoStartCode b start stop := fun h => h j (by have := hj.2.1; omega) hj.1 hj.2.1 hj.2.2.1

theorem findStartCode_some {b : Buffer} {start stop j : Nat} (h : FirstStartCode b start stop j) :
    findStartCode b start stop = some (j + 3) := by
  rcases findStartCode_cases b start stop with ⟨i, hi, e⟩ | ⟨hn, _⟩
  · rw [e, hi.unique h]
  · exact absurd hn h.not_none

theorem findStartCode_none {b : Buffer} {start stop : Nat} (h : NoStartCode b start stop) :
    findStartCode b start stop = none := by
  rcases findStartCode_cases b start stop with ⟨i, hi, _⟩ | ⟨_, e⟩
  · exact absurd h hi.not_none
  · exact e

/-- nal_unit_type is the header byte mod 32 (R147). -/
theorem nalUnitType_eq (h : Byte) : nalUnitType h = h.toNat % 32 := by
  have := Nat.and_two_pow_sub_one_eq_mod h.toNat 5
  simpa [nalUnitType] using this

/-- The SPS scan's loop: enough fuel is enough (R143: pos grows by at least 4 on each pass). -/
theorem findSpsFrom_fuel (b : Buffer) (stop : Nat) (f g : Nat) (pos : Nat) (hf : stop - pos < f) (hg : stop - pos < g) :
    findSpsFrom b stop f pos = findSpsFrom b stop g pos := by
  induction f generalizing g pos with
  | zero => omega
  | succ f ih =>
    cases g with
    | zero => omega
    | succ g =>
      simp only [findSpsFrom]
      rcases findStartCode_cases b pos stop with ⟨j, hj, e⟩ | ⟨_, e⟩
      · rw [e]
        dsimp only
        obtain ⟨h1, h2, _⟩ := hj
        split
        · rfl
        · split
          · rfl
          · exact ih g _ (by omega) (by omega)
      · rw [e]

/-- One pass of the SPS scan (R143). -/
theorem findSps_eq (b : Buffer) (pos stop : Nat) :
    findSps b pos stop =
      match findStartCode b pos stop with
      | none => .error .notFound
      | some p =>
        if p ≥ stop then .error .notFound
        else if nalUnitType (b.read p) = spsType then .ok p
        else findSps b (p + 1) stop := by
  rw [findSps, findSpsFrom]
  rcases findStartCode_cases b pos stop with ⟨j, hj, e⟩ | ⟨_, e⟩
  · rw [e]
    dsimp only
    obtain ⟨h1, h2, _⟩ := hj
    split
    · rfl
    · split
      · rfl
      · exact findSpsFrom_fuel b stop _ _ _ (by omega) (by omega)
  · rw [e]

/-- FindSPS finds what R143's scan ends at. -/
theorem findSps_ok {b : Buffer} {stop pos p : Nat} (h : FirstSps b stop pos p) : findSps b pos stop = .ok p := by
  induction h with
  | here hj hs ht =>
    rw [findSps_eq, findStartCode_some hj]
    simp only [nalUnitType_eq, ht, spsType, if_true]
    rw [if_neg (by omega)]
  | skip hj hs ht _ ih =>
    rw [findSps_eq, findStartCode_some hj]
    simp only [nalUnitType_eq, ht, spsType, if_false]
    rw [if_neg (by omega)]
    exact ih

/-- All FindSPS can do. -/
theorem findSps_cases (b : Buffer) (stop pos : Nat) :
    (∃ p, FirstSps b stop pos p ∧ findSps b pos stop = .ok p) ∨
    ((¬ ∃ p, FirstSps b stop pos p) ∧ findSps b pos stop = .error .notFound) := by
  induction hn : stop - pos using Nat.strong_induction_on generalizing pos with
  | _ n ih =>
    have hnone : findSps b pos stop = .error .notFound → ¬ ∃ p, FirstSps b stop pos p := by
      rintro e ⟨p, hp⟩
      rw [findSps_ok hp] at e
      cases e
    have herr : findSps b pos stop = .error .notFound → _ := fun e =>
      (Or.inr ⟨hnone e, e⟩ : (∃ p, FirstSps b stop pos p ∧ findSps b pos stop = .ok p) ∨
        ((¬ ∃ p, FirstSps b stop pos p) ∧ findSps b pos stop = .error .notFound))
    rcases findStartCode_cases b pos stop with ⟨j, hj, e⟩ | ⟨_, e⟩
    · by_cases hs : j + 3 < stop
      · by_cases ht : (b.read (j + 3)).toNat % 32 = 7
        · exact .inl ⟨_, .here hj hs ht, findSps_ok (.here hj hs ht)⟩
        · have hj1 := hj.1
          rcases ih (stop - (j + 4)) (by omega) (j + 4) rfl with ⟨p, hp, _⟩ | ⟨_, e2⟩
          · exact .inl ⟨p, .skip hj hs ht hp, findSps_ok (.skip hj hs ht hp)⟩
          · apply herr
            rw [findSps_eq, e]
            simp only [nalUnitType_eq, ht, spsType, if_false]
            rw [if_neg (by omega)]
            exact e2
      · apply herr
        rw [findSps_eq, e]
        simp only
        rw [if_pos (by omega)]
    · apply herr
      rw [findSps_eq, e]

/-- An SPS header byte lies inside the range. -/
theorem FirstSps.bounds {b : Buffer} {stop pos p : Nat} (h : FirstSps b stop pos p) : pos + 3 ≤ p ∧ p < stop := by
  induction h with
  | here hj hs _ => have := hj.1; omega
  | skip hj _ _ _ ih => have := hj.1; omega

end Sys2Proof.Machine
end

