-- ==== Sys2Proof/Laws/PerInstr.lean ====
section
/-! SUPPORT. The family EncodingFields: a command's word carries its opcode, its bit count and RSVD = 0
(30_encoding.md R70, R72), one lemma per constructor. -/

namespace Sys2Proof.Laws.EncodingFields

/-- The word of `i` carries its opcode in OP, its bit count in N, and 0 in RSVD. -/
def Statement (i : Instr) : Prop :=
  opField (encode i) = i.opcode ∧ nField (encode i) = i.count ∧ rsvdField (encode i) = 0#18

theorem readBit : Statement .readBit := fields_of_word _ _
theorem writeBit : Statement .writeBit := fields_of_word _ _
theorem readUe : Statement .readUe := fields_of_word _ _
theorem writeUe : Statement .writeUe := fields_of_word _ _
theorem readSe : Statement .readSe := fields_of_word _ _
theorem writeSe : Statement .writeSe := fields_of_word _ _
theorem findStartCode : Statement .findStartCode := fields_of_word _ _
theorem findSps : Statement .findSps := fields_of_word _ _
theorem inspectProfile : Statement .inspectProfile := fields_of_word _ _
theorem fixCrop : Statement .fixCrop := fields_of_word _ _
theorem fillerNal : Statement .fillerNal := fields_of_word _ _
theorem pad : Statement .pad := fields_of_word _ _
theorem readBits (n : BitVec 6) : Statement (.readBits n) := fields_of_word _ _
theorem writeBits (n : BitVec 6) : Statement (.writeBits n) := fields_of_word _ _

end Sys2Proof.Laws.EncodingFields
end

