-- ==== Sys2Proof/Laws/Turns.lean ====
section
/-! SUPPORT. What a poll's turn does (30_encoding.md R77), and that no command reads the agenda or what the host has
read. -/

namespace Sys2Proof.Machine

/-! ## STATUS reads and polls -/

/-- A read of STATUS is allowed at any time and only records its value (R250, R56). -/
theorem hostAccess_statusRead (s : State) : hostAccess statusRead s = .next (s.recordRead s.status) := by
  have h : slotAt Reg.status.offset = some (.reg .status) := by decide
  simp [hostAccess, statusRead, HostAccess.check, HostAccess.isStatusRead, HostAccess.effect, h, State.readSlot,
    State.readReg]

/-- A poll of an idle block is one read. -/
theorem pollTurn_idle {s : State} (n : Nat) (h : s.busy = false) :
    pollTurn n s = .next (s.recordRead s.status) := by
  simp only [pollTurn, h, Bool.false_eq_true, if_false, hostAccess_statusRead]

/-- A poll of a pending command with reads still to come: one read, and the poll goes on. -/
theorem pollTurn_succ {s : State} (n : Nat) (h : s.busy = true) :
    pollTurn (n + 1) s = .next ({ s with agenda := .poll n :: s.agenda }.recordRead s.status) := by
  simp only [pollTurn, h, if_true, hostAccess_statusRead]

/-- A poll of a pending command with none to come: the block moves, and the poll goes on. -/
theorem pollTurn_zero {s : State} (h : s.busy = true) :
    pollTurn 0 s = blockTurn { s with agenda := .poll 0 :: s.agenda } := by
  simp only [pollTurn, h, if_true]

/-! ## The agenda and the reads play no part in a command -/

/-- The state with other turns to come and other reads behind it. -/
def State.withTurns (s : State) (turns : List Turn) (reads : List Word) : State :=
  { s with agenda := turns, reads := reads }

@[simp] theorem State.withTurns_agenda (s : State) (ts : List Turn) (rs : List Word) :
    (s.withTurns ts rs).agenda = ts := rfl
@[simp] theorem State.withTurns_reads (s : State) (ts : List Turn) (rs : List Word) :
    (s.withTurns ts rs).reads = rs := rfl
@[simp] theorem State.withTurns_status (s : State) (ts : List Turn) (rs : List Word) :
    (s.withTurns ts rs).status = s.status := rfl
@[simp] theorem State.withTurns_buf (s : State) (ts : List Turn) (rs : List Word) :
    (s.withTurns ts rs).buf = s.buf := rfl

/-- `r` and `r'` answer the same, but that the state of `r'` has the turns `ts` and the reads `rs`, where that of `r` has
those of `s`. -/
def SameButTurns (s : State) (ts : List Turn) (rs : List Word) (r r' : Except Raise State) : Prop :=
  (∃ t, r = .ok t ∧ r' = .ok (t.withTurns ts rs) ∧ t.agenda = s.agenda ∧ t.reads = s.reads) ∨
  ∃ e, r = .error e ∧ r' = .error e

theorem SameButTurns.error {s : State} {ts : List Turn} {rs : List Word} (e : Raise) :
    SameButTurns s ts rs (.error e) (.error e) := .inr ⟨e, rfl, rfl⟩

theorem SameButTurns.bind {s : State} {ts : List Turn} {rs : List Word} {α : Type} {x : Except Raise α}
    {f f' : α → Except Raise State} (h : ∀ a, SameButTurns s ts rs (f a) (f' a)) :
    SameButTurns s ts rs (x >>= f) (x >>= f') := by
  cases x with
  | error e => exact .error e
  | ok a => exact h a

theorem SameButTurns.ite {s : State} {ts : List Turn} {rs : List Word} {p : Prop} [Decidable p]
    {a a' b b' : Except Raise State} (ha : SameButTurns s ts rs a a') (hb : SameButTurns s ts rs b b') :
    SameButTurns s ts rs (if p then a else b) (if p then a' else b') := by
  by_cases h : p
  · rwa [if_pos h, if_pos h]
  · rwa [if_neg h, if_neg h]

theorem SameButTurns.finish {s : State} {ts : List Turn} {rs : List Word} {r r' : Except Raise State}
    (h : SameButTurns s ts rs r r') :
    ∃ t, Sys2Proof.Machine.finish s r = .next t ∧
      Sys2Proof.Machine.finish (s.withTurns ts rs) r' = .next (t.withTurns ts rs) ∧
      t.agenda = s.agenda ∧ t.reads = s.reads := by
  rcases h with ⟨t, rfl, rfl, h1, h2⟩ | ⟨e, rfl, rfl⟩
  · exact ⟨t, rfl, rfl, h1, h2⟩
  · exact ⟨s.fail e, rfl, rfl, rfl, rfl⟩

/-- A command answers the same next state whatever turns are still to come and whatever has been read, and it changes
neither. -/
theorem exec_withTurns (i : Instr) (s : State) (ts : List Turn) (rs : List Word) :
    ∃ t, exec i s = .next t ∧ exec i (s.withTurns ts rs) = .next (t.withTurns ts rs) ∧
      t.agenda = s.agenda ∧ t.reads = s.reads := by
  have ok : ∀ t : State, t.agenda = s.agenda → t.reads = s.reads →
      SameButTurns s ts rs (.ok t) (.ok (t.withTurns ts rs)) := fun t h1 h2 => .inl ⟨t, rfl, rfl, h1, h2⟩
  cases i with
  | readBit => exact SameButTurns.finish (.bind fun _ => ok _ rfl rfl)
  | writeBit => exact SameButTurns.finish (.bind fun _ => ok _ rfl rfl)
  | readBits n => exact SameButTurns.finish (.ite (.bind fun _ => ok _ rfl rfl) (.error _))
  | writeBits n => exact SameButTurns.finish (.ite (.bind fun _ => ok _ rfl rfl) (.error _))
  | readUe => exact SameButTurns.finish (.bind fun _ => ok _ rfl rfl)
  | writeUe => exact SameButTurns.finish (.bind fun _ => ok _ rfl rfl)
  | readSe => exact SameButTurns.finish (.bind fun _ => ok _ rfl rfl)
  | writeSe => exact SameButTurns.finish (.bind fun _ => ok _ rfl rfl)
  | findStartCode =>
    refine SameButTurns.finish (.bind fun _ => ?_)
    show SameButTurns s ts rs (match findStartCode s.buf (u32 s.arg0) (u32 s.arg1) with | none => _ | some p => _)
      (match findStartCode s.buf (u32 s.arg0) (u32 s.arg1) with | none => _ | some p => _)
    cases findStartCode s.buf (u32 s.arg0) (u32 s.arg1) with
    | none => exact .error _
    | some p => exact ok _ rfl rfl
  | findSps => exact SameButTurns.finish (.bind fun _ => .bind fun _ => ok _ rfl rfl)
  | inspectProfile => exact SameButTurns.finish (.bind fun _ => .bind fun _ => ok _ rfl rfl)
  | fixCrop => exact SameButTurns.finish (.ite (.error _) (.bind fun _ => .bind fun _ => ok _ rfl rfl))
  | fillerNal => exact SameButTurns.finish (.ite (.error _) (.bind fun _ => ok _ rfl rfl))
  | pad => exact SameButTurns.finish (.ite (ok _ rfl rfl) (.bind fun _ => ok _ rfl rfl))

end Sys2Proof.Machine
end

