-- ==== Sys2Proof/Tests/Slice0.lean ====
section
/-! SUPPORT. The model's own tests: each checks one word, one access or one step, with its expected result from the
spec; then, for every obligation with hypotheses, a state and operands that meet them (`witness_…`). -/

namespace Sys2Proof.Tests

open Sys2Proof Sys2Proof.Machine

/-! ## Builders -/

/-- BUF of `size` bytes with `bs` written from address 0. -/
def bufOf (size : Nat) (bs : List Nat) : Buffer :=
  { size := BitVec.ofNat 32 size, epoch := 0, cells := (bs.zipIdx).map fun p => (p.2, BitVec.ofNat 8 p.1) }

/-- An idle state with that BUF, registers at reset but for the ARG registers and the cursor. -/
def st (size : Nat) (bs : List Nat) (args : Word × Word × Word × Word) (cur : Word × Word × Word) : State :=
  { State.powerOn { bufBytes := size } with
    buf := bufOf size bs
    arg0 := args.1, arg1 := args.2.1, arg2 := args.2.2.1, arg3 := args.2.2.2
    curBase := cur.1, curPos := cur.2.1, curLimit := cur.2.2 }

/-- A cursor command's start state: `bs` fills BUF. -/
def cs (bs : List Nat) (a0 : Word) (cur : Word × Word × Word) : State := st bs.length bs (a0, 0, 0, 0) cur

/-- A byte command's start state: `bs` fills BUF. -/
def bs (bytes : List Nat) (args : Word × Word × Word × Word) : State := st bytes.length bytes args (0, 0, 0)

/-- The next state, when there is one. -/
def nextOf : Host.Outcome State Fault Refusal → Option State
  | .next s => some s
  | .fault _ => none
  | .refused _ => none

/-- STATUS, RES0, RES1 and CUR_POS after a step. -/
def regsOf (o : Host.Outcome State Fault Refusal) : Option (Nat × Nat × Nat × Nat) :=
  (nextOf o).map fun t => (t.status.toNat, t.res0.toNat, t.res1.toNat, t.curPos.toNat)

/-- The written bytes of BUF after a step, in address order. -/
def cellsOf (o : Host.Outcome State Fault Refusal) : Option (List Nat) :=
  (nextOf o).map fun t => t.buf.cells.map fun c => c.2.toNat

/-- Why a step stopped. -/
def stopOf : Host.Outcome State Fault Refusal → Option (Fault ⊕ Refusal)
  | .next _ => none
  | .fault f => some (.inl f)
  | .refused r => some (.inr r)

/-! ## The bit count's check (R71) -/

theorem test_wf_readBits_33 : (Instr.readBits 33#6).wf = false := by decide
theorem test_wf_writeBits_33 : (Instr.writeBits 33#6).wf = false := by decide
theorem test_wf_readBits_32 : (Instr.readBits 32#6).wf = true := by decide

/-! ## Words of R72, bit by bit: RSVD ++ N ++ OP -/

theorem test_word_readBit : decode 0b000000000000000000_000000_00000001#32 = .ok .readBit := by decide
theorem test_word_writeBit : decode 0b000000000000000000_000000_00000010#32 = .ok .writeBit := by decide
theorem test_word_readBits : decode 0b000000000000000000_001000_00000011#32 = .ok (.readBits 8#6) := by decide
theorem test_word_readBits_max : decode 0b000000000000000000_100000_00000011#32 = .ok (.readBits 32#6) := by decide
theorem test_word_writeBits : decode 0b000000000000000000_000011_00000100#32 = .ok (.writeBits 3#6) := by decide
theorem test_word_readUe : decode 0b000000000000000000_000000_00000101#32 = .ok .readUe := by decide
theorem test_word_writeUe : decode 0b000000000000000000_000000_00000110#32 = .ok .writeUe := by decide
theorem test_word_readSe : decode 0b000000000000000000_000000_00000111#32 = .ok .readSe := by decide
theorem test_word_writeSe : decode 0b000000000000000000_000000_00001000#32 = .ok .writeSe := by decide
theorem test_word_findStartCode : decode 0b000000000000000000_000000_00010000#32 = .ok .findStartCode := by decide
theorem test_word_findSps : decode 0b000000000000000000_000000_00010001#32 = .ok .findSps := by decide
theorem test_word_inspectProfile : decode 0b000000000000000000_000000_00010010#32 = .ok .inspectProfile := by decide
theorem test_word_fixCrop : decode 0b000000000000000000_000000_00011000#32 = .ok .fixCrop := by decide
theorem test_word_fillerNal : decode 0b000000000000000000_000000_00100000#32 = .ok .fillerNal := by decide
theorem test_word_pad : decode 0b000000000000000000_000000_00100001#32 = .ok .pad := by decide
/-- R73: a reserved opcode, a set RSVD bit, a stray N and N = 33. -/
theorem test_word_reserved : decode 0x00000022#32 = .error (.reservedOpcode 0x22#8) ∧
    decode 0x00004001#32 = .error (.reservedBits 1#18) ∧ decode 0x00000101#32 = .error (.strayCount 1#6) ∧
    decode 0x00002103#32 = .error (.countTooLarge 33#6) := by decide
theorem test_table_word : decodeTableWord 32 0x803 = some (.readBits 8#6) ∧ decodeTableWord 32 0 = none := by decide

/-! ## One step of each command; expected results from 95_test_vectors.md L2 and the rules' examples -/

/-- V-C1. -/
theorem test_readBit : regsOf (exec .readBit (cs [0x80] 0 (0, 0, 1))) = some (0, 1, 1, 1) := by decide
/-- V-C2. -/
theorem test_readBit_second : regsOf (exec .readBit (cs [0x80] 0 (0, 1, 1))) = some (0, 0, 1, 2) := by decide
/-- R105's example. -/
theorem test_writeBit : cellsOf (exec .writeBit (cs [0x00] 1 (0, 3, 1))) = some [0x10] := by decide
/-- R105's corner case: bit 0 alone counts. -/
theorem test_writeBit_low_bit : cellsOf (exec .writeBit (cs [0xFF] 0xFFFFFFFE (0, 0, 1))) = some [0x7F] := by decide
/-- R106's example. -/
theorem test_readBits : regsOf (exec (.readBits 8#6) (cs [0x42, 0xC0] 0 (0, 0, 2))) = some (0, 0x42, 8, 8) := by decide
/-- R106's corner case: N = 0 out of bounds. -/
theorem test_readBits_zero : regsOf (exec (.readBits 0#6) (cs [0x42] 0 (9, 99, 0))) = some (0, 0, 0, 99) := by decide
/-- R107's example. -/
theorem test_writeBits : cellsOf (exec (.writeBits 3#6) (cs [0x00] 5 (0, 0, 1))) = some [0xA0] := by decide
/-- R57: a field that runs off the window writes nothing. -/
theorem test_writeBits_off_end : cellsOf (exec (.writeBits 3#6) (cs [0x00] 5 (0, 6, 1))) = some [0x00] := by decide
/-- V-E1. -/
theorem test_readUe : regsOf (exec .readUe (cs [0x38] 0 (0, 0, 1))) = some (0, 6, 5, 5) := by decide
/-- V-E15: 32 leading zeros. -/
theorem test_readUe_32_zeros :
    regsOf (exec .readUe (cs [0, 0, 0, 0, 0x80, 0, 0, 0] 0 (0, 0, 8))) = some (0x52, 0, 0, 0) := by decide
/-- V-E2. -/
theorem test_writeUe : cellsOf (exec .writeUe (cs [0x00] 5 (0, 0, 1))) = some [0x30] := by decide
/-- V-E5. -/
theorem test_writeUe_max : cellsOf (exec .writeUe (cs [0, 0, 0, 0, 0, 0, 0, 0] 0xFFFFFFFE (0, 0, 8))) =
    some [0x00, 0x00, 0x00, 0x01, 0xFF, 0xFF, 0xFF, 0xFE] := by decide
/-- V-E3. -/
theorem test_readSe : regsOf (exec .readSe (cs [0x28] 0 (0, 0, 1))) = some (0, 0xFFFFFFFE, 5, 5) := by decide
/-- V-E20: C1's sign. -/
theorem test_readSe_one : regsOf (exec .readSe (cs [0x40] 0 (0, 0, 1))) = some (0, 1, 3, 3) := by decide
/-- V-E4. -/
theorem test_writeSe : cellsOf (exec .writeSe (cs [0x00] 0xFFFFFFFE (0, 0, 1))) = some [0x28] := by decide
/-- V-E12. -/
theorem test_writeSe_range : regsOf (exec .writeSe (cs [0, 0, 0, 0] 0x80000000 (0, 0, 4))) = some (0x72, 0, 0, 0) := by
  decide
/-- S3. -/
theorem test_findStartCode :
    regsOf (exec .findStartCode (bs [0x01, 0x02, 0x00, 0x00, 0x01, 0x09, 0xAA] (0, 7, 0, 0))) = some (0, 5, 0, 0) := by
  decide
/-- V-N20. -/
theorem test_findStartCode_zero_run :
    regsOf (exec .findStartCode (bs [0, 0, 0, 0, 1] (0, 5, 0, 0))) = some (0, 5, 0, 0) := by decide
/-- V-N22. -/
theorem test_findSps : regsOf (exec .findSps (bs [0, 0, 1, 0, 0, 0, 1, 0x67] (0, 8, 0, 0))) = some (0, 7, 0x67, 0) := by
  decide
/-- V-N21. -/
theorem test_findSps_resumes_after_type : regsOf (exec .findSps (bs [0, 0, 1, 0, 0, 1, 0x67] (0, 7, 0, 0))) =
    some (0x12, 0, 0, 0) := by decide
/-- V-N24. -/
theorem test_inspectProfile : regsOf (exec .inspectProfile (bs [0, 0, 1, 0x67, 0x64, 0, 0x28] (0, 7, 0, 0))) =
    some (0, 100, 40, 0) := by decide
/-- R146's corner case: end = p + 3. -/
theorem test_inspectProfile_short : regsOf (exec .inspectProfile (bs [0, 0, 1, 0x67, 0x64, 0, 0x28] (0, 6, 0, 0))) =
    some (0x52, 0, 0, 0) := by decide

/-- The bytes of V-SPS-1. -/
def sps1 : List Nat := [0x00, 0x00, 0x00, 0x01, 0x67, 0x42, 0xC0, 0x1E, 0xDA, 0x1C, 0xF9, 0x00, 0x00, 0x00, 0x00, 0x00]

/-- V-SPS-1. -/
theorem test_fixCrop : cellsOf (exec .fixCrop (bs sps1 (0, 16, 100, 100))) =
    some [0x00, 0x00, 0x00, 0x01, 0x67, 0x42, 0xC0, 0x1E, 0xDA, 0x1C, 0xFE, 0x79, 0xD0, 0x00, 0x00, 0x00] := by decide
/-- V-SPS-12. -/
theorem test_fixCrop_odd : regsOf (exec .fixCrop (bs sps1 (0, 16, 101, 97))) = some (0, 13, 62, 0) := by decide
/-- V-F3. -/
theorem test_fillerNal : cellsOf (exec .fillerNal (st 32 [] (0, 7, 0, 0) (0, 0, 0))) =
    some [0x00, 0x00, 0x00, 0x01, 0x0C, 0xFF, 0x80] := by decide
/-- V-F7. -/
theorem test_fillerNal_size_first : regsOf (exec .fillerNal (st 32 [] (28, 5, 0, 0) (0, 0, 0))) = some (0x42, 0, 0, 0) := by
  decide
/-- V-F9. -/
theorem test_pad : cellsOf (exec .pad (st 32 [] (0, 21, 0, 0) (0, 0, 0))) =
    some [0x00, 0x00, 0x00, 0x01, 0x0C, 0xFF, 0xFF, 0xFF, 0xFF, 0xFF, 0x80] := by decide
/-- V-F13. -/
theorem test_pad_multiple : regsOf (exec .pad (st 32 [] (0xFFFFFFF0, 8, 0, 0) (0, 0, 0))) = some (0, 0, 0, 0) := by decide

/-! ## Turns: the host's accesses, reset, the block -/

/-- An idle state of the vector buffer's kind with turns to come. -/
def idle (turns : List Turn) : State := { cs [0x38, 0x00] 0 (0, 0, 2) with agenda := turns }

/-- The same with a command pending. -/
def busy (w : Word) (turns : List Turn) : State := { idle turns with cmd := w, status := 1#32 }

/-- R33: a CMD write stores the word and sets BUSY. -/
theorem test_cmd_write : (nextOf (step (idle [.host (.writeReg 0x00 4 0x05)]))).map (fun t => (t.cmd, t.status)) =
    some (0x05#32, 0x01#32) := by decide
/-- R62: the block's turn runs the word in CMD. -/
theorem test_block_turn : regsOf (step (busy 0x05 [.block])) = some (0, 6, 5, 5) := by decide
/-- R74. -/
theorem test_illegal_word : regsOf (step (busy 0x00 [.block])) = some (0x62, 0, 0, 0) := by decide
/-- R250. -/
theorem test_hazard : stopOf (step (busy 0x05 [.host (.readReg 0x18 4)])) = some (.inl .hostHazard) := by decide
/-- R251. -/
theorem test_refused : stopOf (step (idle [.host (.readReg 0x40 4)])) = some (.inr (.registerAccess 0x40 4)) := by decide
/-- R251: BUF is one byte an access. -/
theorem test_buf_width : stopOf (step (idle [.host (.readBuf 0 4)])) = some (.inr (.bufferAccess 0 4)) := by decide
/-- R21: BUF_SIZE reads BUF_BYTES and ignores writes. -/
theorem test_buf_size : (nextOf (step (idle [.host (.readReg 0x2C 4)]))).map (fun t => t.reads) = some [2#32] := by decide
/-- R242: a reset cancels the pending command and leaves BUF. -/
theorem test_reset : (nextOf (step (busy 0x05 [.reset]))).map (fun t => (t.cmd, t.status, t.curLimit, t.buf)) =
    some (0#32, 0#32, 0#32, bufOf 2 [0x38, 0x00]) := by decide
/-- A word placed for the next step runs, on reset and with turns still to come. -/
theorem test_withFetchWord : regsOf (step (State.reset.withFetchWord 32 0x01)) = some (0x52, 0, 0, 0) ∧
    regsOf (step ((idle [.reset]).withFetchWord 32 0x05)) = some (0, 6, 5, 5) := by decide
/-- P1's first two lines: cursor, WRITE_UE 5. -/
theorem test_program_expands : programTurns (fun k => k) [.cursor 0 0 4, .run .writeUe [5]] =
    [.host (.writeReg 0x20 4 0), .host (.writeReg 0x24 4 0), .host (.writeReg 0x28 4 4),
     .host (.writeReg 0x08 4 5), .host (.writeReg 0x00 4 6), .poll 5] := by decide
/-- R77: a poll of an idle block is one read, whatever its number. -/
theorem test_poll_idle : (nextOf (step (idle [.poll 3]))).map (fun t => (t.reads, t.agenda)) = some ([0#32], []) := by
  decide
/-- R77, R255: a poll of a pending command goes on after a busy read, and the block moves within it. -/
theorem test_poll_busy :
    (nextOf (step (busy 0x05 [.poll 3]))).map (fun t => (t.reads, t.agenda)) = some ([1#32], [.poll 2]) ∧
    (nextOf (step (busy 0x05 [.poll 0]))).map (fun t => (t.status, t.res0, t.reads, t.agenda)) =
      some (0#32, 6#32, [], [.poll 0]) := by decide

/-! ## Witnesses: the hypotheses of each obligation are met -/

theorem witness_ResetGivesEveryRegisterItsResetValue :
    Config.Legal { bufBytes := 1 } ∧ Config.Legal { bufBytes := 2 ^ 28 } ∧
    (busy 0x05 [.reset]).agenda = .reset :: [] ∧ (busy 0x05 [.powerOn, .block]).agenda = .powerOn :: [.block] := by decide

theorem witness_ResetCancelsThePendingCommand :
    busyBit (busy 0x05 [.reset]).status = true ∧ (busy 0x05 [.reset]).agenda = [.reset] := by decide

theorem witness_PowerOnMakesEveryByteOfBufFree :
    (∃ t, step (busy 0x05 [.powerOn]) = .next t) ∧ (busy 0x05 [.powerOn]).agenda = .powerOn :: [] ∧
    (∃ t, step (busy 0x05 [.reset]) = .next t) ∧ (busy 0x05 [.reset]).agenda = .reset :: [] :=
  ⟨⟨_, rfl⟩, rfl, ⟨_, rfl⟩, rfl⟩

theorem witness_CursorCommandsStraightAfterPowerOn :
    Config.Legal { bufBytes := 1 } ∧ (Instr.readBits 1#6).wf = true ∧ (Instr.readBits 1#6).usesCursor = true ∧
    Instr.readBits 1#6 ≠ .readBits 0#6 ∧ Instr.readBits 1#6 ≠ .writeBits 0#6 := by decide

theorem witness_CmdWriteStartsTheCommand :
    (idle [.host (.writeReg 0x00 4 0x05), .block]).agenda = .host (.writeReg 0x00 4 0x05) :: [.block] ∧
    busyBit (idle []).status = false ∧ decode 0x05#32 = .ok .readUe ∧
    decode 0x00#32 = .error (.reservedOpcode 0#8) ∧
    (busy 0x05 [.host (.writeReg 0x00 4 0x05)]).agenda = .host (.writeReg 0x00 4 0x05) :: [] ∧
    busyBit (busy 0x05 []).status = true := by decide

theorem witness_HostReadsReturnTheRegister :
    (idle [.host (.readReg 0x3C 4)]).agenda = .host (.readReg 0x3C 4) :: [] ∧ busyBit (idle []).status = false ∧
    (busy 0x05 [.host (.readReg 0x04 4)]).agenda = .host (.readReg 0x04 4) :: [] ∧
    ((0x3C, 0#32) : Nat × Word) ∈ [(0x00, (idle []).cmd), (0x2C, (idle []).buf.size), (0x38, 0#32), (0x3C, 0#32)] := by
  decide

theorem witness_HostWritesStoreOrAreIgnored :
    (idle [.host (.writeReg 0x08 4 7)]).agenda = .host (.writeReg 0x08 4 7) :: [] ∧
    (idle [.host (.writeReg 0x3C 4 7)]).agenda = .host (.writeReg 0x3C 4 7) :: [] ∧
    (0x3C : Nat) ∈ [0x04, 0x18, 0x1C, 0x2C, 0x30, 0x34, 0x38, 0x3C] ∧ busyBit (idle []).status = false := by decide

theorem witness_HostBufAccessesReadAndWriteOneByte :
    busyBit (idle []).status = false ∧ 1 < (idle []).buf.size.toNat ∧
    (idle [.host (.writeBuf 1 1 9)]).agenda = .host (.writeBuf 1 1 9) :: [] ∧
    (idle [.host (.readBuf 1 1)]).agenda = .host (.readBuf 1 1) :: [] := by decide

theorem witness_HostAccessWhileBusyIsAHazard :
    busyBit (busy 0x05 []).status = true ∧ 0x3C < 0x40 ∧ 0x3C % 4 = 0 ∧ 0x3C ≠ 0x04 ∧
    1 < (busy 0x05 []).buf.size.toNat ∧
    (busy 0x05 [.host (.readReg 0x3C 4)]).agenda = .host (.readReg 0x3C 4) :: [] ∧
    (busy 0x05 [.host (.writeReg 0x04 4 0)]).agenda = .host (.writeReg 0x04 4 0) :: [] ∧
    (busy 0x05 [.host (.readBuf 1 1)]).agenda = .host (.readBuf 1 1) :: [] ∧
    (busy 0x05 [.host (.writeBuf 1 1 0)]).agenda = .host (.writeBuf 1 1 0) :: [] ∧
    (busy 0x05 [.host (.readReg 0x04 4)]).agenda = .host (.readReg 0x04 4) :: [] := by decide

theorem witness_AccessesOutsideTheInterfaceAreRefused :
    0x40 ≤ 0x40 ∧ (0x3E % 4 ≠ 0) ∧ (2 ≠ 4) ∧ (idle []).buf.size.toNat ≤ 2 ∧
    (idle [.host (.readReg 0x40 4)]).agenda = .host (.readReg 0x40 4) :: [] ∧
    (idle [.host (.writeReg 0x3E 4 0)]).agenda = .host (.writeReg 0x3E 4 0) :: [] ∧
    (idle [.host (.readBuf 2 1)]).agenda = .host (.readBuf 2 1) :: [] ∧
    (busy 0x05 [.host (.writeBuf 0 2 0)]).agenda = .host (.writeBuf 0 2 0) :: [] := by decide

/-- HOST_MAP has no body, so no address is known to be placed; one of the three hypotheses holds of every address. -/
theorem witness_MappedAccessesDoWhatTheirPlaceDoes (h : Nat) :
    (∃ off, Config.hostMap h = some (.reg off)) ∨ (∃ a, Config.hostMap h = some (.buf a)) ∨ Config.hostMap h = none := by
  cases Config.hostMap h with
  | none => exact .inr (.inr rfl)
  | some p =>
    cases p with
    | reg off => exact .inl ⟨off, rfl⟩
    | buf a => exact .inr (.inl ⟨a, rfl⟩)

theorem witness_StepRunsTheDecodedCommand :
    busyBit (busy 0x05 [.block]).status = true ∧ decode (busy 0x05 [.block]).cmd = .ok .readUe ∧
    (busy 0x05 [.block]).agenda = .block :: [] ∧ (busy 0x05 []).agenda = [] ∧
    busyBit (idle [.block]).status = false ∧ (idle [.block]).agenda = .block :: [] ∧ (idle []).agenda = [] := by decide

theorem witness_IllegalWordChangesStatusOnly :
    busyBit (busy 0x22 [.block]).status = true ∧ decode (busy 0x22 [.block]).cmd = .error (.reservedOpcode 0x22#8) ∧
    (busy 0x22 [.block]).agenda = .block :: [] ∧ (busy 0x22 []).agenda = [] := by decide

theorem witness_PollReadsStatusUntilIdle :
    (idle [.poll 3]).agenda = .poll 3 :: [] ∧ busyBit (idle [.poll 3]).status = false ∧
    (busy 0x05 [.poll 0, .block]).agenda = .poll 0 :: [.block] ∧ busyBit (busy 0x05 [.poll 0, .block]).status = true := by
  decide

/-- A program in R77's own lines and with a pseudo-instruction, each poll with a number of its own. -/
def polite : List HostMacro :=
  [.line (.wb 1 7), .line (.cmd .readUe), .line (.rd .status), .line .poll, .line (.rb 1), .run .writeUe [5]]

theorem witness_DisciplinedProgramRunsToItsEnd :
    busyBit (idle (programTurns (fun k => k) polite)).status = false ∧
    disciplined (idle (programTurns (fun k => k) polite)).buf.size.toNat false (programLines polite) = true ∧
    (idle (programTurns (fun k => k) polite)).agenda = programTurns (fun k => k) polite := by decide

theorem witness_DecodeUndoesEncode : (Instr.readBits 32#6).wf = true := by decide

theorem witness_OnlyTheEncodingDecodes : decode 0x2003#32 = .ok (.readBits 32#6) := by decide

theorem witness_IllegalWordsAreExactlyTheReservedOnes :
    0x22 ≤ (0x22#32).toNat % 256 ∧ (0x4001#32).toNat / 2 ^ 14 ≠ 0 ∧
    ((0x3F05#32).toNat / 256 % 64 ≠ 0 ∧ (0x3F05#32).toNat % 256 ≠ 3 ∧ (0x3F05#32).toNat % 256 ≠ 4) ∧
    (32 < (0x2103#32).toNat / 256 % 64 ∧ (0x2103#32).toNat % 256 = 3) := by decide

theorem witness_CommandsRaiseOnlyTheirErrors :
    Instr.pad.wf = true ∧ (∃ t, exec .pad (bs [0] (0, 1, 0, 0)) = .next t ∧ t.status ≠ 0#32) ∧
    Instr.readUe.writesBuf = false ∧ Instr.pad.usesCursor = false :=
  ⟨rfl, ⟨_, rfl, by decide⟩, rfl, rfl⟩

theorem witness_EveryErrorOfTheMatrixHappens :
    Instr.fixCrop.wf = true ∧ Instr.fixCrop.mayRaise (.unsupportedProfile 128#8) = true ∧
    Instr.fixCrop.mayRaise .illegalCommand = true := by decide

/-- A command that reads one ARG register and the cursor, with other values in the registers it does not read. -/
theorem witness_UnreadOperandsHaveNoEffect :
    (1 ≤ Instr.writeUe.argsRead → (5 : Word) = (cs [0] 5 (0, 0, 1)).arg0) ∧ ¬ 2 ≤ Instr.writeUe.argsRead ∧
    ¬ 3 ≤ Instr.writeUe.argsRead ∧ ¬ 4 ≤ Instr.writeUe.argsRead ∧
    (Instr.writeUe.usesCursor = true → (0 : Word) = (cs [0] 5 (0, 0, 1)).curBase ∧
      (0 : Word) = (cs [0] 5 (0, 0, 1)).curPos ∧ (1 : Word) = (cs [0] 5 (0, 0, 1)).curLimit) := by decide

theorem witness_CursorAdvancesByTheBitsTouched :
    Instr.readUe.usesCursor = true ∧ (cs [0x38] 0 (0, 0, 1)).buf.Wf ∧
    regsOf (exec .readUe (cs [0x38] 0 (0, 0, 1))) = some (0, 6, 5, 5) := by decide

theorem witness_ResetMeetsTheInvariant : Config.Legal { bufBytes := 2 ^ 28 } := by decide

theorem witness_EveryStepKeepsTheInvariant :
    (busy 0x05 [.block]).Inv ∧ (nextOf (step (busy 0x05 [.block]))).isSome = true := by decide

theorem witness_EveryRunFromPowerOnStaysGood :
    Config.Legal { bufBytes := 8 } ∧
    ∃ t, core.run 2 { State.powerOn { bufBytes := 8 } with agenda := [.powerOn, .reset] } = .next t :=
  ⟨by decide, ⟨_, rfl⟩⟩

/-- In bounds at the last bit of BUF, and out of bounds just past the window and just past BUF. -/
theorem witness_bit_bounds :
    ((cs [0] 1 (0, 7, 2)).curPos.toNat < 8 * (cs [0] 1 (0, 7, 2)).curLimit.toNat ∧
      (cs [0] 1 (0, 7, 2)).curBase.toNat + (cs [0] 1 (0, 7, 2)).curPos.toNat / 8 < (cs [0] 1 (0, 7, 2)).buf.size.toNat) ∧
    ¬ ((cs [0] 1 (0, 8, 1)).curPos.toNat < 8 * (cs [0] 1 (0, 8, 1)).curLimit.toNat) ∧
    ¬ ((cs [0] 1 (0, 8, 2)).curBase.toNat + (cs [0] 1 (0, 8, 2)).curPos.toNat / 8 < (cs [0] 1 (0, 8, 2)).buf.size.toNat) := by
  decide

/-- R106, R107: 32 bits that end at BUF's last bit fit, one more position does not, N = 33 is no length. -/
theorem witness_field_bounds :
    (32#6).toNat ≤ 32 ∧ (cs [0, 0, 0, 0, 0] 1 (0, 8, 5)).cursor.Fits 5 (32#6).toNat ∧
    ¬ (cs [0, 0, 0, 0, 0] 1 (0, 9, 5)).cursor.Fits 5 (32#6).toNat ∧ (cs [0] 1 (9, 9, 0)).cursor.Fits 1 (0#6).toNat ∧
    32 < (33#6).toNat := by decide

theorem witness_WrittenFieldsReadBack :
    (3#6).toNat ≤ 32 ∧ (cs [0] 5 (0, 5, 1)).buf.Wf ∧ (cs [0] 5 (0, 5, 1)).arg0.toNat < 2 ^ (3#6).toNat ∧
    regsOf (exec (.writeBits 3#6) (cs [0] 5 (0, 5, 1))) = some (0, 0, 3, 8) ∧
    (cs [0] 1 (0, 7, 1)).arg0.toNat < 2 ∧ regsOf (exec .writeBit (cs [0] 1 (0, 7, 1))) = some (0, 0, 1, 8) := by decide

/-- The code of 6 stands there and fits exactly; in a window of one byte fewer it does not fit. -/
theorem witness_ReadUeDecodesTheCode :
    UeRange 6 ∧ StreamAt (cs [0x07, 0x00] 0 (0, 3, 1)).buf 3 (ueCode 6) ∧
    (cs [0x07, 0x00] 0 (0, 3, 1)).cursor.Fits 2 (ueCode 6).length ∧
    StreamAt (cs [0, 0, 0, 0, 0x80] 0 (0, 0, 5)).buf 0 (List.replicate 32 false) := by decide

/-- Nothing at an empty window decodes: every code has at least one bit. -/
theorem witness_ReadUeDecodesTheCode_none (v : Nat) :
    ¬ (cs [0x80] 0 (0, 0, 0)).cursor.Fits 1 (ueCode v).length := by
  rintro (h | ⟨h, _⟩)
  · simp [ueCode, bitsOf] at h
  · have h' : 0 + (ueCode v).length ≤ 8 * 0 := h
    simp [ueCode, bitsOf] at h'

theorem witness_WriteUeWritesTheCode :
    (cs [0] 5 (0, 3, 1)).arg0 ≠ 0xFFFFFFFF#32 ∧
    (cs [0] 5 (0, 3, 1)).cursor.Fits 1 (ueCode (cs [0] 5 (0, 3, 1)).arg0.toNat).length ∧
    ¬ (cs [0] 5 (0, 4, 1)).cursor.Fits 1 (ueCode (cs [0] 5 (0, 4, 1)).arg0.toNat).length ∧
    (cs [0] 0xFFFFFFFF (0, 3, 1)).arg0 = 0xFFFFFFFF#32 := by decide

theorem witness_ReadSeDecodesTheCode :
    SeRange (-2) ∧ StreamAt (cs [0x05] 0 (0, 3, 1)).buf 3 (seCode (-2)) ∧
    (cs [0x05] 0 (0, 3, 1)).cursor.Fits 1 (seCode (-2)).length ∧
    StreamAt (cs [0, 0, 0, 0, 0x80] 0 (0, 0, 5)).buf 0 (List.replicate 32 false) := by decide

theorem witness_ReadSeDecodesTheCode_none (v : Int) :
    ¬ (cs [0x80] 0 (0, 0, 0)).cursor.Fits 1 (seCode v).length :=
  witness_ReadUeDecodesTheCode_none _

theorem witness_WriteSeWritesTheCode :
    (cs [0] 0xFFFFFFFE (0, 3, 1)).arg0 ≠ 0x80000000#32 ∧
    (cs [0] 0xFFFFFFFE (0, 3, 1)).cursor.Fits 1 (seCode (cs [0] 0xFFFFFFFE (0, 3, 1)).arg0.toInt).length ∧
    ¬ (cs [0] 0xFFFFFFFE (0, 4, 1)).cursor.Fits 1 (seCode (cs [0] 0xFFFFFFFE (0, 4, 1)).arg0.toInt).length ∧
    (cs [0] 0x80000000 (0, 3, 1)).arg0 = 0x80000000#32 := by decide

/-- The largest values. -/
theorem witness_ExpGolombRoundTrip :
    (cs [0, 0, 0, 0, 0, 0, 0, 0] 0xFFFFFFFE (0, 1, 8)).buf.Wf ∧
    regsOf (exec .writeUe (cs [0, 0, 0, 0, 0, 0, 0, 0] 0xFFFFFFFE (0, 1, 8))) = some (0, 0, 63, 64) ∧
    regsOf (exec .writeSe (cs [0, 0, 0, 0, 0, 0, 0, 0] 0x80000001 (0, 1, 8))) = some (0, 0, 63, 64) := by decide

theorem witness_SmallValuesHaveTheTabledCodes :
    (cs [0, 0] 15 (0, 7, 2)).arg0.toNat = 15 ∧ (cs [0, 0] 15 (0, 7, 2)).cursor.Fits 2 9 ∧
    (cs [0] 0xFFFFFFFD (0, 3, 1)).arg0.toInt = -3 ∧ (cs [0] 0xFFFFFFFD (0, 3, 1)).cursor.Fits 1 5 := by decide

/-- V-N7, V-N5 and V-N8 on the vectors' buffer. -/
def nal : List Nat := [0x00, 0x00, 0x00, 0x01, 0x09, 0x10, 0x00, 0x00, 0x00, 0x01, 0x67, 0x42, 0xC0, 0x1E, 0xDA, 0x1C,
  0xF9, 0x00, 0x00, 0x01, 0x68, 0xCE, 0x38, 0x80]

theorem witness_FindStartCodeFindsTheFirst :
    (bs nal (17, 20, 0, 0)).arg1.toNat ≤ (bs nal (17, 20, 0, 0)).buf.size.toNat ∧
    FirstStartCode (bs nal (17, 20, 0, 0)).buf 17 20 17 ∧
    (bs nal (0, 25, 0, 0)).buf.size.toNat < (bs nal (0, 25, 0, 0)).arg1.toNat := by decide

theorem witness_FindStartCodeFindsTheFirst_none (j : Nat) : ¬ FirstStartCode (bs nal (0, 2, 0, 0)).buf 0 2 j := by
  rintro ⟨_, h, _⟩; omega

theorem witness_FindStartCodeOnTheFourByteForm :
    (bs nal (0, 4, 0, 0)).arg1.toNat ≤ (bs nal (0, 4, 0, 0)).buf.size.toNat ∧ (bs nal (0, 4, 0, 0)).arg0.toNat ≤ 0 ∧
    0 + 3 < (bs nal (0, 4, 0, 0)).arg1.toNat ∧ (bs nal (0, 4, 0, 0)).buf.read 0 = 0x00#8 ∧
    (bs nal (0, 4, 0, 0)).buf.read 1 = 0x00#8 ∧ (bs nal (0, 4, 0, 0)).buf.read 2 = 0x00#8 ∧
    (bs nal (0, 4, 0, 0)).buf.read 3 = 0x01#8 := by decide

/-- V-N12: the header byte at the last place of the range, past a NAL unit of another type. -/
theorem witness_FindSpsFindsTheFirstHeader :
    (bs nal (0, 11, 0, 0)).arg1.toNat ≤ (bs nal (0, 11, 0, 0)).buf.size.toNat ∧
    FirstSps (bs nal (0, 11, 0, 0)).buf 11 0 10 ∧
    (bs nal (0, 25, 0, 0)).buf.size.toNat < (bs nal (0, 25, 0, 0)).arg1.toNat :=
  ⟨by decide, .skip (j := 1) (by decide) (by decide) (by decide) (.here (j := 7) (by decide) (by decide) (by decide)),
    by decide⟩

/-- An empty range holds none. -/
theorem witness_FindSpsFindsTheFirstHeader_none (p : Nat) : ¬ FirstSps (bs nal (9, 5, 0, 0)).buf 5 9 p := by
  intro h
  cases h with
  | here h hs _ => have := h.1; omega
  | skip h hs _ _ => have := h.1; omega

/-- V-N17 and V-N18. -/
theorem witness_InspectProfileReadsProfileAndLevel :
    FirstSps (bs nal (0, 14, 0, 0)).buf 14 0 10 ∧ 10 + 3 < (bs nal (0, 14, 0, 0)).arg1.toNat ∧
    FirstSps (bs nal (0, 13, 0, 0)).buf 13 0 10 ∧ (bs nal (0, 13, 0, 0)).arg1.toNat ≤ 10 + 3 :=
  ⟨.skip (j := 1) (by decide) (by decide) (by decide) (.here (j := 7) (by decide) (by decide) (by decide)), by decide,
    .skip (j := 1) (by decide) (by decide) (by decide) (.here (j := 7) (by decide) (by decide) (by decide)), by decide⟩

/-- The fields of V-SPS-1 (S6). -/
def sps1Fields : SpsFields :=
  { profileIdc := 66, constraintByte := 0xC0, levelIdc := 30, seqParameterSetId := 0, log2MaxFrameNumMinus4 := 0
    poc := .other 2, maxNumRefFrames := 1, gapsInFrameNumValueAllowed := false, picWidthInMbsMinus1 := 6
    picHeightInMapUnitsMinus1 := 6, frameMbsOnly := true, mbAdaptiveFrameField := none, direct8x8Inference := true }

theorem sps1Fields_legal : sps1Fields.Legal := by
  simp [SpsFields.Legal, sps1Fields, PocFields.Legal, UeRange, unsupportedProfiles]

/-- V-SPS-1's SPS stands at its parse region, S = 45. -/
theorem sps1_at : SpsAt (bufOf 16 sps1) { base := 5, pos := 0, limit := 11 } sps1Fields none false ∧
    sps1Fields.bits.length = 45 :=
  ⟨⟨sps1Fields_legal, trivial, by decide, by decide⟩, by decide⟩

/-- V-SPS-1, V-SPS-8 (13 bytes are enough), V-SPS-7 (12 are not) and V-SPS-11. -/
theorem witness_FixCropRewritesTheCropFields :
    (bs sps1 (0, 16, 100, 100)).arg0.toNat + (bs sps1 (0, 16, 100, 100)).arg1.toNat ≤
      (bs sps1 (0, 16, 100, 100)).buf.size.toNat ∧
    SpsAt (bs sps1 (0, 16, 100, 100)).buf { base := 5, pos := 0, limit := 11 } sps1Fields none false ∧
    45 + (rewrittenBits (sourceCrop 100 100 true)).length ≤ 8 * (13 - 5) ∧
    8 * (12 - 5) < 45 + (rewrittenBits (sourceCrop 100 100 true)).length ∧
    (bs sps1 (1, 16, 100, 100)).buf.size.toNat <
      (bs sps1 (1, 16, 100, 100)).arg0.toNat + (bs sps1 (1, 16, 100, 100)).arg1.toNat :=
  ⟨by decide, sps1_at.1, by decide, by decide, by decide⟩

/-- V-SPS-4: the vui flag set. -/
theorem witness_FixCropRewritesTheCropFields_vui :
    SpsAt (bufOf 16 [0x00, 0x00, 0x00, 0x01, 0x67, 0x42, 0xC0, 0x1E, 0xDA, 0x1C, 0xFB, 0x00, 0x00, 0x00, 0x00, 0x00])
      { base := 5, pos := 0, limit := 11 } sps1Fields none true :=
  ⟨sps1Fields_legal, trivial, by decide, by decide⟩

/-- V-SPS-13, and a cap of 5, where no SPS stands and no profile is read. -/
theorem witness_FixCropRewritesTheCropFields_profile :
    5 < (bs [0, 0, 0, 1, 0x67, 0x64] (0, 6, 100, 100)).arg1.toNat ∧
    ((bs [0, 0, 0, 1, 0x67, 0x64] (0, 6, 100, 100)).buf.read 5).toNat ∈ [100, 110, 122, 244, 44, 83, 86, 118, 128] ∧
    ¬ 5 < (bs [0, 0, 0, 1, 0x67, 0x64] (0, 5, 100, 100)).arg1.toNat := by decide

theorem witness_FixCropRewritesTheCropFields_none (f : SpsFields) (old : Option CropOffsets) (vui : Bool) :
    ¬ SpsAt (bs [0, 0, 0, 1, 0x67, 0x64] (0, 5, 100, 100)).buf { base := 5, pos := 0, limit := 0 } f old vui := by
  rintro ⟨_, _, h | ⟨h, _⟩, _⟩
  · simp at h
  · simp at h

theorem witness_FixCropLeavesAnUnsupportedProfileAlone :
    (bs [0, 0, 0, 1, 0x67, 0x64] (0, 6, 100, 100)).arg0.toNat + (bs [0, 0, 0, 1, 0x67, 0x64] (0, 6, 100, 100)).arg1.toNat ≤
      (bs [0, 0, 0, 1, 0x67, 0x64] (0, 6, 100, 100)).buf.size.toNat ∧
    6 ≤ (bs [0, 0, 0, 1, 0x67, 0x64] (0, 6, 100, 100)).arg1.toNat ∧
    ((bs [0, 0, 0, 1, 0x67, 0x64] (0, 6, 100, 100)).buf.read 5).toNat ∈ [100, 110, 122, 244, 44, 83, 86, 118, 128] ∧
    (bs [0, 0, 0, 1, 0x67, 0x64] (0, 6, 100, 100)).buf.read 5 = 100#8 := by decide

/-- V-SPS-1 succeeds: the hypotheses of the preservation and the re-parse statements. -/
theorem witness_FixCropPreservesEverythingElse :
    regsOf (exec .fixCrop (bs sps1 (0, 16, 100, 100))) = some (0, 13, 60, 0) := by decide

theorem witness_FixCropReparsesAndRepeats :
    regsOf (exec .fixCrop (bs sps1 (0, 13, 100, 100))) = some (0, 13, 60, 0) := by decide

/-- V-F1, V-F5 and V-F6. -/
theorem witness_FillerNalStoresTheFillerUnit :
    (st 32 [] (0, 5, 0, 0) (0, 0, 0)).arg1.toNat < 6 ∧
    6 ≤ (st 32 [] (26, 6, 0, 0) (0, 0, 0)).arg1.toNat ∧
    (st 32 [] (26, 6, 0, 0) (0, 0, 0)).arg0.toNat + (st 32 [] (26, 6, 0, 0) (0, 0, 0)).arg1.toNat ≤
      (st 32 [] (26, 6, 0, 0) (0, 0, 0)).buf.size.toNat ∧
    (st 32 [] (27, 6, 0, 0) (0, 0, 0)).buf.size.toNat <
      (st 32 [] (27, 6, 0, 0) (0, 0, 0)).arg0.toNat + (st 32 [] (27, 6, 0, 0) (0, 0, 0)).arg1.toNat := by decide

/-- V-F10, V-F9 (to the last byte) and V-F11. -/
theorem witness_PadStoresTheTabledFiller :
    (st 32 [] (0, 32, 0, 0) (0, 0, 0)).arg1.toNat % 8 = 0 ∧
    (st 32 [] (0, 21, 0, 0) (0, 0, 0)).arg1.toNat % 8 = 5 ∧
    (st 32 [] (0, 21, 0, 0) (0, 0, 0)).arg0.toNat + (st 32 [] (0, 21, 0, 0) (0, 0, 0)).arg1.toNat + 11 ≤
      (st 32 [] (0, 21, 0, 0) (0, 0, 0)).buf.size.toNat ∧
    (st 32 [] (0, 27, 0, 0) (0, 0, 0)).arg1.toNat % 8 = 3 ∧
    (st 32 [] (0, 27, 0, 0) (0, 0, 0)).buf.size.toNat <
      (st 32 [] (0, 27, 0, 0) (0, 0, 0)).arg0.toNat + (st 32 [] (0, 27, 0, 0) (0, 0, 0)).arg1.toNat + 13 := by decide

theorem witness_PaddedSizeIsAMultipleOfEight :
    regsOf (exec .pad (st 32 [] (0, 21, 0, 0) (0, 0, 0))) = some (0, 11, 5, 0) ∧
    regsOf (exec .pad (st 32 [] (0, 32, 0, 0) (0, 0, 0))) = some (0, 0, 0, 0) := by decide

theorem witness_MemReadUndoesMemWrite :
    (bufOf 4 [1, 2, 3, 4]).Wf ∧ 3 < 4 ∧ (3 < 4 ∨ 4 + 2 ≤ 3) ∧ 2 + 2 ≤ (bufOf 4 [1, 2, 3, 4]).size.toNat := by decide

end Sys2Proof.Tests
end

section
/-! PROOF. Multi-byte reads and writes of BUF as numbers (00_scope.md R13). -/

namespace Sys2Proof.Machine

/-! ## MemRead and MemWrite (R13) -/

/-- The value of two bit strings one after the other (R52). -/
theorem valueOf_append (xs ys : List Bool) : valueOf (xs ++ ys) = valueOf xs * 2 ^ ys.length + valueOf ys := by
  conv_lhs => rw [valueOf, List.foldl_append, foldl_valueOf]
  rfl

@[simp] theorem Buffer.readN_zero (b : Buffer) (a : Nat) : b.readN a 0 = 0 := rfl

/-- MemRead's next byte is its least significant one (R13). -/
theorem Buffer.readN_succ (b : Buffer) (a n : Nat) :
    b.readN a (n + 1) = b.readN a n * 256 + (b.read (a + n)).toNat := by
  rw [Buffer.readN, ← Nat.shiftLeft_add_eq_or_of_lt (b.read (a + n)).isLt, Nat.shiftLeft_eq]

/-- MemRead is the number its stream bits stand for (R12, R13). -/
theorem Buffer.readN_eq_valueOf_stream (b : Buffer) (a n : Nat) :
    b.readN a n = valueOf (b.stream (8 * a) (8 * n)) := by
  induction n with
  | zero => rfl
  | succ n ih =>
    rw [Nat.mul_add_one 8 n, Buffer.stream_add, ← Nat.mul_add, valueOf_append, ← ih, valueOf_stream_byte,
      Buffer.stream_length]
    exact b.readN_succ a n

/-- MemRead of the big-endian bytes of `v` is the low part of `v` (R13). -/
theorem Buffer.readN_of_bytes (b : Buffer) (a n v : Nat)
    (h : ∀ i < n, (b.read (a + i)).toNat = v / 2 ^ (8 * (n - 1 - i)) % 256) : b.readN a n = v % 2 ^ (8 * n) := by
  induction n generalizing v with
  | zero => simp [Nat.mod_one]
  | succ n ih =>
    have hlast : (b.read (a + n)).toNat = v % 256 := by simpa using h n (Nat.lt_succ_self n)
    have hfirst : b.readN a n = v / 256 % 2 ^ (8 * n) := by
      refine ih (v / 256) fun i hi => ?_
      rw [h i (by omega), Nat.div_div_eq_div_mul, show 256 = 2 ^ 8 by rfl, ← Nat.pow_add]
      congr 3
      omega
    calc b.readN a (n + 1) = v / 256 % 2 ^ (8 * n) * 256 + v % 256 := by rw [Buffer.readN_succ, hfirst, hlast]
      _ = v % (256 * 2 ^ (8 * n)) := by rw [Nat.mod_mul]; omega
      _ = v % 2 ^ (8 * (n + 1)) := by rw [Nat.mul_add_one 8 n, Nat.add_comm, Nat.pow_add]

@[simp] theorem bigEndianBytes_length (n v : Nat) : (bigEndianBytes n v).length = n := by
  simp [bigEndianBytes]

/-- Byte `i` of the big-endian form of `v` (R13). -/
theorem bigEndianBytes_getD {n i : Nat} (v : Nat) (hi : i < n) :
    ((bigEndianBytes n v).getD i 0#8).toNat = v / 2 ^ (8 * (n - 1 - i)) % 256 := by
  simp [bigEndianBytes, List.getD_eq_getElem?_getD, hi, Nat.shiftRight_eq_div_pow]

/-- MemWrite stores exactly the big-endian bytes of `v` (R13). -/
theorem Buffer.writeN_spec (b : Buffer) (a n v : Nat) :
    BytesWritten b (b.writeN a n v) a (bigEndianBytes n v) := Buffer.writeBytes_spec _ b a

theorem Buffer.read_writeN (b : Buffer) (a v : Nat) {n i : Nat} (hi : i < n) :
    ((b.writeN a n v).read (a + i)).toNat = v / 2 ^ (8 * (n - 1 - i)) % 256 := by
  obtain ⟨-, -, hread⟩ := b.writeN_spec a n v
  rw [hread, if_pos (by simpa using hi), Nat.add_sub_cancel_left, bigEndianBytes_getD v hi]

theorem Buffer.read_writeN_outside (b : Buffer) {a n x : Nat} (v : Nat) (hx : x < a ∨ a + n ≤ x) :
    (b.writeN a n v).read x = b.read x := by
  obtain ⟨-, -, hread⟩ := b.writeN_spec a n v
  rw [hread, if_neg (by rw [bigEndianBytes_length]; omega)]

/-- Settles O52: each byte of MemWrite by `Buffer.writeBytes_spec`, MemRead of those bytes by induction on their
number. -/
theorem memReadUndoesMemWrite : Obligations.MemReadUndoesMemWrite := by
  unfold Obligations.MemReadUndoesMemWrite
  intro b a n v
  have hbytes : ∀ i < n, ((b.writeN a n v).read (a + i)).toNat = v / 2 ^ (8 * (n - 1 - i)) % 256 :=
    fun _ hi => b.read_writeN a v hi
  exact ⟨b.readN_eq_valueOf_stream a n, hbytes, fun _ hx => b.read_writeN_outside v hx,
    Buffer.readN_of_bytes _ a n v hbytes, fun hwf hfit => hwf.writeBytes _ (by rwa [bigEndianBytes_length])⟩

end Sys2Proof.Machine
end

section
/-! PROOF. What the machine's turns are, and every STATUS value against R23. -/

namespace Sys2Proof.Machine

/-! ## The block's turn (R7, R62) -/

theorem blockTurn_idle {s : State} (h : s.busy = false) : blockTurn s = .next s := by
  simp [blockTurn, h]

theorem blockTurn_pending {s : State} (h : s.busy = true) : blockTurn s = blockStep s := by
  simp [blockTurn, h]

theorem blockStep_of_decode {s : State} {i : Instr} (h : decode s.cmd = .ok i) : blockStep s = exec i s := by
  simp [blockStep, h]

theorem blockStep_of_illegal {s : State} {e : DecodeError} (h : decode s.cmd = .error e) :
    blockStep s = .next (s.fail .illegalCommand) := by
  simp [blockStep, h]

/-- On an empty agenda the block moves (R255, log 4). -/
theorem step_nil {s : State} (h : s.agenda = []) : step s = blockTurn s := by
  simp [step, nextTurn, h]

/-- A step takes the first turn of the agenda and uses it up (R59, log 4). -/
theorem step_cons {s : State} {t : Turn} {rest : List Turn} (h : s.agenda = t :: rest) :
    step s = runTurn t { s with agenda := rest } := by
  simp [step, nextTurn, h]

/-- A pending word that decodes is run by the block's turn (R62). -/
theorem blockTurn_of_decode {s : State} {i : Instr} (hbusy : s.busy = true) (hdecode : decode s.cmd = .ok i) :
    blockTurn s = exec i s := (blockTurn_pending hbusy).trans (blockStep_of_decode hdecode)

/-- Settles O12: with BUSY = 1 the block's turn is `exec` of the decoded command, with BUSY = 0 it changes nothing. -/
theorem stepRunsTheDecodedCommand : Obligations.StepRunsTheDecodedCommand := by
  unfold Obligations.StepRunsTheDecodedCommand
  refine fun s rest => ⟨fun i hbusy hdecode => ⟨fun hnil => ?_, fun hcons => ?_⟩,
    fun hidle => ⟨fun hnil => ?_, fun hcons => ?_⟩⟩
  · exact (step_nil hnil).trans (blockTurn_of_decode hbusy hdecode)
  · exact (step_cons hcons).trans (blockTurn_of_decode hbusy hdecode)
  · exact (step_nil hnil).trans (blockTurn_idle hidle)
  · exact (step_cons hcons).trans (blockTurn_idle hidle)

/-! ## STATUS (R23, R211, R213) -/

section
variable (e : Raise)

@[simp] theorem statusOfRaise_busyBit : busyBit (statusOfRaise e) = false := by
  simp [busyBit, statusOfRaise]

@[simp] theorem statusOfRaise_errBit : errBit (statusOfRaise e) = true := by
  simp [errBit, statusOfRaise]

@[simp] theorem statusOfRaise_codeField : codeField (statusOfRaise e) = e.code := by
  apply BitVec.eq_of_getLsbD_eq
  intro i hi
  interval_cases i <;> simp [codeField, statusOfRaise]

@[simp] theorem statusOfRaise_detailField : detailField (statusOfRaise e) = e.detail := by
  apply BitVec.eq_of_getLsbD_eq
  intro i hi
  interval_cases i <;> simp [detailField, statusOfRaise]

@[simp] theorem statusOfRaise_reservedLow : statusReservedLow (statusOfRaise e) = 0#2 := by
  apply BitVec.eq_of_getLsbD_eq
  intro i hi
  interval_cases i <;> simp [statusReservedLow, statusOfRaise]

@[simp] theorem statusOfRaise_reservedHigh : statusReservedHigh (statusOfRaise e) = 0#16 := by
  apply BitVec.eq_of_getLsbD_eq
  intro i hi
  interval_cases i <;> simp [statusReservedHigh, statusOfRaise]

end

end Sys2Proof.Machine
end

section
/-! PROOF. The invariant `State.Inv` (R8, R23, R32): what keeps it, from the shared operations up to a run. -/

namespace Sys2Proof.Machine

/-! ## STATUS values -/

/-- DETAIL of an error is a value R163 and R211 allow. -/
def Raise.DetailLegal : Raise → Prop
  | .unsupportedProfile p => p.toNat ∈ unsupportedProfiles
  | .notFound => True
  | .unsupportedVui => True
  | .invalidSize => True
  | .malformedBitstream => True
  | .illegalCommand => True
  | .valueRange => True

theorem statusLegal_ok : StatusLegal statusOk := by decide

theorem statusLegal_busy : StatusLegal statusBusy := by decide

/-- STATUS after a raise is legal when the DETAIL it reports is (R211, R213). -/
theorem statusLegal_of_raise {e : Raise} (h : e.DetailLegal) : StatusLegal (statusOfRaise e) := by
  cases e with
  | unsupportedProfile p => simpa [StatusLegal, Raise.code, Raise.detail, Raise.DetailLegal] using h
  | _ => simp [StatusLegal, Raise.code, Raise.detail]

/-! ## BUF over an operation -/

/-- An operation that makes `b'` of `b` keeps BUF_SIZE, and BUF's canonical form. -/
def Buffer.Kept (b b' : Buffer) : Prop := b'.size = b.size ∧ (b.Wf → b'.Wf)

theorem Buffer.Kept.refl (b : Buffer) : b.Kept b := ⟨rfl, id⟩

/-- Bytes stored inside BUF. -/
theorem Buffer.kept_writeBytes (b : Buffer) (a : Nat) (bs : List Byte) (h : a + bs.length ≤ b.bytes) :
    b.Kept (b.writeBytes a bs) := ⟨(Buffer.writeBytes_spec bs b a).1, fun hwf => hwf.writeBytes bs h⟩

/-! ## How a command's computation ends -/

/-- The computation ends with a value that satisfies `Q`, or raises an error whose DETAIL is legal. -/
def EndsWell {α : Type} (r : Except Raise α) (Q : α → Prop) : Prop :=
  (∃ a, r = .ok a ∧ Q a) ∨ ∃ e : Raise, r = .error e ∧ e.DetailLegal

section
variable {α β : Type} {P : α → Prop} {Q : β → Prop}

theorem EndsWell.ok {a : α} (h : P a) : EndsWell (.ok a) P := .inl ⟨a, rfl, h⟩

theorem EndsWell.error {e : Raise} (h : e.DetailLegal) : EndsWell (.error e) P := .inr ⟨e, rfl, h⟩

theorem EndsWell.bind {x : Except Raise α} {f : α → Except Raise β} (hx : EndsWell x P)
    (hf : ∀ a, P a → EndsWell (f a) Q) : EndsWell (x >>= f) Q := by
  rcases hx with ⟨a, rfl, ha⟩ | ⟨e, rfl, he⟩
  · exact hf a ha
  · exact .error he

theorem EndsWell.ite {c : Prop} [Decidable c] {x y : Except Raise α} (hx : c → EndsWell x P)
    (hy : ¬ c → EndsWell y P) : EndsWell (if c then x else y) P := by
  split
  · next h => exact hx h
  · next h => exact hy h

end

/-! ## The cursor, codec, parse, scan and filler functions end well -/

/-- A value that is only read puts no condition on BUF. -/
abbrev AnyValue {α : Type} : α → Prop := fun _ => True

section
variable (b : Buffer) (c : Cursor)

theorem cursorReadBit_endsWell : EndsWell (cursorReadBit b c) AnyValue := by
  rcases cursorReadBit_cases b c with ⟨-, h⟩ | ⟨-, h⟩
  · exact h ▸ .ok trivial
  · exact h ▸ .error trivial

theorem cursorReadBits_endsWell (n : Nat) : EndsWell (cursorReadBits b c n) AnyValue := by
  rcases cursorReadBits_cases b c n with ⟨-, h⟩ | ⟨-, h⟩
  · exact h ▸ .ok trivial
  · exact h ▸ .error trivial

theorem readUE_endsWell : EndsWell (readUE b c) AnyValue := by
  rcases readUE_cases b c with ⟨v, -, -, -, h⟩ | h
  · exact h ▸ .ok trivial
  · exact h ▸ .error trivial

theorem readSE_endsWell : EndsWell (readSE b c) AnyValue :=
  (readUE_endsWell b c).bind fun _ _ => .ok trivial

/-- A writer keeps BUF or raises MalformedBitstream. -/
theorem Writes.endsWell {p : Buffer → Cursor → Except Raise (Buffer × Cursor)} {bits : List Bool}
    (h : Writes p bits) : EndsWell (p b c) fun x => b.Kept x.1 := by
  rcases h b c with ⟨-, b', e, ⟨hsize, -, -, -⟩, hwf⟩ | ⟨-, e⟩
  · exact e ▸ .ok ⟨hsize, hwf⟩
  · exact e ▸ .error trivial

/-- CursorWriteBits as a writer (R103). -/
theorem writes_bits (n v : Nat) : Writes (fun b c => cursorWriteBits b c n v) (bitsOf n v) := by
  intro b c
  rw [bitsOf_length]
  by_cases h : c.Fits b.bytes n
  · exact .inl ⟨h, cursorWriteBits_ok n v h⟩
  · exact .inr ⟨h, cursorWriteBits_error n v h⟩

theorem writeUE_endsWell (v : Nat) : EndsWell (writeUE b c v) fun x => b.Kept x.1 := by
  by_cases hv : UeRange v
  · exact (writes_ue hv).endsWell b c
  · exact writeUE_range hv ▸ .error trivial

theorem writeSE_endsWell (v : Int) : EndsWell (writeSE b c v) fun x => b.Kept x.1 :=
  .ite (fun _ => .error trivial) fun _ => writeUE_endsWell b c _

/-- The parse phase raises UnsupportedProfile for a profile of R163's set only. -/
theorem parseSps_endsWell : EndsWell (parseSps b c) AnyValue := by
  rcases parseSps_cases b c with ⟨-, h⟩ | ⟨-, hprofile, h⟩ | ⟨f, old, vui, hat⟩ | ⟨-, -, h⟩
  · exact h ▸ .error trivial
  · refine h ▸ .error ?_
    rwa [Raise.DetailLegal, BitVec.toNat_ofNat, Nat.mod_eq_of_lt (profileAt_lt b c)]
  · exact parseSps_of_spsAt hat ▸ .ite (fun _ => .error trivial) fun _ => .ok trivial
  · exact h ▸ .error trivial

theorem findSps_endsWell (start stop : Nat) : EndsWell (findSps b start stop) AnyValue := by
  rcases findSps_cases b stop start with ⟨p, -, h⟩ | ⟨-, h⟩
  · exact h ▸ .ok trivial
  · exact h ▸ .error trivial

theorem inspectProfile_endsWell (start stop : Nat) : EndsWell (inspectProfile b start stop) AnyValue :=
  (findSps_endsWell b start stop).bind fun _ _ => .ite (fun _ => .error trivial) fun _ => .ok trivial

theorem checkEnd_endsWell (stop : Nat) : EndsWell (checkEnd b stop) AnyValue :=
  .ite (fun _ => .error trivial) fun _ => .ok trivial

/-- A filler unit of n >= 6 bytes is n bytes long (R190). -/
theorem fillerBytes_length {n : Nat} (h : 6 ≤ n) : (fillerBytes n).length = n := by
  simp [fillerBytes]
  omega

/-- Every tabled filler length of a deficit 1 to 7 is at least 6 (R192). -/
theorem six_le_fillerLen {d : Nat} (h0 : d ≠ 0) (h8 : d < 8) : 6 ≤ fillerLen d := by
  have tabled : ∀ d < 8, d ≠ 0 → 6 ≤ fillerLen d := by decide
  exact tabled d h8 h0

theorem placeFiller_endsWell (a : Nat) {n : Nat} (h : 6 ≤ n) : EndsWell (placeFiller b a n) b.Kept :=
  .ite (fun _ => .error trivial) fun hfit =>
    .ok (b.kept_writeBytes a _ (by rw [fillerBytes_length h]; omega))

end

/-! ## Outcomes -/

/-- An outcome of a turn from `s`: a next state has the BUF_SIZE of `s`, and the invariant when `s` has it. -/
def KeepsInv (s : State) (o : Host.Outcome State Fault Refusal) : Prop :=
  ∀ t, o = .next t → t.buf.size = s.buf.size ∧ (s.Inv → t.Inv)

/-- The next state is one whose BUF is kept and whose STATUS is legal when that of `s` is. -/
theorem KeepsInv.next {s t : State} (hbuf : s.buf.Kept t.buf) (hstatus : StatusLegal s.status → StatusLegal t.status) :
    KeepsInv s (.next t) := by
  rintro _ ⟨rfl⟩
  exact ⟨hbuf.1, fun ⟨hwf, hs⟩ => ⟨hbuf.2 hwf, hstatus hs⟩⟩

theorem KeepsInv.fault (s : State) (r : Fault) : KeepsInv s (.fault r) := fun _ h => nomatch h

theorem KeepsInv.refused (s : State) (r : Refusal) : KeepsInv s (.refused r) := fun _ h => nomatch h

/-- A raise changes STATUS only, to a legal value. -/
theorem keepsInv_fail (s : State) {e : Raise} (h : e.DetailLegal) : KeepsInv s (.next (s.fail e)) :=
  .next (.refl s.buf) fun _ => statusLegal_of_raise h

/-- What a command's computation must give when it succeeds: BUF kept and the STATUS of success. -/
def Completes (s t : State) : Prop := s.buf.Kept t.buf ∧ t.status = statusOk

/-- A command keeps the invariant when its computation ends well. -/
theorem EndsWell.finish {s : State} {r : Except Raise State} (h : EndsWell r (Completes s)) :
    KeepsInv s (Sys2Proof.Machine.finish s r) := by
  rcases h with ⟨t, rfl, hbuf, hstatus⟩ | ⟨e, rfl, he⟩
  · exact .next hbuf fun _ => hstatus ▸ statusLegal_ok
  · exact keepsInv_fail s he

/-! ## The commands -/

/-- Every command keeps the invariant (R57). -/
theorem exec_keepsInv (i : Instr) (s : State) : KeepsInv s (exec i s) := by
  have same : s.buf.Kept s.buf := .refl s.buf
  cases i with
  | readBit => exact EndsWell.finish ((cursorReadBit_endsWell _ _).bind fun _ _ => .ok ⟨same, rfl⟩)
  | writeBit => exact EndsWell.finish (((writes_bit _).endsWell _ _).bind fun _ kept => .ok ⟨kept, rfl⟩)
  | readBits n =>
    exact EndsWell.finish (.ite (fun _ => (cursorReadBits_endsWell _ _ _).bind fun _ _ => .ok ⟨same, rfl⟩)
      fun _ => .error trivial)
  | writeBits n =>
    exact EndsWell.finish (.ite (fun _ => ((writes_bits _ _).endsWell _ _).bind fun _ kept => .ok ⟨kept, rfl⟩)
      fun _ => .error trivial)
  | readUe => exact EndsWell.finish ((readUE_endsWell _ _).bind fun _ _ => .ok ⟨same, rfl⟩)
  | writeUe => exact EndsWell.finish ((writeUE_endsWell _ _ _).bind fun _ kept => .ok ⟨kept, rfl⟩)
  | readSe => exact EndsWell.finish ((readSE_endsWell _ _).bind fun _ _ => .ok ⟨same, rfl⟩)
  | writeSe => exact EndsWell.finish ((writeSE_endsWell _ _ _).bind fun _ kept => .ok ⟨kept, rfl⟩)
  | findStartCode =>
    refine EndsWell.finish ((checkEnd_endsWell _ _).bind fun _ _ => ?_)
    split
    · exact .error trivial
    · exact .ok ⟨same, rfl⟩
  | findSps =>
    exact EndsWell.finish ((checkEnd_endsWell _ _).bind fun _ _ =>
      (findSps_endsWell _ _ _).bind fun _ _ => .ok ⟨same, rfl⟩)
  | inspectProfile =>
    exact EndsWell.finish ((checkEnd_endsWell _ _).bind fun _ _ =>
      (inspectProfile_endsWell _ _ _).bind fun _ _ => .ok ⟨same, rfl⟩)
  | fixCrop =>
    exact EndsWell.finish (.ite (fun _ => .error trivial) fun _ => (parseSps_endsWell _ _).bind fun p _ =>
      ((writes_crop (cropValues_legal _ _ _) p.vui).endsWell _ _).bind fun _ kept => .ok ⟨kept, rfl⟩)
  | fillerNal =>
    exact EndsWell.finish (.ite (fun _ => .error trivial) fun hsize =>
      (placeFiller_endsWell _ _ (by omega)).bind fun _ kept => .ok ⟨kept, rfl⟩)
  | pad =>
    exact EndsWell.finish (.ite (fun _ => .ok ⟨same, rfl⟩) fun hd =>
      (placeFiller_endsWell _ _ (six_le_fillerLen hd (Nat.mod_lt _ (by decide)))).bind fun _ kept => .ok ⟨kept, rfl⟩)

/-! ## The turns -/

theorem blockStep_keepsInv (s : State) : KeepsInv s (blockStep s) := by
  cases h : decode s.cmd with
  | ok i => exact blockStep_of_decode h ▸ exec_keepsInv i s
  | error e => exact blockStep_of_illegal h ▸ keepsInv_fail s trivial

theorem blockTurn_keepsInv (s : State) : KeepsInv s (blockTurn s) := by
  cases h : s.busy with
  | true => exact blockTurn_pending h ▸ blockStep_keepsInv s
  | false => exact blockTurn_idle h ▸ .next (.refl s.buf) id

/-- An access that gets a next state is part of the interface, and the next state is its effect (R250, R251). -/
theorem hostAccess_next {a : HostAccess} {s t : State} (h : hostAccess a s = .next t) :
    a.check s.buf.bytes = none ∧ t = a.effect s := by
  unfold hostAccess at h
  split at h
  · cases h
  · next hcheck =>
    split at h
    · cases h
    · cases h
      exact ⟨hcheck, rfl⟩

/-- A host's register write leaves BUF, BUF_SIZE included, and leaves STATUS legal: CMD makes it 1, no other register
changes it (R21, R33). -/
theorem hostWriteSlot_kept (s : State) (slot : Slot) (v : Word) :
    s.buf.Kept (s.hostWriteSlot slot v).buf ∧
      (StatusLegal s.status → StatusLegal (s.hostWriteSlot slot v).status) := by
  cases slot with
  | reserved => exact ⟨.refl s.buf, id⟩
  | reg r =>
    cases r with
    | cmd => exact ⟨.refl s.buf, fun _ => statusLegal_busy⟩
    | _ => exact ⟨.refl s.buf, id⟩

/-- An access of the interface writes BUF only inside it (R251). -/
theorem HostAccess.effect_keepsInv {a : HostAccess} {s : State} (h : a.check s.buf.bytes = none) :
    KeepsInv s (.next (a.effect s)) := by
  cases a with
  | readReg off w => exact .next (.refl s.buf) id
  | writeReg off w v =>
    obtain ⟨hbuf, hstatus⟩ := hostWriteSlot_kept s ((slotAt off).getD .reserved) v
    exact .next hbuf hstatus
  | readBuf addr w => exact .next (.refl s.buf) id
  | writeBuf addr w v =>
    have hin : addr < s.buf.bytes := by
      simp only [HostAccess.check] at h
      split at h
      · next hw => exact hw.2
      · cases h
    exact .next ⟨rfl, fun hwf => hwf.write hin v⟩ id

theorem hostAccess_keepsInv (a : HostAccess) (s : State) : KeepsInv s (hostAccess a s) := by
  intro t h
  obtain ⟨hcheck, rfl⟩ := hostAccess_next h
  exact HostAccess.effect_keepsInv hcheck _ rfl

theorem mappedAccess_keepsInv (m : MappedAccess) (s : State) : KeepsInv s (mappedAccess m s) := by
  unfold mappedAccess
  split
  · exact hostAccess_keepsInv _ s
  · exact .next (.refl s.buf) id

theorem pollTurn_keepsInv (n : Nat) (s : State) : KeepsInv s (pollTurn n s) := by
  cases h : s.busy with
  | false => exact pollTurn_idle n h ▸ .next (.refl s.buf) id
  | true =>
    cases n with
    | zero => exact pollTurn_zero h ▸ blockTurn_keepsInv { s with agenda := .poll 0 :: s.agenda }
    | succ n => exact pollTurn_succ n h ▸ .next (.refl s.buf) id

/-- A BUF of a legal size to which nothing has been written is well formed. -/
theorem Buffer.wf_of_cells_nil {b : Buffer} (hcells : b.cells = []) (hlegal : 1 ≤ b.bytes ∧ b.bytes ≤ 2 ^ 28) :
    b.Wf := by
  refine ⟨?_, ?_, hlegal⟩ <;> simp [hcells]

/-- A power-on empties BUF, which is then well formed (R241). -/
theorem State.afterPowerOn_kept (s : State) : s.buf.Kept s.afterPowerOn.buf :=
  ⟨rfl, fun ⟨_, _, hlegal⟩ => Buffer.wf_of_cells_nil rfl hlegal⟩

theorem runTurn_keepsInv (t : Turn) (s : State) : KeepsInv s (runTurn t s) := by
  cases t with
  | block => exact blockTurn_keepsInv s
  | host a => exact hostAccess_keepsInv a s
  | hostAt m => exact mappedAccess_keepsInv m s
  | poll n => exact pollTurn_keepsInv n s
  | reset => exact .next (.refl s.buf) fun _ => statusLegal_ok
  | powerOn => exact .next s.afterPowerOn_kept fun _ => statusLegal_ok

/-- Every step keeps BUF_SIZE and the invariant. -/
theorem step_keepsInv (s : State) : KeepsInv s (step s) := by
  cases h : s.agenda with
  | nil => exact step_nil h ▸ blockTurn_keepsInv s
  | cons t rest => exact step_cons h ▸ runTurn_keepsInv t { s with agenda := rest }

/-- Settles O27: a step is a turn of the block, the host or the reset input, and each keeps the invariant. -/
theorem everyStepKeepsTheInvariant : Obligations.EveryStepKeepsTheInvariant := by
  unfold Obligations.EveryStepKeepsTheInvariant
  intro s t hinv hstep
  obtain ⟨-, hkeep⟩ := step_keepsInv s t hstep
  exact hkeep hinv

/-! ## Runs from power-on -/

/-- A run of `k + 1` steps that ends in a state begins with a step to a next state. -/
theorem run_succ_next {M : Host.Core} {k : Nat} {s t : M.State} (h : M.run (k + 1) s = .next t) :
    ∃ u, M.step s = .next u ∧ M.run k u = .next t := by
  unfold Host.Core.run at h
  split at h
  · next u hnext => exact ⟨u, hnext, h⟩
  · cases h
  · cases h

/-- A predicate that every step keeps holds at the end of every run from a state that has it. -/
theorem run_induction {P : State → Prop} (hstep : ∀ s t, P s → step s = .next t → P t) (k : Nat) {s t : State}
    (hs : P s) (h : core.run k s = .next t) : P t := by
  induction k generalizing s with
  | zero => cases h; exact hs
  | succ k ih =>
    obtain ⟨u, hnext, hrest⟩ := run_succ_next h
    exact ih (hstep s u hs hnext) hrest

/-- BUF_SIZE at power-on is BUF_BYTES (R8, R240). -/
theorem State.powerOn_bytes {c : Config} (h : c.Legal) : (State.powerOn c).buf.size.toNat = c.bufBytes := by
  obtain ⟨-, hmax⟩ := h
  exact Nat.mod_eq_of_lt (by omega)

theorem State.powerOn_inv {c : Config} (h : c.Legal) : (State.powerOn c).Inv := by
  refine ⟨Buffer.wf_of_cells_nil rfl ?_, statusLegal_ok⟩
  rwa [Buffer.bytes, State.powerOn_bytes h]

/-- Settles O28, by induction over the run: power-on meets the invariant, and each step keeps it and BUF_SIZE. -/
theorem everyRunFromPowerOnStaysGood : Obligations.EveryRunFromPowerOnStaysGood := by
  unfold Obligations.EveryRunFromPowerOnStaysGood
  intro c turns k t hc hrun
  have start : (State.powerOn c).Inv ∧ (State.powerOn c).buf.size.toNat = c.bufBytes :=
    ⟨State.powerOn_inv hc, State.powerOn_bytes hc⟩
  refine run_induction (P := fun s => s.Inv ∧ s.buf.size.toNat = c.bufBytes) ?_ k
    (s := { State.powerOn c with agenda := turns }) start hrun
  rintro s u ⟨hinv, hsize⟩ hnext
  obtain ⟨hkept, hkeep⟩ := step_keepsInv s u hnext
  exact ⟨hkeep hinv, hkept ▸ hsize⟩

end Sys2Proof.Machine
end

section
/-! PROOF. The host's accesses (10_state.md R21 to R33; 20_memory.md R50, R56; 70_reset_and_hazards.md R250). -/

namespace Sys2Proof.Machine

/-! ## What an access answers -/

section
variable {s : State} {rest : List Turn} {off : Nat} {slot : Slot} {v : Word}

/-- An access of the interface has its effect while BUSY = 0, and a read of STATUS at any time (R250). -/
theorem hostAccess_effect {a : HostAccess} (hcheck : a.check s.buf.bytes = none)
    (hallowed : s.busy = false ∨ a.isStatusRead = true) : hostAccess a s = .next (a.effect s) := by
  rcases hallowed with h | h <;> simp [hostAccess, hcheck, h]

/-- An access of the interface other than a read of STATUS is the hazard while BUSY = 1 (R250). -/
theorem hostAccess_hazard {a : HostAccess} (hcheck : a.check s.buf.bytes = none) (hbusy : s.busy = true)
    (hread : a.isStatusRead = false) : hostAccess a s = .fault .hostHazard := by
  simp [hostAccess, hcheck, hbusy, hread]

theorem HostAccess.check_readReg (hslot : slotAt off = some slot) (n : Nat) :
    (HostAccess.readReg off 4).check n = none := by
  simp [HostAccess.check, hslot]

theorem HostAccess.check_writeReg (hslot : slotAt off = some slot) (v : Word) (n : Nat) :
    (HostAccess.writeReg off 4 v).check n = none := by
  simp [HostAccess.check, hslot]

theorem HostAccess.check_readBuf {a n : Nat} (h : a < n) : (HostAccess.readBuf a 1).check n = none := by
  simp [HostAccess.check, h]

theorem HostAccess.check_writeBuf {a n : Nat} (h : a < n) (v : Byte) :
    (HostAccess.writeBuf a 1 v).check n = none := by
  simp [HostAccess.check, h]

/-! ## The host's turn, access by access -/

/-- A 32-bit register read answers what stands at the offset (R21, R31, R56). -/
theorem step_readReg (h : s.agenda = .host (.readReg off 4) :: rest) (hslot : slotAt off = some slot)
    (hallowed : s.busy = false ∨ slot = .reg .status) :
    step s = .next ({ s with agenda := rest }.recordRead (s.readSlot slot)) := by
  have hread : s.busy = false ∨ (HostAccess.readReg off 4).isStatusRead = true := by
    simpa [HostAccess.isStatusRead, hslot] using hallowed
  have heffect : (HostAccess.readReg off 4).effect { s with agenda := rest } =
      { s with agenda := rest }.recordRead (s.readSlot slot) := by
    simp only [HostAccess.effect, hslot, Option.getD_some]
    cases slot <;> rfl
  exact heffect ▸ (step_cons h).trans (hostAccess_effect (HostAccess.check_readReg hslot _) hread)

/-- A 32-bit register write while BUSY = 0 does what the slot at the offset says (R21, R31, R33). -/
theorem step_writeReg (h : s.agenda = .host (.writeReg off 4 v) :: rest) (hslot : slotAt off = some slot)
    (hidle : s.busy = false) : step s = .next ({ s with agenda := rest }.hostWriteSlot slot v) := by
  have heffect : (HostAccess.writeReg off 4 v).effect { s with agenda := rest } =
      { s with agenda := rest }.hostWriteSlot slot v := by
    simp only [HostAccess.effect, hslot, Option.getD_some]
  exact heffect ▸ (step_cons h).trans (hostAccess_effect (HostAccess.check_writeReg hslot v _) (.inl hidle))

/-- A 32-bit register write while BUSY = 1 is the hazard (R250). -/
theorem step_writeReg_busy (h : s.agenda = .host (.writeReg off 4 v) :: rest) (hslot : slotAt off = some slot)
    (hbusy : s.busy = true) : step s = .fault .hostHazard :=
  (step_cons h).trans (hostAccess_hazard (HostAccess.check_writeReg hslot v _) hbusy rfl)

/-- A one-byte BUF read while BUSY = 0 answers the byte (R50, R56). -/
theorem step_readBuf {a : Nat} (h : s.agenda = .host (.readBuf a 1) :: rest) (hin : a < s.buf.bytes)
    (hidle : s.busy = false) :
    step s = .next ({ s with agenda := rest }.recordRead ((s.buf.read a).setWidth 32)) :=
  (step_cons h).trans (hostAccess_effect (HostAccess.check_readBuf hin) (.inl hidle))

/-- A one-byte BUF write while BUSY = 0 stores the byte (R50). -/
theorem step_writeBuf {a : Nat} {v : Byte} (h : s.agenda = .host (.writeBuf a 1 v) :: rest) (hin : a < s.buf.bytes)
    (hidle : s.busy = false) : step s = .next ({ s with agenda := rest }.setBuf (s.buf.write a v)) :=
  (step_cons h).trans (hostAccess_effect (HostAccess.check_writeBuf hin v) (.inl hidle))

end

/-! ## A CMD write and the block's turn after it (R33, R74) -/

/-- A pending word that does not decode makes the block's turn raise IllegalCommand (R74). -/
theorem blockTurn_of_illegal {s : State} {e : DecodeError} (hbusy : s.busy = true)
    (hdecode : decode s.cmd = .error e) : blockTurn s = .next (s.fail .illegalCommand) :=
  (blockTurn_pending hbusy).trans (blockStep_of_illegal hdecode)

section
variable {s : State} {rest : List Turn} (h : s.agenda = .block :: rest) (hbusy : s.busy = true)
include h hbusy

/-- The block's turn runs a pending word that decodes (R62). -/
theorem step_block_of_decode {i : Instr} (hdecode : decode s.cmd = .ok i) :
    step s = exec i { s with agenda := rest } :=
  (step_cons h).trans (blockTurn_of_decode hbusy hdecode)

/-- The block's turn raises IllegalCommand on a pending word that does not decode (R74). -/
theorem step_block_of_illegal {e : DecodeError} (hdecode : decode s.cmd = .error e) :
    step s = .next ({ s with agenda := rest }.fail .illegalCommand) :=
  (step_cons h).trans (blockTurn_of_illegal hbusy hdecode)

end

/-- Settles O5: the CMD write is `State.startCommand`, and with BUSY = 1 the block's turn runs the word or raises. -/
theorem cmdWriteStartsTheCommand : Obligations.CmdWriteStartsTheCommand := by
  unfold Obligations.CmdWriteStartsTheCommand
  intro s w rest h
  have hslot : slotAt 0x00 = some (.reg .cmd) := rfl
  refine ⟨fun hidle => ⟨step_writeReg h hslot hidle, ?_⟩, step_writeReg_busy h hslot⟩
  rintro rest' rfl
  have pending : ({ s.startCommand w with agenda := .block :: rest' } : State).busy = true := s.startCommand_busy w
  exact ⟨fun _ hdecode => step_block_of_decode rfl pending hdecode,
    fun _ hdecode => step_block_of_illegal rfl pending hdecode⟩

/-! ## The register map (R21, R31) -/

/-- Settles O6: the list is the register map, and a read answers its slot. -/
theorem hostReadsReturnTheRegister : Obligations.HostReadsReturnTheRegister := by
  unfold Obligations.HostReadsReturnTheRegister
  intro s off v rest h hallowed hmem
  have hmap : (slotAt off).map s.readSlot = some v := by
    fin_cases hmem <;> rfl
  obtain ⟨slot, hslot, rfl⟩ := Option.map_eq_some_iff.1 hmap
  refine step_readReg h hslot (hallowed.imp_right ?_)
  rintro rfl
  exact (Option.some.inj hslot).symm

/-- At the RO offsets and the reserved words stands a slot that a write leaves alone (R21, R31). -/
theorem exists_slot_ignoring_writes {off : Nat} (h : off ∈ [0x04, 0x18, 0x1C, 0x2C, 0x30, 0x34, 0x38, 0x3C]) :
    ∃ slot, slotAt off = some slot ∧ ∀ s v, State.hostWriteSlot s slot v = s := by
  fin_cases h <;> exact ⟨_, rfl, fun _ _ => rfl⟩

/-- Settles O7: a write does what the slot at its offset says, and the RO and reserved ones ignore it. -/
theorem hostWritesStoreOrAreIgnored : Obligations.HostWritesStoreOrAreIgnored := by
  unfold Obligations.HostWritesStoreOrAreIgnored
  intro s off v rest h hidle
  have stores (slot : Slot) (hslot : slotAt off = some slot) :
      step s = .next ({ s with agenda := rest }.hostWriteSlot slot v) := step_writeReg h hslot hidle
  refine ⟨?_, ?_, ?_, ?_, ?_, ?_, ?_, fun hmem => ?_⟩
  · rintro rfl; exact stores (.reg .arg0) rfl
  · rintro rfl; exact stores (.reg .arg1) rfl
  · rintro rfl; exact stores (.reg .arg2) rfl
  · rintro rfl; exact stores (.reg .arg3) rfl
  · rintro rfl; exact stores (.reg .curBase) rfl
  · rintro rfl; exact stores (.reg .curPos) rfl
  · rintro rfl; exact stores (.reg .curLimit) rfl
  · obtain ⟨slot, hslot, hignores⟩ := exists_slot_ignoring_writes hmem
    rw [stores slot hslot, hignores]

/-- Settles O8: the write stores the one byte (`Buffer.writeBytes_spec` of a run of one), the read records it. -/
theorem hostBufAccessesReadAndWriteOneByte : Obligations.HostBufAccessesReadAndWriteOneByte := by
  unfold Obligations.HostBufAccessesReadAndWriteOneByte
  intro s a v rest hidle hin
  exact ⟨fun h => ⟨s.buf.write a v, step_writeBuf h hin hidle, Buffer.writeBytes_spec [v] s.buf a⟩,
    fun h => step_readBuf h hin hidle⟩

end Sys2Proof.Machine
end

section
/-! PROOF. What a command reads (30_encoding.md R75; 10_state.md R22, R24, R29): two states that agree on BUF and on the
operands of R75 see the same command do the same. -/

namespace Sys2Proof.Machine

/-! ## Effects -/

/-- What a command that succeeds stores: a new BUF and a new CUR_POS where it has one, and RES0 and RES1. -/
structure Effect where
  buf : Option Buffer
  pos : Option Nat
  res0 : Word
  res1 : Word

/-- The state after a success with this effect. -/
def Effect.on (x : Effect) (s : State) : State :=
  { s with
    buf := x.buf.getD s.buf, curPos := (x.pos.map word).getD s.curPos
    res0 := x.res0, res1 := x.res1, status := statusOk }

/-- A command's completion: an effect or a raise. -/
abbrev Completion := Except Raise Effect

/-- The state after a completion. -/
def Completion.on (k : Completion) (s : State) : State :=
  match k with
  | .ok x => x.on s
  | .error e => s.fail e

/-- A completion that moves the cursor is that of a command that uses it (R75). -/
def Completion.FitsCursorUse (k : Completion) (i : Instr) : Prop :=
  ∀ x, k = .ok x → i.usesCursor = false → x.pos = none

/-- `s'` has the BUF and the operands R75 lists for `i` that `s` has. -/
structure SameOperands (i : Instr) (s s' : State) : Prop where
  buf : s'.buf = s.buf
  arg0 : 1 ≤ i.argsRead → s'.arg0 = s.arg0
  arg1 : 2 ≤ i.argsRead → s'.arg1 = s.arg1
  arg2 : 3 ≤ i.argsRead → s'.arg2 = s.arg2
  arg3 : 4 ≤ i.argsRead → s'.arg3 = s.arg3
  cursor : i.usesCursor = true → s'.cursor = s.cursor

/-! ## Computations that complete alike -/

/-- The computations `r` from `s` and `r'` from `s'` have one completion, of the command `i`. -/
def Alike (i : Instr) (s s' : State) (r r' : Except Raise State) : Prop :=
  ∃ k : Completion, k.FitsCursorUse i ∧ finish s r = .next (k.on s) ∧ finish s' r' = .next (k.on s')

section
variable {i : Instr} {s s' : State} {α : Type}

theorem Alike.error (e : Raise) : Alike i s s' (.error e) (.error e) := ⟨.error e, nofun, rfl, rfl⟩

/-- A success that stores the results alone. -/
theorem Alike.succeed (r0 r1 : Word) : Alike i s s' (.ok (s.succeed r0 r1)) (.ok (s'.succeed r0 r1)) :=
  ⟨.ok ⟨none, none, r0, r1⟩, fun _ h _ => by cases h; rfl, rfl, rfl⟩

/-- A success that stores BUF. -/
theorem Alike.setBuf (b : Buffer) (r0 r1 : Word) :
    Alike i s s' (.ok ((s.setBuf b).succeed r0 r1)) (.ok ((s'.setBuf b).succeed r0 r1)) :=
  ⟨.ok ⟨some b, none, r0, r1⟩, fun _ h _ => by cases h; rfl, rfl, rfl⟩

/-- A success that moves the cursor. -/
theorem Alike.setPos (hcursor : i.usesCursor = true) (p : Nat) (r0 r1 : Word) :
    Alike i s s' (.ok ((s.setPos p).succeed r0 r1)) (.ok ((s'.setPos p).succeed r0 r1)) :=
  ⟨.ok ⟨none, some p, r0, r1⟩, fun _ _ h => by simp [hcursor] at h, rfl, rfl⟩

/-- A success that stores BUF and moves the cursor. -/
theorem Alike.setBuf_setPos (hcursor : i.usesCursor = true) (b : Buffer) (p : Nat) (r0 r1 : Word) :
    Alike i s s' (.ok (((s.setBuf b).setPos p).succeed r0 r1)) (.ok (((s'.setBuf b).setPos p).succeed r0 r1)) :=
  ⟨.ok ⟨some b, some p, r0, r1⟩, fun _ _ h => by simp [hcursor] at h, rfl, rfl⟩

theorem Alike.bind {x : Except Raise α} {f f' : α → Except Raise State} (hf : ∀ a, Alike i s s' (f a) (f' a)) :
    Alike i s s' (x >>= f) (x >>= f') := by
  cases x with
  | error e => exact .error e
  | ok a => exact hf a

theorem Alike.ite {p : Prop} [Decidable p] {a a' b b' : Except Raise State} (ha : Alike i s s' a a')
    (hb : Alike i s s' b b') : Alike i s s' (if p then a else b) (if p then a' else b') := by
  by_cases h : p
  · rwa [if_pos h, if_pos h]
  · rwa [if_neg h, if_neg h]

end

/-- A command's completion is fixed by BUF and by the operands R75 lists for it. -/
theorem exec_alike {i : Instr} {s s' : State} (h : SameOperands i s s') :
    ∃ k : Completion, k.FitsCursorUse i ∧ exec i s = .next (k.on s) ∧ exec i s' = .next (k.on s') := by
  obtain ⟨hbuf, h0, h1, h2, h3, hcur⟩ := h
  cases i with
  | readBit =>
    simp only [exec, execReadBit, hbuf, hcur rfl]
    exact Alike.bind fun _ => .setPos rfl ..
  | writeBit =>
    simp only [exec, execWriteBit, hbuf, hcur rfl, h0 le_rfl]
    exact Alike.bind fun _ => .setBuf_setPos rfl ..
  | readBits n =>
    simp only [exec, execReadBits, hbuf, hcur rfl]
    exact Alike.ite (.bind fun _ => .setPos rfl ..) (.error _)
  | writeBits n =>
    simp only [exec, execWriteBits, hbuf, hcur rfl, h0 le_rfl]
    exact Alike.ite (.bind fun _ => .setBuf_setPos rfl ..) (.error _)
  | readUe =>
    simp only [exec, execReadUe, hbuf, hcur rfl]
    exact Alike.bind fun _ => .setPos rfl ..
  | writeUe =>
    simp only [exec, execWriteUe, hbuf, hcur rfl, h0 le_rfl]
    exact Alike.bind fun _ => .setBuf_setPos rfl ..
  | readSe =>
    simp only [exec, execReadSe, hbuf, hcur rfl]
    exact Alike.bind fun _ => .setPos rfl ..
  | writeSe =>
    simp only [exec, execWriteSe, hbuf, hcur rfl, h0 le_rfl]
    exact Alike.bind fun _ => .setBuf_setPos rfl ..
  | findStartCode =>
    simp only [exec, execFindStartCode, hbuf, h0 (by decide), h1 (by decide)]
    refine Alike.bind fun _ => ?_
    split
    · exact .error _
    · exact .succeed ..
  | findSps =>
    simp only [exec, execFindSps, hbuf, h0 (by decide), h1 (by decide)]
    exact Alike.bind fun _ => .bind fun _ => .succeed ..
  | inspectProfile =>
    simp only [exec, execInspectProfile, hbuf, h0 (by decide), h1 (by decide)]
    exact Alike.bind fun _ => .bind fun _ => .succeed ..
  | fixCrop =>
    simp only [exec, execFixCrop, hbuf, h0 (by decide), h1 (by decide), h2 (by decide), h3 (by decide)]
    exact Alike.ite (.error _) (.bind fun _ => .bind fun _ => .setBuf ..)
  | fillerNal =>
    simp only [exec, execFillerNal, hbuf, h0 (by decide), h1 (by decide)]
    exact Alike.ite (.error _) (.bind fun _ => .setBuf ..)
  | pad =>
    simp only [exec, execPad, hbuf, h0 (by decide), h1 (by decide)]
    exact Alike.ite (.succeed ..) (.bind fun _ => .setBuf ..)

/-! ## The registers a completion does not store -/

/-- A completion leaves CMD as it is and does not read STATUS. -/
theorem Completion.on_withStatusCmd (k : Completion) (s : State) (st c : Word) :
    k.on { s with status := st, cmd := c } = { k.on s with cmd := c } := by
  cases k <;> rfl

/-- Settles O24: with another STATUS and CMD the operands of R75 are the same, so the completion is. -/
theorem commandsDoNotReadStatus : Obligations.CommandsDoNotReadStatus := by
  unfold Obligations.CommandsDoNotReadStatus
  intro i s st c
  have same : SameOperands i s { s with status := st, cmd := c } :=
    ⟨rfl, fun _ => rfl, fun _ => rfl, fun _ => rfl, fun _ => rfl, fun _ => rfl⟩
  obtain ⟨k, -, h, h'⟩ := exec_alike same
  exact ⟨k.on s, h, h'.trans (congrArg _ (k.on_withStatusCmd s st c))⟩

/-- Settles O23: with other values in the unread registers the operands of R75 are the same, so the completion is. -/
theorem unreadOperandsHaveNoEffect : Obligations.UnreadOperandsHaveNoEffect := by
  unfold Obligations.UnreadOperandsHaveNoEffect
  intro i s a0 a1 a2 a3 cb cp cl h0 h1 h2 h3 hcur
  set s' : State :=
    { s with arg0 := a0, arg1 := a1, arg2 := a2, arg3 := a3, curBase := cb, curPos := cp, curLimit := cl }
  have same : SameOperands i s s' := by
    refine ⟨rfl, h0, h1, h2, h3, fun hi => ?_⟩
    obtain ⟨hb, hp, hl⟩ := hcur hi
    simp [State.cursor, s', hb, hp, hl]
  obtain ⟨k, hk, h, h'⟩ := exec_alike same
  refine ⟨k.on s, h, h'.trans (congrArg _ ?_)⟩
  cases hi : i.usesCursor with
  | true =>
    obtain ⟨-, rfl, -⟩ := hcur hi
    cases k <;> rfl
  | false =>
    cases k with
    | error e => rfl
    | ok x => simp [Completion.on, Effect.on, s', hk x rfl hi]

end Sys2Proof.Machine
end

section
/-! PROOF. A cursor command that succeeds moves CUR_POS by the bits it touched (10_state.md R26). -/

namespace Sys2Proof.Machine

/-! ## Computations that move a cursor -/

/-- When `x`, run on `b` from `c`, succeeds, it has moved the cursor by `n` bits that are in bounds. -/
def MovesBy {α : Type} (b : Buffer) (c : Cursor) (n : Nat) (x : Except Raise (α × Cursor)) : Prop :=
  ∀ a c', x = .ok (a, c') → c.Fits b.bytes n ∧ c' = c.advance n

section
variable {α : Type} {b : Buffer} {c : Cursor} {n : Nat}

theorem MovesBy.ok {a : α} (h : c.Fits b.bytes n) : MovesBy b c n (.ok (a, c.advance n)) := by
  rintro _ _ ⟨rfl, rfl⟩
  exact ⟨h, rfl⟩

theorem MovesBy.error (e : Raise) : MovesBy (α := α) b c n (.error e) := nofun

theorem cursorReadBit_movesBy (b : Buffer) (c : Cursor) : MovesBy b c 1 (cursorReadBit b c) := by
  rcases cursorReadBit_cases b c with ⟨hf, h⟩ | ⟨-, h⟩
  · exact h ▸ .ok hf
  · exact h ▸ .error _

theorem cursorReadBits_movesBy (b : Buffer) (c : Cursor) (n : Nat) : MovesBy b c n (cursorReadBits b c n) := by
  rcases cursorReadBits_cases b c n with ⟨hf, h⟩ | ⟨-, h⟩
  · exact h ▸ .ok hf
  · exact h ▸ .error _

theorem readUE_movesBy (b : Buffer) (c : Cursor) : ∃ n, MovesBy b c n (readUE b c) := by
  rcases readUE_cases b c with ⟨v, -, hf, -, h⟩ | h
  · exact ⟨_, by rw [h]; exact .ok hf⟩
  · exact ⟨0, h ▸ .error _⟩

theorem readSE_movesBy (b : Buffer) (c : Cursor) : ∃ n, MovesBy b c n (readSE b c) := by
  rcases readSE_cases b c with ⟨v, -, hf, -, h⟩ | h
  · exact ⟨_, by rw [h]; exact .ok hf⟩
  · exact ⟨0, h ▸ .error _⟩

theorem Writes.movesBy {p : Buffer → Cursor → Except Raise (Buffer × Cursor)} {bits : List Bool}
    (h : Writes p bits) (b : Buffer) (c : Cursor) : MovesBy b c bits.length (p b c) := by
  rcases h b c with ⟨hf, b', e, -⟩ | ⟨-, e⟩
  · exact e ▸ .ok hf
  · exact e ▸ .error _

theorem cursorWriteBits_movesBy (b : Buffer) (c : Cursor) (n v : Nat) : MovesBy b c n (cursorWriteBits b c n v) := by
  simpa using (writes_bits n v).movesBy b c

theorem writeUE_movesBy (b : Buffer) (c : Cursor) (v : Nat) : ∃ n, MovesBy b c n (writeUE b c v) := by
  by_cases hv : UeRange v
  · exact ⟨_, (writes_ue hv).movesBy b c⟩
  · exact ⟨0, writeUE_range hv ▸ .error _⟩

theorem writeSE_movesBy (b : Buffer) (c : Cursor) (v : Int) : ∃ n, MovesBy b c n (writeSE b c v) := by
  unfold writeSE
  split
  · exact ⟨0, .error _⟩
  · exact writeUE_movesBy b c _

end

/-! ## CUR_POS and RES1 -/

/-- Bits in bounds of a BUF of at most 2^28 bytes end below 2^32 (R8, R26). -/
theorem Cursor.Fits.end_lt {c : Cursor} {b : Buffer} {n : Nat} (h : c.Fits b.bytes n) (hwf : b.Wf)
    (hpos : c.pos < 2 ^ 32) : c.pos + n < 2 ^ 32 := by
  obtain ⟨-, -, -, hmax⟩ := hwf
  rcases h with rfl | ⟨-, hlast⟩ <;> omega

/-- When the computation succeeds, CUR_POS is that of `s` plus RES1, without wrapping. -/
def AdvancesByRes1 (s : State) (r : Except Raise State) : Prop :=
  ∀ t, r = .ok t → t.curPos.toNat = s.curPos.toNat + t.res1.toNat

theorem AdvancesByRes1.error {s : State} (e : Raise) : AdvancesByRes1 s (.error e) := nofun

theorem AdvancesByRes1.ite {s : State} {p : Prop} [Decidable p] {x y : Except Raise State} (hx : AdvancesByRes1 s x)
    (hy : AdvancesByRes1 s y) : AdvancesByRes1 s (if p then x else y) := by
  split
  · exact hx
  · exact hy

/-- A cursor function that moves by `n`, followed by storing its cursor's position and `n` in CUR_POS and RES1. -/
theorem MovesBy.advancesByRes1 {α : Type} {s : State} {n : Nat} {x : Except Raise (α × Cursor)}
    {f : α × Cursor → Except Raise State} (hx : MovesBy s.buf s.cursor n x) (hwf : s.buf.Wf)
    (hf : ∀ a, ∃ t, f (a, s.cursor.advance n) = .ok t ∧ t.curPos = word (s.cursor.pos + n) ∧ t.res1 = word n) :
    AdvancesByRes1 s (x >>= f) := by
  intro t h
  obtain ⟨⟨a, c'⟩, hok, hft⟩ := except_bind_eq_ok.1 h
  obtain ⟨hfits, rfl⟩ := hx a c' hok
  obtain ⟨_, ht, hcurPos, hres1⟩ := hf a
  cases ht.symm.trans hft
  have hend : s.curPos.toNat + n < 2 ^ 32 := hfits.end_lt hwf s.curPos.isLt
  have hn : n < 2 ^ 32 := by omega
  rw [hcurPos, hres1, State.cursor_pos, word, word, BitVec.toNat_ofNat, BitVec.toNat_ofNat, Nat.mod_eq_of_lt hend,
    Nat.mod_eq_of_lt hn]

/-- A command whose STATUS is 0 has not raised. -/
theorem AdvancesByRes1.finish {s t : State} {r : Except Raise State} (hr : AdvancesByRes1 s r)
    (h : Sys2Proof.Machine.finish s r = .next t) (hstatus : t.status = 0#32) :
    t.curPos.toNat = s.curPos.toNat + t.res1.toNat := by
  rcases finish_cases s r with ⟨u, hok, hu⟩ | ⟨e, -, he⟩
  · cases hu.symm.trans h
    exact hr t hok
  · cases he.symm.trans h
    have herr := statusOfRaise_errBit e
    rw [← s.fail_status e, hstatus] at herr
    exact absurd herr (by decide)

/-- The bits counted by the cursor's two positions (R125 to R128). -/
theorem word_advance_sub (c : Cursor) (n : Nat) : word ((c.advance n).pos - c.pos) = word n :=
  congrArg word (Nat.add_sub_cancel_left c.pos n)

/-- Settles O25: each cursor command moves by bits in bounds and stores their number in RES1. -/
theorem cursorAdvancesByTheBitsTouched : Obligations.CursorAdvancesByTheBitsTouched := by
  unfold Obligations.CursorAdvancesByTheBitsTouched
  intro i s t hi hwf hexec hstatus
  cases i with
  | readBit =>
    exact ((cursorReadBit_movesBy _ _).advancesByRes1 hwf fun _ => ⟨_, rfl, rfl, rfl⟩).finish hexec hstatus
  | writeBit =>
    exact (((writes_bit _).movesBy _ _).advancesByRes1 hwf fun _ => ⟨_, rfl, rfl, rfl⟩).finish hexec hstatus
  | readBits n =>
    exact (AdvancesByRes1.ite ((cursorReadBits_movesBy _ _ _).advancesByRes1 hwf fun _ => ⟨_, rfl, rfl, rfl⟩)
      (.error _)).finish hexec hstatus
  | writeBits n =>
    exact (AdvancesByRes1.ite ((cursorWriteBits_movesBy _ _ _ _).advancesByRes1 hwf fun _ => ⟨_, rfl, rfl, rfl⟩)
      (.error _)).finish hexec hstatus
  | readUe =>
    obtain ⟨n, hn⟩ := readUE_movesBy s.buf s.cursor
    exact (hn.advancesByRes1 hwf fun _ => ⟨_, rfl, rfl, word_advance_sub s.cursor n⟩).finish hexec hstatus
  | writeUe =>
    obtain ⟨n, hn⟩ := writeUE_movesBy s.buf s.cursor (u32 s.arg0)
    exact (hn.advancesByRes1 hwf fun _ => ⟨_, rfl, rfl, word_advance_sub s.cursor n⟩).finish hexec hstatus
  | readSe =>
    obtain ⟨n, hn⟩ := readSE_movesBy s.buf s.cursor
    exact (hn.advancesByRes1 hwf fun _ => ⟨_, rfl, rfl, word_advance_sub s.cursor n⟩).finish hexec hstatus
  | writeSe =>
    obtain ⟨n, hn⟩ := writeSE_movesBy s.buf s.cursor (s32 s.arg0)
    exact (hn.advancesByRes1 hwf fun _ => ⟨_, rfl, rfl, word_advance_sub s.cursor n⟩).finish hexec hstatus
  | _ => cases hi

end Sys2Proof.Machine
end

section
/-! PROOF. The host's own address map (20_memory.md R51). -/

namespace Sys2Proof.Machine

section
variable {m : MappedAccess}

/-- A turn at an address of the host's map is the turn of the access it stands for. -/
theorem step_hostAt_of_resolve {a : HostAccess} (h : m.resolve = some a) (s : State) (rest : List Turn) :
    step { s with agenda := .hostAt m :: rest } = step { s with agenda := .host a :: rest } := by
  rw [step_cons rfl, step_cons rfl]
  simp [runTurn, mappedAccess, h]

/-- A turn at an address that is not the block's is used up and does nothing (log 8). -/
theorem step_hostAt_of_unplaced (h : m.resolve = none) (s : State) (rest : List Turn) :
    step { s with agenda := .hostAt m :: rest } = .next { s with agenda := rest } := by
  rw [step_cons rfl]
  simp [runTurn, mappedAccess, h]

end

/-- Settles O11: HOST_MAP's answer for the address decides what the access resolves to. -/
theorem mappedAccessesDoWhatTheirPlaceDoes : Obligations.MappedAccessesDoWhatTheirPlaceDoes := by
  unfold Obligations.MappedAccessesDoWhatTheirPlaceDoes
  refine fun s h w v rest =>
    ⟨fun off hmap => ⟨step_hostAt_of_resolve ?_ s rest, step_hostAt_of_resolve ?_ s rest⟩,
      fun a hmap => ⟨step_hostAt_of_resolve ?_ s rest, step_hostAt_of_resolve ?_ s rest⟩,
      fun hmap => ⟨step_hostAt_of_unplaced ?_ s rest, step_hostAt_of_unplaced ?_ s rest⟩⟩ <;>
    simp only [MappedAccess.resolve, hmap]

end Sys2Proof.Machine
end

section
/-! PROOF. A command completes or raises in one transition (20_memory.md R57; 10_state.md R14, R22, R24, R26). -/

namespace Sys2Proof.Machine

/-! ## What a write of BUF leaves -/

/-- `b'` has the size and the power-on epoch of `b`; their bytes may differ. -/
def Buffer.SameSizeEpoch (b b' : Buffer) : Prop := b'.size = b.size ∧ b'.epoch = b.epoch

theorem Buffer.SameSizeEpoch.refl (b : Buffer) : b.SameSizeEpoch b := ⟨rfl, rfl⟩

section
variable (b : Buffer) (c : Cursor)

theorem Writes.sameSizeEpoch {p : Buffer → Cursor → Except Raise (Buffer × Cursor)} {bits : List Bool}
    (h : Writes p bits) : EndsWell (p b c) fun x => b.SameSizeEpoch x.1 := by
  rcases h b c with ⟨-, b', e, ⟨hsize, hepoch, -, -⟩, -⟩ | ⟨-, e⟩
  · exact e ▸ .ok ⟨hsize, hepoch⟩
  · exact e ▸ .error trivial

theorem writeUE_sameSizeEpoch (v : Nat) : EndsWell (writeUE b c v) fun x => b.SameSizeEpoch x.1 := by
  by_cases hv : UeRange v
  · exact (writes_ue hv).sameSizeEpoch b c
  · exact writeUE_range hv ▸ .error trivial

theorem writeSE_sameSizeEpoch (v : Int) : EndsWell (writeSE b c v) fun x => b.SameSizeEpoch x.1 :=
  .ite (fun _ => .error trivial) fun _ => writeUE_sameSizeEpoch b c _

theorem placeFiller_sameSizeEpoch (a n : Nat) : EndsWell (placeFiller b a n) b.SameSizeEpoch :=
  .ite (fun _ => .error trivial) fun _ =>
    have ⟨hsize, hepoch, _⟩ := Buffer.writeBytes_spec (fillerBytes n) b a
    .ok ⟨hsize, hepoch⟩

end

/-! ## The one transition of a command -/

/-- `t` is `s` with at most BUF's bytes, CUR_POS, RES0 and RES1 written and a STATUS of 0. -/
def Succeeds (s t : State) : Prop :=
  ∃ b p r0 r1, s.buf.SameSizeEpoch b ∧ t = { s with buf := b, curPos := p, res0 := r0, res1 := r1, status := statusOk }

/-- The outcome is a success from `s`, or a raise that changes STATUS only. -/
def Atomic (s : State) (o : Host.Outcome State Fault Refusal) : Prop :=
  (∃ t, Succeeds s t ∧ o = .next t) ∨ ∃ e : Raise, o = .next (s.fail e)

theorem EndsWell.atomic {s : State} {r : Except Raise State} (h : EndsWell r (Succeeds s)) :
    Atomic s (Sys2Proof.Machine.finish s r) := by
  rcases h with ⟨t, rfl, ht⟩ | ⟨e, rfl, -⟩
  · exact .inl ⟨t, ht, rfl⟩
  · exact .inr ⟨e, rfl⟩

section
variable {s : State} {b : Buffer}

/-- A success that stores results, and a BUF of the same size and epoch. -/
theorem Buffer.SameSizeEpoch.succeeds (h : s.buf.SameSizeEpoch b) (r0 r1 : Word) :
    EndsWell (.ok ((s.setBuf b).succeed r0 r1)) (Succeeds s) := .ok ⟨b, s.curPos, r0, r1, h, rfl⟩

/-- The same of a command that moves the cursor. -/
theorem Buffer.SameSizeEpoch.succeeds_setPos (h : s.buf.SameSizeEpoch b) (p : Nat) (r0 r1 : Word) :
    EndsWell (.ok (((s.setBuf b).setPos p).succeed r0 r1)) (Succeeds s) := .ok ⟨b, word p, r0, r1, h, rfl⟩

end

theorem exec_atomic (i : Instr) (s : State) : Atomic s (exec i s) := by
  have same : s.buf.SameSizeEpoch s.buf := .refl s.buf
  cases i with
  | readBit => exact EndsWell.atomic ((cursorReadBit_endsWell _ _).bind fun _ _ => same.succeeds_setPos ..)
  | writeBit => exact EndsWell.atomic (((writes_bit _).sameSizeEpoch _ _).bind fun _ h => h.succeeds_setPos ..)
  | readBits n =>
    exact EndsWell.atomic (.ite (fun _ => (cursorReadBits_endsWell _ _ _).bind fun _ _ => same.succeeds_setPos ..)
      fun _ => .error trivial)
  | writeBits n =>
    exact EndsWell.atomic (.ite (fun _ => ((writes_bits _ _).sameSizeEpoch _ _).bind fun _ h => h.succeeds_setPos ..)
      fun _ => .error trivial)
  | readUe => exact EndsWell.atomic ((readUE_endsWell _ _).bind fun _ _ => same.succeeds_setPos ..)
  | writeUe => exact EndsWell.atomic ((writeUE_sameSizeEpoch _ _ _).bind fun _ h => h.succeeds_setPos ..)
  | readSe => exact EndsWell.atomic ((readSE_endsWell _ _).bind fun _ _ => same.succeeds_setPos ..)
  | writeSe => exact EndsWell.atomic ((writeSE_sameSizeEpoch _ _ _).bind fun _ h => h.succeeds_setPos ..)
  | findStartCode =>
    refine EndsWell.atomic ((checkEnd_endsWell _ _).bind fun _ _ => ?_)
    split
    · exact .error trivial
    · exact same.succeeds ..
  | findSps =>
    exact EndsWell.atomic ((checkEnd_endsWell _ _).bind fun _ _ =>
      (findSps_endsWell _ _ _).bind fun _ _ => same.succeeds ..)
  | inspectProfile =>
    exact EndsWell.atomic ((checkEnd_endsWell _ _).bind fun _ _ =>
      (inspectProfile_endsWell _ _ _).bind fun _ _ => same.succeeds ..)
  | fixCrop =>
    exact EndsWell.atomic (.ite (fun _ => .error trivial) fun _ => (parseSps_endsWell _ _).bind fun p _ =>
      ((writes_crop (cropValues_legal _ _ _) p.vui).sameSizeEpoch _ _).bind fun _ h => h.succeeds ..)
  | fillerNal =>
    exact EndsWell.atomic (.ite (fun _ => .error trivial) fun _ =>
      (placeFiller_sameSizeEpoch _ _ _).bind fun _ h => h.succeeds ..)
  | pad =>
    exact EndsWell.atomic (.ite (fun _ => same.succeeds ..) fun _ =>
      (placeFiller_sameSizeEpoch _ _ _).bind fun _ h => h.succeeds ..)

/-- Settles O19: a command's computation stores what a success may store, or raises. -/
theorem everyCommandIsAtomic : Obligations.EveryCommandIsAtomic := by
  unfold Obligations.EveryCommandIsAtomic
  intro i s
  rcases exec_atomic i s with ⟨_, ⟨b, p, r0, r1, ⟨hsize, hepoch⟩, rfl⟩, h⟩ | ⟨e, h⟩
  · exact .inl ⟨b, p, r0, r1, hsize, hepoch, h⟩
  · exact .inr ⟨e, h⟩

end Sys2Proof.Machine
end

section
/-! PROOF. The command word: the decoder against the encoder and against R73 (30_encoding.md R70 to R73). -/

namespace Sys2Proof

/-! ## Decoding a command's own word (R70 to R72) -/

section
variable {w : Word} {i : Instr}

theorem encode_fields (i : Instr) : Laws.EncodingFields.Statement i := fields_of_word _ _

/-- The word of a command is N * 256 + OP (R70). -/
theorem encode_toNat (i : Instr) : (encode i).toNat = i.count.toNat * 256 + i.opcode.toNat := by
  obtain ⟨hop, hn, hrsvd⟩ := encode_fields i
  simp [word_of_fields (encode i), hop, hn, hrsvd]

/-- A word is a command's own exactly when its bits above OP are the bit count and OP is the opcode (R70). -/
theorem eq_encode_iff : w = encode i ↔ w.toNat / 256 = i.count.toNat ∧ w.toNat % 256 = i.opcode.toNat := by
  have hop := i.opcode.isLt
  rw [← BitVec.toNat_inj, encode_toNat]
  omega

theorem decode_encode (h : i.wf = true) : decode (encode i) = .ok i := by
  obtain ⟨hop, hn, hrsvd⟩ := encode_fields i
  rw [decode, if_pos hrsvd, hop, hn, decodeOp_self h]

/-- A word that decodes has 0 in RSVD, and its OP and N are read by the opcode map (R72). -/
theorem decode_ok (h : decode w = .ok i) : rsvdField w = 0#18 ∧ decodeOp (opField w) (nField w) = .ok i := by
  unfold decode at h
  split at h
  · next hrsvd => exact ⟨hrsvd, h⟩
  · cases h

/-- The words that decode to a command: its own word, when the command is legal, and no other (R72). -/
theorem decode_eq_ok_iff : decode w = .ok i ↔ i.wf = true ∧ w = encode i := by
  constructor
  · intro h
    obtain ⟨hrsvd, hmap⟩ := decode_ok h
    obtain ⟨hwf, hn, hop⟩ := decodeOp_ok hmap
    refine ⟨hwf, BitVec.eq_of_toNat_eq ?_⟩
    simp [word_of_fields w, hrsvd, hn, hop, encode_toNat]
  · rintro ⟨hwf, rfl⟩
    exact decode_encode hwf

end

/-- Settles O15: the word's fields are the command's opcode and bit count, and the opcode map answers the command. -/
theorem decodeUndoesEncode : Obligations.DecodeUndoesEncode := by
  unfold Obligations.DecodeUndoesEncode
  exact fun _ hwf => decode_encode hwf

/-- Settles O16: a word is made up of its fields, and those of one that decodes are the command's. -/
theorem onlyTheEncodingDecodes : Obligations.OnlyTheEncodingDecodes := by
  unfold Obligations.OnlyTheEncodingDecodes
  intro w i h
  obtain ⟨hwf, rfl⟩ := decode_eq_ok_iff.1 h
  refine ⟨hwf, ?_⟩
  rw [← encode_toNat, BitVec.ofNat_toNat, BitVec.setWidth_eq]

/-- Settles O18: the sample words are closed, so the decoder is run on each. -/
theorem sampleWordsDecode : Obligations.SampleWordsDecode := by
  unfold Obligations.SampleWordsDecode
  decide

/-! ## Illegal words (R73) -/

/-- The commands of format C0 (R71, R72). -/
def c0Commands : List Instr :=
  [.readBit, .writeBit, .readUe, .writeUe, .readSe, .writeSe, .findStartCode, .findSps, .inspectProfile, .fixCrop,
    .fillerNal, .pad]

theorem wf_and_count_of_mem_c0Commands : ∀ i ∈ c0Commands, i.wf = true ∧ i.count = 0#6 := by decide

/-- A command is of format C0, or it is READ_BITS or WRITE_BITS (R72). -/
theorem mem_c0Commands_or (i : Instr) : i ∈ c0Commands ∨ ∃ n, i = .readBits n ∨ i = .writeBits n := by
  cases i with
  | readBits n => exact .inr ⟨n, .inl rfl⟩
  | writeBits n => exact .inr ⟨n, .inr rfl⟩
  | _ => exact .inl (by decide)

/-- The opcodes of format C0 (R72). -/
theorem exists_c0Command_iff (op : Nat) :
    (∃ i ∈ c0Commands, op = i.opcode.toNat) ↔
      op ∈ [0x01, 0x02, 0x05, 0x06, 0x07, 0x08, 0x10, 0x11, 0x12, 0x18, 0x20, 0x21] := by
  simp [c0Commands, Instr.opcode]

/-- The legal words by their numbers: an opcode of format C0 alone, or 0x03 or 0x04 below an N of at most 32 (R71 to
R73). -/
theorem exists_decode_eq_ok_iff (w : Word) :
    (∃ i, decode w = .ok i) ↔
      (w.toNat / 256 = 0 ∧ ∃ i ∈ c0Commands, w.toNat % 256 = i.opcode.toNat) ∨
        (w.toNat / 256 ≤ 32 ∧ (w.toNat % 256 = 0x03 ∨ w.toNat % 256 = 0x04)) := by
  simp only [decode_eq_ok_iff, eq_encode_iff]
  constructor
  · rintro ⟨i, hwf, hn, hop⟩
    rw [hn, hop]
    rcases mem_c0Commands_or i with hmem | ⟨n, rfl | rfl⟩
    · obtain ⟨-, hcount⟩ := wf_and_count_of_mem_c0Commands i hmem
      exact .inl ⟨congrArg BitVec.toNat hcount, i, hmem, rfl⟩
    · exact .inr ⟨of_decide_eq_true hwf, .inl rfl⟩
    · exact .inr ⟨of_decide_eq_true hwf, .inr rfl⟩
  · rintro (⟨hn, i, hmem, hop⟩ | ⟨hn, hop⟩)
    · obtain ⟨hwf, hcount⟩ := wf_and_count_of_mem_c0Commands i hmem
      exact ⟨i, hwf, hn.trans (congrArg BitVec.toNat hcount).symm, hop⟩
    · obtain ⟨n, hcount⟩ : ∃ n : BitVec 6, w.toNat / 256 = n.toNat :=
        ⟨BitVec.ofNat 6 (w.toNat / 256), (Nat.mod_eq_of_lt (by omega)).symm⟩
      have hwf : decide (n.toNat ≤ 32) = true := decide_eq_true (hcount ▸ hn)
      rcases hop with hop | hop
      · exact ⟨.readBits n, hwf, hcount, hop⟩
      · exact ⟨.writeBits n, hwf, hcount, hop⟩

/-- The decoder answers for every word: it rejects those it does not decode. -/
theorem exists_decode_eq_error_iff (w : Word) : (∃ e, decode w = .error e) ↔ ¬ ∃ i, decode w = .ok i := by
  cases decode w <;> simp

/-- Settles O17: the words that decode are known by their numbers, and R73's four cases are the others. -/
theorem illegalWordsAreExactlyTheReservedOnes : Obligations.IllegalWordsAreExactlyTheReservedOnes := by
  unfold Obligations.IllegalWordsAreExactlyTheReservedOnes
  intro w
  rw [exists_decode_eq_error_iff, exists_decode_eq_ok_iff, exists_c0Command_iff]
  simp only [List.mem_cons, List.not_mem_nil, or_false]
  omega

end Sys2Proof
end

section
/-! PROOF. Illegal words, polls, and the programs of a host that polls after every command (30_encoding.md R74, R77,
R78; 70_reset_and_hazards.md R246). -/

namespace Sys2Proof.Machine

/-! ## Illegal words (R74) -/

/-- The STATUS of IllegalCommand (R211, R213). -/
theorem State.fail_illegalCommand (s : State) : s.fail .illegalCommand = { s with status := 0x00000062#32 } := rfl

/-- Settles O13: the block's turn on a word that does not decode is `State.fail`, whoever gave it the turn. -/
theorem illegalWordChangesStatusOnly : Obligations.IllegalWordChangesStatusOnly := by
  unfold Obligations.IllegalWordChangesStatusOnly
  intro s e hbusy hdecode
  simp only [← State.fail_illegalCommand]
  exact ⟨fun hnil => (step_nil hnil).trans (blockTurn_of_illegal hbusy hdecode),
    fun _ hcons => step_block_of_illegal hcons hbusy hdecode⟩

/-! ## The turn that completes a command (R57, R77) -/

@[simp] theorem State.fail_busy (s : State) (e : Raise) : (s.fail e).busy = false := statusOfRaise_busyBit e

/-- A command leaves the block idle (R57, R213). -/
theorem exec_idle {i : Instr} {s t : State} (h : exec i s = .next t) : t.busy = false := by
  rcases exec_atomic i s with ⟨u, ⟨b, p, r0, r1, -, rfl⟩, hu⟩ | ⟨e, he⟩
  · cases h.symm.trans hu
    exact s.succeed_busy r0 r1
  · cases h.symm.trans he
    exact s.fail_busy e

/-- `u` is what the block's turn makes of `s` when it completes the pending command. -/
structure CompletesTo (s u : State) : Prop where
  idle : u.busy = false
  size : u.buf.size = s.buf.size
  /-- the turn leaves what is still to come and what has been read, and does not depend on them -/
  turn : ∀ ts rs, blockTurn (s.withTurns ts rs) = .next (u.withTurns ts rs)

/-- The block's turn completes any pending command, legal or not (R74, R256). -/
theorem exists_completesTo {s : State} (hbusy : s.busy = true) : ∃ u, CompletesTo s u := by
  cases hdecode : decode s.cmd with
  | error e => exact ⟨s.fail .illegalCommand, s.fail_busy _, rfl, fun ts rs =>
      blockTurn_of_illegal (s := s.withTurns ts rs) hbusy hdecode⟩
  | ok i =>
    obtain ⟨u, hu, -⟩ := exec_withTurns i s [] []
    obtain ⟨hsize, -⟩ := exec_keepsInv i s u hu
    refine ⟨u, exec_idle hu, hsize, fun ts rs => ?_⟩
    obtain ⟨t, ht, hturns, -⟩ := exec_withTurns i s ts rs
    cases hu.symm.trans ht
    exact (blockTurn_of_decode (s := s.withTurns ts rs) hbusy hdecode).trans hturns

/-! ## Polls (R77) -/

/-- A run whose first step has a next state goes on from there. -/
theorem run_succ {s u : State} (h : step s = .next u) (k : Nat) : core.run (k + 1) s = core.run k u := by
  have hcore : core.step s = .next u := h
  simp only [Host.Core.run, hcore]

section
variable {s u : State} {rest : List Turn} {rs : List Word}

/-- A poll that finds BUSY = 0 is one read of STATUS. -/
theorem step_poll_idle (n : Nat) (h : s.busy = false) :
    step (s.withTurns (.poll n :: rest) rs) = .next (s.withTurns rest (s.status :: rs)) :=
  pollTurn_idle (s := s.withTurns rest rs) n h

/-- A poll that finds BUSY = 1 with reads still to come reads the busy STATUS and goes on. -/
theorem step_poll_succ (n : Nat) (h : s.busy = true) :
    step (s.withTurns (.poll (n + 1) :: rest) rs) = .next (s.withTurns (.poll n :: rest) (s.status :: rs)) :=
  pollTurn_succ (s := s.withTurns rest rs) n h

/-- A poll with no busy read left gives the block its turn and goes on. -/
theorem step_poll_zero (hbusy : s.busy = true) (h : CompletesTo s u) :
    step (s.withTurns (.poll 0 :: rest) rs) = .next (u.withTurns (.poll 0 :: rest) rs) :=
  (pollTurn_zero (s := s.withTurns rest rs) hbusy).trans (h.turn _ _)

/-- A poll of a pending command: `n` reads of the busy STATUS, the block's turn, one read of the new STATUS. -/
theorem run_poll_withTurns (n : Nat) (hbusy : s.busy = true) (h : CompletesTo s u) :
    core.run (n + 2) (s.withTurns (.poll n :: rest) rs) =
      .next (u.withTurns rest (u.status :: (List.replicate n s.status ++ rs))) := by
  induction n generalizing rs with
  | zero =>
    rw [run_succ (step_poll_zero hbusy h), run_succ (step_poll_idle 0 h.idle)]
    rfl
  | succ n ih =>
    rw [run_succ (step_poll_succ n hbusy), ih, List.replicate_succ', List.append_assoc]
    rfl

/-- The same from a state whose first turn is the poll. -/
theorem run_poll {n : Nat} (h : s.agenda = .poll n :: rest) (hbusy : s.busy = true) (hu : CompletesTo s u) :
    core.run (n + 2) s = .next (u.withTurns rest (u.status :: (List.replicate n s.status ++ s.reads))) := by
  have hrun := run_poll_withTurns (rest := rest) (rs := s.reads) n hbusy hu
  rw [← h] at hrun
  exact hrun

end

/-- Settles O53, by induction on the number of busy reads; what the block's turn does is the same in a poll as on its
own, since no command reads the agenda or the reads. -/
theorem pollReadsStatusUntilIdle : Obligations.PollReadsStatusUntilIdle := by
  unfold Obligations.PollReadsStatusUntilIdle
  refine fun s n rest h => ⟨fun hidle => (step_cons h).trans (pollTurn_idle n hidle), fun hbusy => ?_⟩
  obtain ⟨u, hu⟩ := exists_completesTo hbusy
  exact ⟨u.withTurns rest s.reads, hu.turn rest s.reads, hu.idle, rfl, rfl, run_poll (u := u) h hbusy hu⟩

/-! ## Disciplined programs (R246, R250) -/

theorem slotAt_offset (r : Reg) : slotAt r.offset = some (.reg r) := by
  cases r <;> rfl

/-- A register write leaves the turns to come and BUF_SIZE, and makes a command pending when the register is CMD
(R33). -/
theorem hostWriteSlot_reg (s : State) (r : Reg) (v : Word) :
    (s.hostWriteSlot (.reg r) v).agenda = s.agenda ∧ (s.hostWriteSlot (.reg r) v).buf.size = s.buf.size ∧
      (s.hostWriteSlot (.reg r) v).busy = (decide (r = .cmd) || s.busy) := by
  cases r with
  | cmd => exact ⟨rfl, rfl, s.startCommand_busy v⟩
  | _ => exact ⟨rfl, rfl, rfl⟩

/-- The turns of the lines `ls`, of which line `k` has `busyReads k` for a poll. -/
def lineTurns (busyReads : Nat → Nat) (ls : List HostLine) : List Turn :=
  ls.mapIdx fun k l => l.turn (busyReads k)

theorem programTurns_eq (busyReads : Nat → Nat) (p : List HostMacro) :
    programTurns busyReads p = lineTurns busyReads (programLines p) := rfl

theorem lineTurns_cons (busyReads : Nat → Nat) (l : HostLine) (ls : List HostLine) :
    lineTurns busyReads (l :: ls) = l.turn (busyReads 0) :: lineTurns (fun k => busyReads (k + 1)) ls :=
  List.mapIdx_cons

/-- From `s` the machine runs to a state with the turns `rest` to come, BUF_SIZE as it was, and BUSY as the lines `ls`
that are left need it to be disciplined. -/
def ReachesLines (s : State) (rest : List Turn) (ls : List HostLine) : Prop :=
  ∃ k u, core.run k s = .next u ∧ u.agenda = rest ∧ u.buf.size = s.buf.size ∧
    disciplined s.buf.size.toNat u.busy ls = true

/-- One step is a run. -/
theorem ReachesLines.of_step {s u : State} {rest : List Turn} {ls : List HostLine} (h : step s = .next u)
    (hagenda : u.agenda = rest) (hsize : u.buf.size = s.buf.size)
    (hrest : disciplined s.buf.size.toNat u.busy ls = true) : ReachesLines s rest ls :=
  ⟨1, u, run_succ h 0, hagenda, hsize, hrest⟩

/-- A register write while BUSY = 0 leaves a command pending exactly when the register is CMD. -/
theorem reachesLines_of_write {s : State} {ls : List HostLine} {rest : List Turn} {r : Reg} {v : Word}
    (h : s.agenda = writeRegTurn r v :: rest) (hidle : s.busy = false)
    (hd : disciplined s.buf.size.toNat (decide (r = .cmd)) ls = true) : ReachesLines s rest ls := by
  obtain ⟨hagenda, hsize, hbusy⟩ := hostWriteSlot_reg { s with agenda := rest } r v
  have pending : (decide (r = .cmd) || s.busy) = decide (r = .cmd) := by rw [hidle, Bool.or_false]
  exact .of_step (step_writeReg h (slotAt_offset r) hidle) hagenda hsize (hbusy.trans pending ▸ hd)

section
variable {s : State} {l : HostLine} {ls : List HostLine} {rest : List Turn} {busyReads : Nat}
  (h : s.agenda = l.turn busyReads :: rest)
include h

/-- While BUSY = 0 a disciplined line's turn meets no stop. -/
theorem reachesLines_of_idle (hidle : s.busy = false) (hd : disciplined s.buf.size.toNat false (l :: ls) = true) :
    ReachesLines s rest ls := by
  cases l with
  | wr r v => exact reachesLines_of_write h hidle hd
  | cmd i => exact reachesLines_of_write h hidle hd
  | rd r => exact .of_step (step_readReg h (slotAt_offset r) (.inl hidle)) rfl rfl (hidle ▸ hd)
  | wb a v =>
    obtain ⟨hin, hrest⟩ : a < s.buf.size.toNat ∧ disciplined s.buf.size.toNat false ls = true := by
      simpa [disciplined] using hd
    exact .of_step (step_writeBuf h hin hidle) rfl rfl (hidle ▸ hrest)
  | rb a =>
    obtain ⟨hin, hrest⟩ : a < s.buf.size.toNat ∧ disciplined s.buf.size.toNat false ls = true := by
      simpa [disciplined] using hd
    exact .of_step (step_readBuf h hin hidle) rfl rfl (hidle ▸ hrest)
  | poll => exact .of_step ((step_cons h).trans (pollTurn_idle busyReads hidle)) rfl rfl (hidle ▸ hd)

/-- While BUSY = 1 a disciplined line is a read of STATUS or a poll, which ends with the command completed. -/
theorem reachesLines_of_busy (hbusy : s.busy = true) (hd : disciplined s.buf.size.toNat true (l :: ls) = true) :
    ReachesLines s rest ls := by
  cases l with
  | rd r =>
    obtain ⟨hstatus, hrest⟩ : r = .status ∧ disciplined s.buf.size.toNat true ls = true := by
      simpa [disciplined] using hd
    exact .of_step (step_readReg h (slotAt_offset r) (.inr (hstatus ▸ rfl))) rfl rfl (hbusy ▸ hrest)
  | poll =>
    obtain ⟨u, hu⟩ := exists_completesTo hbusy
    exact ⟨busyReads + 2, _, run_poll h hbusy hu, rfl, hu.size, hu.idle ▸ hd⟩
  | wr => cases hd
  | wb => cases hd
  | rb => cases hd
  | cmd => cases hd

end

/-- What runs on to a state that runs to its end runs to its end. -/
theorem RunsToItsEnd.of_run {k : Nat} {s u : State} (h : core.run k s = .next u) (hu : RunsToItsEnd u) :
    RunsToItsEnd s := by
  induction k generalizing s with
  | zero => cases h; exact hu
  | succ k ih =>
    obtain ⟨v, hv, hrest⟩ := run_succ_next h
    obtain ⟨m, t, hrun, hend⟩ := ih hrest
    exact ⟨m + 1, t, (run_succ hv m).trans hrun, hend⟩

/-- With no turn to come the block completes what is pending, and the run has ended. -/
theorem runsToItsEnd_of_agenda_nil {s : State} (h : s.agenda = []) : RunsToItsEnd s := by
  cases hbusy : s.busy with
  | false => exact ⟨0, s, rfl, h, hbusy⟩
  | true =>
    obtain ⟨u, hu⟩ := exists_completesTo hbusy
    exact ⟨1, _, run_succ ((step_nil h).trans (hu.turn s.agenda s.reads)) 0, h, hu.idle⟩

/-- The lines of a disciplined host run to their end, from an idle block or a pending command. -/
theorem runsToItsEnd_of_disciplined (ls : List HostLine) (s : State) (busyReads : Nat → Nat)
    (hd : disciplined s.buf.size.toNat s.busy ls = true) (h : s.agenda = lineTurns busyReads ls) : RunsToItsEnd s := by
  induction ls generalizing s busyReads with
  | nil => exact runsToItsEnd_of_agenda_nil h
  | cons l ls ih =>
    rw [lineTurns_cons] at h
    have reached : ReachesLines s (lineTurns (fun k => busyReads (k + 1)) ls) ls := by
      cases hbusy : s.busy with
      | false => exact reachesLines_of_idle h hbusy (hbusy ▸ hd)
      | true => exact reachesLines_of_busy h hbusy (hbusy ▸ hd)
    obtain ⟨k, u, hrun, hagenda, hsize, hrest⟩ := reached
    exact .of_run hrun (ih u _ (hsize ▸ hrest) hagenda)

/-- Settles O14, by induction on the program's lines, from an idle block and from a pending command at once. -/
theorem disciplinedProgramRunsToItsEnd : Obligations.DisciplinedProgramRunsToItsEnd := by
  unfold Obligations.DisciplinedProgramRunsToItsEnd
  intro s p busyReads hidle hd h
  have idle : s.busy = false := hidle
  exact runsToItsEnd_of_disciplined (programLines p) s busyReads (by rwa [idle])
    (h.trans (programTurns_eq busyReads p))

end Sys2Proof.Machine
end

section
/-! PROOF. The CURSOR commands (40_bit_cursor.md R104 to R108): the two commands on fields, and the two on one bit as
fields of one bit. -/

namespace Sys2Proof.Machine

/-! ## Words and bounds -/

/-- The words that decode to a command, by their numbers (R70, R72). -/
theorem decode_eq_ok_iff_word {w : Word} {i : Instr} :
    decode w = .ok i ↔ i.wf = true ∧ w = BitVec.ofNat 32 (i.count.toNat * 256 + i.opcode.toNat) := by
  rw [decode_eq_ok_iff, ← encode_toNat, BitVec.ofNat_toNat, BitVec.setWidth_eq]

/-- One bit fits exactly when R54's conditions hold of the cursor. -/
theorem Cursor.fits_one_iff (c : Cursor) (m : Nat) : c.Fits m 1 ↔ c.pos < 8 * c.limit ∧ c.base + c.pos / 8 < m :=
  (c.inBounds_iff_fits m).symm.trans (c.inBounds_iff m)

/-! ## Fields (R106, R107) -/

section
variable {s : State} {n : BitVec 6}

theorem exec_readBits_of_fits (hn : n.toNat ≤ 32) (h : s.cursor.Fits s.buf.bytes n.toNat) :
    exec (.readBits n) s = .next ((s.setPos (s.curPos.toNat + n.toNat)).succeed
      (word (valueOf (s.buf.stream s.cursor.bitAddr n.toNat))) (word n.toNat)) := by
  simp [exec, execReadBits, hn, cursorReadBits_ok h]

theorem exec_readBits_of_not_fits (hn : n.toNat ≤ 32) (h : ¬ s.cursor.Fits s.buf.bytes n.toNat) :
    exec (.readBits n) s = .next (s.fail .malformedBitstream) := by
  simp [exec, execReadBits, hn, cursorReadBits_error h]

theorem exec_readBits_of_lt (hn : 32 < n.toNat) : exec (.readBits n) s = .next (s.fail .illegalCommand) := by
  simp [exec, execReadBits, Nat.not_le.2 hn]

theorem exec_writeBits_of_fits (hn : n.toNat ≤ 32) (h : s.cursor.Fits s.buf.bytes n.toNat) :
    ∃ b', exec (.writeBits n) s =
        .next (((s.setBuf b').setPos (s.curPos.toNat + n.toNat)).succeed (word 0) (word n.toNat)) ∧
      BitsWritten s.buf b' s.cursor.bitAddr (bitsOf n.toNat s.arg0.toNat) := by
  obtain ⟨b', hok, hwritten, -⟩ := cursorWriteBits_ok n.toNat (u32 s.arg0) h
  exact ⟨b', by simp [exec, execWriteBits, hn, hok], hwritten⟩

theorem exec_writeBits_of_not_fits (hn : n.toNat ≤ 32) (h : ¬ s.cursor.Fits s.buf.bytes n.toNat) :
    exec (.writeBits n) s = .next (s.fail .malformedBitstream) := by
  simp [exec, execWriteBits, hn, cursorWriteBits_error _ _ h]

theorem exec_writeBits_of_lt (hn : 32 < n.toNat) : exec (.writeBits n) s = .next (s.fail .illegalCommand) := by
  simp [exec, execWriteBits, Nat.not_le.2 hn]

end

/-- Settles O31: the word by the decoder's inverse, and READ_BITS by whether its field fits. -/
theorem readBitsReadsAField : Obligations.ReadBitsReadsAField := by
  unfold Obligations.ReadBitsReadsAField
  refine ⟨fun w n => ?_, fun s n => ⟨exec_readBits_of_fits, exec_readBits_of_not_fits, exec_readBits_of_lt⟩⟩
  rw [decode_eq_ok_iff_word]
  exact and_congr_left' decide_eq_true_iff

/-- Settles O32: the word by the decoder's inverse, and WRITE_BITS by whether its field fits. -/
theorem writeBitsWritesAField : Obligations.WriteBitsWritesAField := by
  unfold Obligations.WriteBitsWritesAField
  refine ⟨fun w n => ?_, fun s n => ⟨exec_writeBits_of_fits, exec_writeBits_of_not_fits, exec_writeBits_of_lt⟩⟩
  rw [decode_eq_ok_iff_word]
  exact and_congr_left' decide_eq_true_iff

/-! ## One bit is a field of one bit (R104, R105) -/

/-- A field of one bit is the bit at the cursor (R100, R102). -/
theorem cursorReadBits_one (b : Buffer) (c : Cursor) :
    cursorReadBits b c 1 = cursorReadBit b c >>= fun x => .ok (x.1.toNat, x.2) := by
  simp [cursorReadBits, cursorReadBitsFrom]

/-- A written field of one bit is bit 0 of the number, at the cursor (R101, R103). -/
theorem cursorWriteBits_one (b : Buffer) (c : Cursor) (v : Nat) :
    cursorWriteBits b c 1 v = cursorWriteBit b c (v.testBit 0) := by
  simp only [cursorWriteBits]
  cases cursorWriteBit b c (v.testBit 0) <;> rfl

theorem exec_readBit_eq (s : State) : exec .readBit s = exec (.readBits 1#6) s := by
  simp [exec, execReadBit, execReadBits, cursorReadBits_one]

theorem testBit_u32_zero (w : Word) : (u32 w).testBit 0 = bit0 w := w.testBit_toNat

theorem exec_writeBit_eq (s : State) : exec .writeBit s = exec (.writeBits 1#6) s := by
  simp [exec, execWriteBit, execWriteBits, cursorWriteBits_one, testBit_u32_zero, -Nat.testBit_zero]

/-- The bit at the cursor's bit address is in the byte CUR_BASE + CUR_POS div 8 (R13, R100). -/
theorem Buffer.getBit_bitAddr (b : Buffer) (c : Cursor) :
    b.getBit c.bitAddr = (b.read (c.base + c.pos / 8)).getLsbD (7 - c.pos % 8) := by
  rw [Buffer.getBit, Cursor.bitAddr, Nat.mul_add_div (by decide), Nat.mul_add_mod]

/-- A word that holds one bit of the stream. -/
theorem word_valueOf_stream_one (b : Buffer) (a : Nat) :
    word (valueOf (b.stream a 1)) = if b.getBit a then 1#32 else 0#32 := by
  rw [Buffer.stream_succ, Buffer.stream_zero]
  cases b.getBit a <;> rfl

theorem exec_readBit_of_fits {s : State} (h : s.cursor.Fits s.buf.bytes 1) :
    exec .readBit s = .next ((s.setPos (s.curPos.toNat + 1)).succeed
      (if s.buf.getBit s.cursor.bitAddr then 1#32 else 0#32) (word 1)) := by
  rw [exec_readBit_eq, ← word_valueOf_stream_one]
  exact exec_readBits_of_fits (by decide) h

/-- Settles O29: READ_BIT is READ_BITS 1, and its one bit is that of the byte under the cursor. -/
theorem readBitReadsTheBitAtTheCursor : Obligations.ReadBitReadsTheBitAtTheCursor := by
  unfold Obligations.ReadBitReadsTheBitAtTheCursor
  refine ⟨fun w => decode_eq_ok_iff_word.trans (and_iff_right rfl), fun s => ?_⟩
  have hfits := s.cursor.fits_one_iff s.buf.bytes
  constructor
  · intro h
    rw [exec_readBit_of_fits (hfits.2 h), Buffer.getBit_bitAddr]
    rfl
  · intro h
    rw [exec_readBit_eq]
    exact exec_readBits_of_not_fits (by decide) (mt hfits.1 h)

/-- Settles O30: WRITE_BIT is WRITE_BITS 1. -/
theorem writeBitWritesOneBit : Obligations.WriteBitWritesOneBit := by
  unfold Obligations.WriteBitWritesOneBit
  refine ⟨fun w => decode_eq_ok_iff_word.trans (and_iff_right rfl), fun s => ?_⟩
  have hfits := s.cursor.fits_one_iff s.buf.bytes
  rw [exec_writeBit_eq]
  exact ⟨fun h => exec_writeBits_of_fits (by decide) (hfits.2 h),
    fun h => exec_writeBits_of_not_fits (by decide) (mt hfits.1 h)⟩

/-! ## Reading back what was written (R108) -/

/-- What a WRITE_BITS with STATUS 0 has done (R107). -/
theorem exec_writeBits_success {s t : State} {n : BitVec 6} (hn : n.toNat ≤ 32)
    (h : exec (.writeBits n) s = .next t) (hstatus : t.status = 0#32) :
    s.cursor.Fits s.buf.bytes n.toNat ∧
    ∃ b', t = ((s.setBuf b').setPos (s.curPos.toNat + n.toNat)).succeed (word 0) (word n.toNat) ∧
      BitsWritten s.buf b' s.cursor.bitAddr (bitsOf n.toNat s.arg0.toNat) := by
  by_cases hfits : s.cursor.Fits s.buf.bytes n.toNat
  · obtain ⟨b', hexec, hwritten⟩ := exec_writeBits_of_fits hn hfits
    cases h.symm.trans hexec
    exact ⟨hfits, b', rfl, hwritten⟩
  · cases h.symm.trans (exec_writeBits_of_not_fits hn hfits)
    exact absurd hstatus (show statusOfRaise .malformedBitstream ≠ 0#32 by decide)

/-- A written field stands in the stream as its number. -/
theorem BitsWritten.valueOf_stream {b b' : Buffer} {a n v : Nat} (h : BitsWritten b b' a (bitsOf n v))
    (hv : v < 2 ^ n) : valueOf (b'.stream a n) = v := by
  have hstream : b'.stream a n = bitsOf n v := by simpa [StreamAt] using h.streamAt
  rw [hstream, valueOf_bitsOf, Nat.mod_eq_of_lt hv]

/-- R108 of a field. -/
theorem readBits_undoes_writeBits {s t : State} {n : BitVec 6} (hn : n.toNat ≤ 32) (hwf : s.buf.Wf)
    (hv : s.arg0.toNat < 2 ^ n.toNat) (h : exec (.writeBits n) s = .next t) (hstatus : t.status = 0#32) :
    ∃ u, exec (.readBits n) { t with curPos := s.curPos } = .next u ∧ u.status = 0#32 ∧ u.res0 = s.arg0 ∧
      u.curPos.toNat = s.curPos.toNat + n.toNat := by
  obtain ⟨hfits, b', rfl, hwritten⟩ := exec_writeBits_success hn h hstatus
  have hfits' : s.cursor.Fits b'.bytes n.toNat := by rwa [Buffer.bytes, hwritten.1]
  refine ⟨_, exec_readBits_of_fits hn hfits', rfl, ?_, Nat.mod_eq_of_lt (hfits.end_lt hwf s.curPos.isLt)⟩
  calc word (valueOf (b'.stream s.cursor.bitAddr n.toNat)) = word s.arg0.toNat := by rw [hwritten.valueOf_stream hv]
    _ = s.arg0 := by rw [word, BitVec.ofNat_toNat, BitVec.setWidth_eq]

/-- Settles O33: the field case by what WRITE_BITS and READ_BITS do, the bit case as a field of one bit. -/
theorem writtenFieldsReadBack : Obligations.WrittenFieldsReadBack := by
  unfold Obligations.WrittenFieldsReadBack
  refine ⟨fun s t n => readBits_undoes_writeBits, fun s t hwf hv h hstatus => ?_⟩
  rw [exec_writeBit_eq] at h
  rw [exec_readBit_eq]
  exact readBits_undoes_writeBits (by decide) hwf hv h hstatus

end Sys2Proof.Machine
end

section
/-! PROOF. The EG commands (41_expgolomb.md R125 to R130): what the two readers and the two writers do with a code at
the cursor, then the round trip and the code table. -/

namespace Sys2Proof.Machine

/-! ## Words and their ranges (R120) -/

/-- The one u32 outside the Ue range is 2^32 - 1. -/
theorem ueRange_toNat_iff {w : Word} : UeRange w.toNat ↔ w ≠ 0xFFFFFFFF#32 := by
  rw [← BitVec.toNat_ne_iff_ne]
  have hlt := w.isLt
  simp only [UeRange, BitVec.toNat_ofNat]
  omega

/-- The one s32 outside the Se range is -2^31. -/
theorem seRange_toInt_iff {w : Word} : SeRange w.toInt ↔ w ≠ 0x80000000#32 := by
  rw [← BitVec.toInt_ne, show (0x80000000#32).toInt = -2 ^ 31 by decide]
  have hmin : -2 ^ 31 ≤ w.toInt := w.le_toInt
  have hmax : w.toInt < 2 ^ 31 := w.toInt_lt
  simp only [SeRange]
  omega

/-- R75's reading of an s32 operand is two's complement. -/
theorem s32_eq_toInt (w : Word) : s32 w = w.toInt := by
  rw [s32, BitVec.toInt_eq_toNat_cond]
  split <;> split <;> omega

/-- No Se value is stored as 0x80000000 (R127). -/
theorem wordOfInt_ne_of_seRange {v : Int} (hv : SeRange v) : wordOfInt v ≠ 0x80000000#32 := by
  obtain ⟨hmin, hmax⟩ := hv
  have hself : (wordOfInt v).toInt = v :=
    BitVec.toInt_ofInt_eq_self (by decide) (show -2 ^ 31 ≤ v by omega) (show v < 2 ^ 31 by omega)
  rw [← seRange_toInt_iff, hself]
  exact ⟨hmin, hmax⟩

/-- A code in range takes at most 63 bits (R120). -/
theorem ueCode_length_lt {v : Nat} (hv : UeRange v) : (ueCode v).length < 2 ^ 32 := by
  have hlog := log2_ue hv
  rw [ueCode_length]
  omega

/-- A command that raised has not ended with STATUS 0 (R213). -/
theorem status_ne_zero_of_fail {i : Instr} {s t : State} {e : Raise} (hfail : exec i s = .next (s.fail e))
    (hexec : exec i s = .next t) : t.status ≠ 0#32 := by
  cases hfail.symm.trans hexec
  intro hstatus
  have herr := statusOfRaise_errBit e
  rw [← s.fail_status e, hstatus] at herr
  exact absurd herr (by decide)

/-! ## The readers (R125, R127) -/

/-- Where 32 zeros stand no Ue code does: the one after a code's zeros is among them (R121). -/
theorem not_streamAt_ueCode_of_zeros {b : Buffer} {a v : Nat} (hv : UeRange v)
    (hzeros : StreamAt b a (List.replicate 32 false)) : ¬ StreamAt b a (ueCode v) := by
  intro hcode
  obtain ⟨m, hm⟩ := Nat.exists_eq_add_of_lt (log2_ue hv)
  rw [hm, Nat.add_assoc, List.replicate_add, List.replicate_succ, streamAt_append, streamAt_cons] at hzeros
  rw [ueCode_eq, streamAt_append, streamAt_cons] at hcode
  exact Bool.false_ne_true (hzeros.2.1.symm.trans hcode.2.1)

/-- As for a Ue code, of the mapped value. -/
theorem not_streamAt_seCode_of_zeros {b : Buffer} {a : Nat} {v : Int} (hv : SeRange v)
    (hzeros : StreamAt b a (List.replicate 32 false)) : ¬ StreamAt b a (seCode v) := by
  rw [seCode_eq]
  exact not_streamAt_ueCode_of_zeros (ueOfSe_range hv) hzeros

/-- `s` after a command that read `r` from `n` bits at the cursor. -/
def State.afterReading (s : State) (r : Word) (n : Nat) : State :=
  (s.setPos (s.curPos.toNat + n)).succeed r (word n)

/-- Where `bits` stand at the cursor in bounds, the command reads `r` from them. -/
def ReadsCode (i : Instr) (bits : List Bool) (r : Word) : Prop :=
  ∀ s : State, StreamAt s.buf s.cursor.bitAddr bits → s.cursor.Fits s.buf.bytes bits.length →
    exec i s = .next (s.afterReading r bits.length)

theorem readUe_readsCode {v : Nat} (hv : UeRange v) : ReadsCode .readUe (ueCode v) (word v) := by
  intro s hcode hfits
  simp only [exec, execReadUe, readUE_ok hv hfits hcode, except_ok_bind, word_advance_sub]
  rfl

theorem readSe_readsCode {v : Int} (hv : SeRange v) : ReadsCode .readSe (seCode v) (wordOfInt v) := by
  intro s hcode hfits
  simp only [exec, execReadSe, readSE_ok hv hfits hcode, except_ok_bind, word_advance_sub]
  rfl

/-- All READ_UE can do. -/
theorem exec_readUe_cases (s : State) :
    (∃ v, UeRange v ∧ StreamAt s.buf s.cursor.bitAddr (ueCode v) ∧ s.cursor.Fits s.buf.bytes (ueCode v).length ∧
      exec .readUe s = .next (s.afterReading (word v) (ueCode v).length)) ∨
    exec .readUe s = .next (s.fail .malformedBitstream) := by
  rcases readUE_cases s.buf s.cursor with ⟨v, hv, hfits, hcode, -⟩ | herror
  · exact .inl ⟨v, hv, hcode, hfits, readUe_readsCode hv s hcode hfits⟩
  · exact .inr (by simp [exec, execReadUe, herror])

/-- All READ_SE can do. -/
theorem exec_readSe_cases (s : State) :
    (∃ v, SeRange v ∧ StreamAt s.buf s.cursor.bitAddr (seCode v) ∧ s.cursor.Fits s.buf.bytes (seCode v).length ∧
      exec .readSe s = .next (s.afterReading (wordOfInt v) (seCode v).length)) ∨
    exec .readSe s = .next (s.fail .malformedBitstream) := by
  rcases readSE_cases s.buf s.cursor with ⟨v, hv, hfits, hcode, -⟩ | herror
  · exact .inl ⟨v, hv, hcode, hfits, readSe_readsCode hv s hcode hfits⟩
  · exact .inr (by simp [exec, execReadSe, herror])

/-- Settles O34: READ_UE decodes the code at the cursor or raises, and after 32 zeros there is no code. -/
theorem readUeDecodesTheCode : Obligations.ReadUeDecodesTheCode := by
  unfold Obligations.ReadUeDecodesTheCode
  refine ⟨fun w => decode_eq_ok_iff_word.trans (and_iff_right rfl),
    fun s => ⟨fun v hv => readUe_readsCode hv s, ?_, ?_⟩⟩
  · intro hnone
    exact (exec_readUe_cases s).resolve_left fun ⟨v, hv, hcode, hfits, _⟩ => hnone v hv hcode hfits
  · intro hzeros
    exact (exec_readUe_cases s).resolve_left fun ⟨_, hv, hcode, _⟩ => not_streamAt_ueCode_of_zeros hv hzeros hcode

/-- Settles O36: as for READ_UE, and the value that READ_SE stores is in the Se range. -/
theorem readSeDecodesTheCode : Obligations.ReadSeDecodesTheCode := by
  unfold Obligations.ReadSeDecodesTheCode
  refine ⟨fun w => decode_eq_ok_iff_word.trans (and_iff_right rfl),
    fun s => ⟨fun v hv => readSe_readsCode hv s, ?_, ?_, ?_⟩⟩
  · intro hnone
    exact (exec_readSe_cases s).resolve_left fun ⟨v, hv, hcode, hfits, _⟩ => hnone v hv hcode hfits
  · intro hzeros
    exact (exec_readSe_cases s).resolve_left fun ⟨_, hv, hcode, _⟩ => not_streamAt_seCode_of_zeros hv hzeros hcode
  · intro t hexec hstatus
    rcases exec_readSe_cases s with ⟨v, hv, -, -, hok⟩ | herror
    · cases hok.symm.trans hexec
      exact wordOfInt_ne_of_seRange hv
    · exact absurd hstatus (status_ne_zero_of_fail herror hexec)

/-! ## The writers (R126, R128) -/

/-- `s` after a command that wrote `n` bits at the cursor, with `b` for BUF. -/
def State.afterWriting (s : State) (b : Buffer) (n : Nat) : State :=
  ((s.setBuf b).setPos (s.curPos.toNat + n)).succeed (word 0) (word n)

/-- From `s` the command writes exactly `bits` at the cursor, or raises when they do not fit. -/
def WritesCode (i : Instr) (s : State) (bits : List Bool) : Prop :=
  (s.cursor.Fits s.buf.bytes bits.length →
    ∃ b', exec i s = .next (s.afterWriting b' bits.length) ∧ BitsWritten s.buf b' s.cursor.bitAddr bits) ∧
  (¬ s.cursor.Fits s.buf.bytes bits.length → exec i s = .next (s.fail .malformedBitstream))

/-- A writer of bits whose cursor a command stores makes the command write them. -/
theorem Writes.writesCode {p : Buffer → Cursor → Except Raise (Buffer × Cursor)} {bits : List Bool} {i : Instr}
    {s : State} (hp : Writes p bits)
    (hexec : exec i s = finish s (p s.buf s.cursor >>= fun x =>
      .ok (((s.setBuf x.1).setPos x.2.pos).succeed (word 0) (word (x.2.pos - s.cursor.pos))))) :
    WritesCode i s bits := by
  rcases hp s.buf s.cursor with ⟨hfits, b', hok, hwritten, -⟩ | ⟨hfits, herror⟩
  · refine ⟨fun _ => ⟨b', ?_, hwritten⟩, (absurd hfits ·)⟩
    rw [hexec, hok, except_ok_bind, word_advance_sub]
    rfl
  · exact ⟨(absurd · hfits), fun _ => by rw [hexec, herror]; rfl⟩

theorem writes_se {v : Int} (hv : SeRange v) : Writes (fun b c => writeSE b c v) (seCode v) := by
  simp only [writeSE_eq hv, seCode_eq]
  exact writes_ue (ueOfSe_range hv)

theorem writeUe_writesCode {s : State} (hv : UeRange s.arg0.toNat) : WritesCode .writeUe s (ueCode s.arg0.toNat) :=
  (writes_ue hv).writesCode rfl

theorem writeSe_writesCode {s : State} (hv : SeRange s.arg0.toInt) : WritesCode .writeSe s (seCode s.arg0.toInt) :=
  (writes_se hv).writesCode (by rw [← s32_eq_toInt]; rfl)

theorem exec_writeUe_of_not_ueRange {s : State} (hv : ¬ UeRange s.arg0.toNat) :
    exec .writeUe s = .next (s.fail .valueRange) := by
  simp [exec, execWriteUe, u32, writeUE_range hv]

theorem exec_writeSe_of_not_seRange {s : State} (hv : ¬ SeRange s.arg0.toInt) :
    exec .writeSe s = .next (s.fail .valueRange) := by
  have harg : s.arg0 = 0x80000000#32 := by rwa [seRange_toInt_iff, not_not] at hv
  have hmin : s32 s.arg0 = -2 ^ 31 := by rw [harg]; decide
  simp [exec, execWriteSe, writeSE, hmin]

/-- Settles O35: WRITE_UE writes the code of a Ue value, and the one other ARG0 is refused before the bounds. -/
theorem writeUeWritesTheCode : Obligations.WriteUeWritesTheCode := by
  unfold Obligations.WriteUeWritesTheCode
  refine ⟨fun w => decode_eq_ok_iff_word.trans (and_iff_right rfl), fun s => ?_⟩
  exact ⟨fun h => (writeUe_writesCode (ueRange_toNat_iff.2 h)).1,
    fun h => (writeUe_writesCode (ueRange_toNat_iff.2 h)).2,
    fun h => exec_writeUe_of_not_ueRange fun hv => ueRange_toNat_iff.1 hv h⟩

/-- Settles O37: WRITE_SE writes the code of a Se value, and the one other ARG0 is refused before the bounds. -/
theorem writeSeWritesTheCode : Obligations.WriteSeWritesTheCode := by
  unfold Obligations.WriteSeWritesTheCode
  refine ⟨fun w => decode_eq_ok_iff_word.trans (and_iff_right rfl), fun s => ?_⟩
  exact ⟨fun h => (writeSe_writesCode (seRange_toInt_iff.2 h)).1,
    fun h => (writeSe_writesCode (seRange_toInt_iff.2 h)).2,
    fun h => exec_writeSe_of_not_seRange fun hv => seRange_toInt_iff.1 hv h⟩

/-! ## Reading back what was written (R129) -/

/-- From `s` to `t`, `bits` were written at the cursor, in bounds. -/
def WroteCode (s t : State) (bits : List Bool) : Prop :=
  s.cursor.Fits s.buf.bytes bits.length ∧
  ∃ b', t = s.afterWriting b' bits.length ∧ BitsWritten s.buf b' s.cursor.bitAddr bits

/-- A writer whose STATUS is 0 has written its code. -/
theorem WritesCode.wroteCode {i : Instr} {s t : State} {bits : List Bool} (h : WritesCode i s bits)
    (hexec : exec i s = .next t) (hstatus : t.status = 0#32) : WroteCode s t bits := by
  obtain ⟨hwrite, herror⟩ := h
  by_cases hfits : s.cursor.Fits s.buf.bytes bits.length
  · obtain ⟨b', hok, hwritten⟩ := hwrite hfits
    cases hexec.symm.trans hok
    exact ⟨hfits, b', rfl, hwritten⟩
  · exact absurd hstatus (status_ne_zero_of_fail (herror hfits) hexec)

theorem exec_writeUe_success {s t : State} (hexec : exec .writeUe s = .next t) (hstatus : t.status = 0#32) :
    UeRange s.arg0.toNat ∧ WroteCode s t (ueCode s.arg0.toNat) := by
  by_cases hv : UeRange s.arg0.toNat
  · exact ⟨hv, (writeUe_writesCode hv).wroteCode hexec hstatus⟩
  · exact absurd hstatus (status_ne_zero_of_fail (exec_writeUe_of_not_ueRange hv) hexec)

theorem exec_writeSe_success {s t : State} (hexec : exec .writeSe s = .next t) (hstatus : t.status = 0#32) :
    SeRange s.arg0.toInt ∧ WroteCode s t (seCode s.arg0.toInt) := by
  by_cases hv : SeRange s.arg0.toInt
  · exact ⟨hv, (writeSe_writesCode hv).wroteCode hexec hstatus⟩
  · exact absurd hstatus (status_ne_zero_of_fail (exec_writeSe_of_not_seRange hv) hexec)

/-- A reader of the written code, from the old position, reads its value and ends where the writer did. -/
theorem WroteCode.readBack {s t : State} {bits : List Bool} {i : Instr} {r : Word} (h : WroteCode s t bits)
    (hread : ReadsCode i bits r) :
    ∃ u, exec i { t with curPos := s.curPos } = .next u ∧ u.status = 0#32 ∧ u.res0 = r ∧ u.curPos = t.curPos ∧
      u.res1 = t.res1 := by
  obtain ⟨hfits, b', rfl, hwritten⟩ := h
  have hfits' : s.cursor.Fits b'.bytes bits.length := by rwa [Buffer.bytes, hwritten.1]
  exact ⟨_, hread _ hwritten.streamAt hfits', rfl, rfl, rfl, rfl⟩

/-- Settles O38: what a successful writer has written stands at the cursor, so the reader decodes it. -/
theorem expGolombRoundTrip : Obligations.ExpGolombRoundTrip := by
  unfold Obligations.ExpGolombRoundTrip
  constructor
  · intro s t hwf hexec hstatus
    obtain ⟨hv, hwrote⟩ := exec_writeUe_success hexec hstatus
    obtain ⟨u, hu, hustatus, hures0, hucurPos, hures1⟩ := hwrote.readBack (readUe_readsCode hv)
    have hcurPos := cursorAdvancesByTheBitsTouched .writeUe s t rfl hwf hexec hstatus
    have hres1 : t.res1.toNat = (ueCode s.arg0.toNat).length := by
      obtain ⟨-, b', rfl, -⟩ := hwrote
      exact Nat.mod_eq_of_lt (ueCode_length_lt hv)
    rw [ueCode_length] at hres1
    refine ⟨hres1 ▸ hcurPos, u, hu, hustatus, hures0.trans ?_, hucurPos, hures1 ▸ hres1⟩
    rw [word, BitVec.ofNat_toNat, BitVec.setWidth_eq]
  · intro s t _ hexec hstatus
    obtain ⟨hv, hwrote⟩ := exec_writeSe_success hexec hstatus
    obtain ⟨u, hu, hustatus, hures0, hucurPos, hures1⟩ := hwrote.readBack (readSe_readsCode hv)
    exact ⟨u, hu, hustatus, hures0.trans BitVec.ofInt_toInt, hucurPos, hures1⟩

/-! ## The code table (R130) -/

/-- A writer of a short code that fits answers STATUS 0 and its length. -/
theorem WritesCode.exists_success {i : Instr} {s : State} {bits : List Bool} (h : WritesCode i s bits)
    (hshort : bits.length < 2 ^ 32) (hfits : s.cursor.Fits s.buf.bytes bits.length) :
    ∃ t, exec i s = .next t ∧ t.status = 0#32 ∧ t.res1.toNat = bits.length ∧
      BitsWritten s.buf t.buf s.cursor.bitAddr bits := by
  obtain ⟨b', hok, hwritten⟩ := h.1 hfits
  exact ⟨_, hok, rfl, Nat.mod_eq_of_lt hshort, hwritten⟩

/-- Settles O39: the rows are closed, so the code of each value is computed; a writer writes it. -/
theorem smallValuesHaveTheTabledCodes : Obligations.SmallValuesHaveTheTabledCodes := by
  unfold Obligations.SmallValuesHaveTheTabledCodes
  refine fun s => ⟨fun row hrow harg => ?_, fun row hrow harg => ?_⟩
  · have hcode : UeRange row.1 ∧ ueCode row.1 = row.2 ∧ row.2.length < 2 ^ 32 := by
      clear harg
      revert row
      decide
    obtain ⟨hv, hbits, hshort⟩ := hcode
    rw [← harg] at hv hbits
    exact (hbits ▸ writeUe_writesCode hv).exists_success hshort
  · have hcode : SeRange row.1 ∧ seCode row.1 = row.2 ∧ row.2.length < 2 ^ 32 := by
      clear harg
      revert row
      decide
    obtain ⟨hv, hbits, hshort⟩ := hcode
    rw [← harg] at hv hbits
    exact (hbits ▸ writeSe_writesCode hv).exists_success hshort

end Sys2Proof.Machine
end

section
/-! PROOF. The NAL commands (42_nal_locator.md R140 to R146): the range check that all three begin with, then each
command on what the locator answers. -/

namespace Sys2Proof.Machine

/-! ## The range check (R142, R144, R146) -/

section
variable {s : State} {stop : Nat} {f : Unit → Except Raise State}

/-- A range that ends inside BUF: the command goes on. -/
theorem finish_checkEnd_of_le (h : stop ≤ s.buf.bytes) : finish s (checkEnd s.buf stop >>= f) = finish s (f ()) := by
  rw [checkEnd, if_neg (Nat.not_lt.2 h), except_ok_bind]

/-- A range that ends past BUF: the command raises, whatever it would go on with. -/
theorem finish_checkEnd_of_lt (h : s.buf.bytes < stop) :
    finish s (checkEnd s.buf stop >>= f) = .next (s.fail .malformedBitstream) := by
  rw [checkEnd, if_pos h, except_error_bind, finish_error]

end

/-! ## FIND_START_CODE (R140 to R142) -/

section
variable {s : State} (hend : s.arg1.toNat ≤ s.buf.bytes)
include hend

theorem exec_findStartCode_of_first {j : Nat} (h : FirstStartCode s.buf s.arg0.toNat s.arg1.toNat j) :
    exec .findStartCode s = .next (s.succeed (word (j + 3)) (word 0)) := by
  refine (finish_checkEnd_of_le hend).trans ?_
  simp only [u32, findStartCode_some h, except_pure, finish_ok]

theorem exec_findStartCode_of_none (h : ∀ j, ¬ FirstStartCode s.buf s.arg0.toNat s.arg1.toNat j) :
    exec .findStartCode s = .next (s.fail .notFound) := by
  obtain ⟨-, hnone⟩ := (findStartCode_cases s.buf s.arg0.toNat s.arg1.toNat).resolve_left
    fun ⟨j, hj, _⟩ => h j hj
  refine (finish_checkEnd_of_le hend).trans ?_
  simp only [u32, hnone, finish_error]

end

/-- Settles O40: FIND_START_CODE's answer is FindStartCode's, once the range check has passed. -/
theorem findStartCodeFindsTheFirst : Obligations.FindStartCodeFindsTheFirst := by
  unfold Obligations.FindStartCodeFindsTheFirst
  exact ⟨fun w => decode_eq_ok_iff_word.trans (and_iff_right rfl), fun s =>
    ⟨fun hend => ⟨fun _ => exec_findStartCode_of_first hend, exec_findStartCode_of_none hend⟩, finish_checkEnd_of_lt⟩⟩

/-- The zero before a 3-byte start code only moves it: 00 00 00 is none, so the first one is at the second zero. -/
theorem firstStartCode_of_fourByte {b : Buffer} {start stop j : Nat} (hstart : start ≤ j) (hstop : j + 3 < stop)
    (hcode : StartCodeAt b (j + 1)) (hbefore : ∀ i < j, start ≤ i → ¬ StartCodeAt b i) :
    FirstStartCode b start stop (j + 1) := by
  refine ⟨by omega, by omega, hcode, fun i hi hs => ?_⟩
  rcases Nat.lt_succ_iff_lt_or_eq.1 hi with hlt | rfl
  · exact hbefore i hlt hs
  · rintro ⟨-, -, hone⟩
    exact absurd (hcode.2.1.symm.trans hone) (by decide)

/-- Settles O41: the first start code is the 3-byte one inside the 4-byte form. -/
theorem findStartCodeOnTheFourByteForm : Obligations.FindStartCodeOnTheFourByteForm := by
  unfold Obligations.FindStartCodeOnTheFourByteForm
  intro s j hend hstart hstop _ hzero hzero' hone hbefore
  exact exec_findStartCode_of_first hend
    (firstStartCode_of_fourByte hstart hstop ⟨hzero, hzero', hone⟩ hbefore)

/-! ## FIND_SPS (R143, R144) -/

/-- A byte as a result word. -/
theorem word_toNat_byte (v : Byte) : word v.toNat = v.setWidth 32 := BitVec.ofNat_toNat 32 v

theorem findSps_error {b : Buffer} {stop pos : Nat} (h : ∀ p, ¬ FirstSps b stop pos p) :
    findSps b pos stop = .error .notFound :=
  ((findSps_cases b stop pos).resolve_left fun ⟨p, hp, _⟩ => h p hp).2

/-- Settles O42: FIND_SPS's answer is FindSPS's and the byte that stands there, once the range check has passed. -/
theorem findSpsFindsTheFirstHeader : Obligations.FindSpsFindsTheFirstHeader := by
  unfold Obligations.FindSpsFindsTheFirstHeader
  refine ⟨fun w => decode_eq_ok_iff_word.trans (and_iff_right rfl), fun s =>
    ⟨fun hend => ⟨fun p hp => ?_, fun hnone => ?_⟩, finish_checkEnd_of_lt⟩⟩
  · refine (finish_checkEnd_of_le hend).trans ?_
    rw [u32, u32, findSps_ok hp, except_ok_bind, word_toNat_byte]
    rfl
  · refine (finish_checkEnd_of_le hend).trans ?_
    rw [u32, u32, findSps_error hnone]
    rfl

/-! ## INSPECT_PROFILE (R145, R146) -/

section
variable {b : Buffer} {start stop p : Nat}

theorem inspectProfile_ok (h : FirstSps b stop start p) (hin : p + 3 < stop) :
    inspectProfile b start stop = .ok (b.read (p + 1), b.read (p + 3)) := by
  rw [inspectProfile, findSps_ok h, except_ok_bind, if_neg (Nat.not_le.2 hin), except_pure]

/-- The SPS ends before its level byte. -/
theorem inspectProfile_short (h : FirstSps b stop start p) (hout : stop ≤ p + 3) :
    inspectProfile b start stop = .error .malformedBitstream := by
  rw [inspectProfile, findSps_ok h, except_ok_bind, if_pos hout]

theorem inspectProfile_none (h : ∀ p, ¬ FirstSps b stop start p) :
    inspectProfile b start stop = .error .notFound := by
  rw [inspectProfile, findSps_error h, except_error_bind]

end

section
variable {s : State} (hend : s.arg1.toNat ≤ s.buf.bytes)
include hend

theorem exec_inspectProfile_of_ok {profile level : Byte}
    (h : inspectProfile s.buf s.arg0.toNat s.arg1.toNat = .ok (profile, level)) :
    exec .inspectProfile s = .next (s.succeed (profile.setWidth 32) (level.setWidth 32)) := by
  refine (finish_checkEnd_of_le hend).trans ?_
  simp only [u32, h, except_ok_bind, except_pure, finish_ok, word_toNat_byte]

theorem exec_inspectProfile_of_error {e : Raise} (h : inspectProfile s.buf s.arg0.toNat s.arg1.toNat = .error e) :
    exec .inspectProfile s = .next (s.fail e) := by
  refine (finish_checkEnd_of_le hend).trans ?_
  rw [u32, u32, h, except_error_bind, finish_error]

end

/-- Settles O43: INSPECT_PROFILE's answer is InspectProfile's, once the range check has passed. -/
theorem inspectProfileReadsProfileAndLevel : Obligations.InspectProfileReadsProfileAndLevel := by
  unfold Obligations.InspectProfileReadsProfileAndLevel
  refine ⟨fun w => decode_eq_ok_iff_word.trans (and_iff_right rfl), fun s =>
    ⟨fun hend => ⟨fun p hp => ⟨fun hin => ?_, fun hout => ?_⟩, fun hnone => ?_⟩, finish_checkEnd_of_lt⟩⟩
  · exact exec_inspectProfile_of_ok hend (inspectProfile_ok hp hin)
  · exact exec_inspectProfile_of_error hend (inspectProfile_short hp hout)
  · exact exec_inspectProfile_of_error hend (inspectProfile_none hnone)

end Sys2Proof.Machine
end

section
/-! PROOF. FIX_CROP (43_sps_crop.md R160 to R175): its outcome on each thing the parse phase can find, then what a
success has written. -/

namespace Sys2Proof.Machine

/-! ## The crop values (R169, R171) -/

/-- A Ue value of at most 7 has a code of 1, 3, 5 or 7 bits. -/
theorem ueCode_length_le_of_le_seven {v : Nat} (h : v ≤ 7) : (ueCode v).length ≤ 7 := by
  have hlog : Nat.log2 (v + 1) < 4 := (Nat.log2_lt (by omega)).2 (by omega)
  rw [ueCode_length]
  omega

/-- One bit for each of frame_cropping_flag, crop_left, crop_top, the vui bit and the stop bit, and the codes of
crop_right and crop_bottom. -/
theorem rewrittenBits_sourceCrop_length (w h : Nat) (fmo : Bool) :
    (rewrittenBits (sourceCrop w h fmo)).length =
      5 + (ueCode (sourceCrop w h fmo).right).length + (ueCode (sourceCrop w h fmo).bottom).length := by
  have hzero : ueCode 0 = [true] := by decide
  simp only [rewrittenBits, cropBits, List.length_append, List.length_cons, List.length_nil]
  rw [show (sourceCrop w h fmo).left = 0 from rfl, show (sourceCrop w h fmo).top = 0 from rfl, hzero]
  simp only [List.length_cons, List.length_nil]
  omega

theorem sourceCrop_right_le (w h : Nat) (fmo : Bool) : (sourceCrop w h fmo).right ≤ 7 := by
  have hgap := macroblockGap_lt w
  rw [← cropValues_eq]
  simp only [cropValues]
  omega

theorem sourceCrop_bottom_le (w h : Nat) (fmo : Bool) : (sourceCrop w h fmo).bottom ≤ if fmo then 7 else 3 := by
  have hgap := macroblockGap_lt h
  rw [← cropValues_eq]
  cases fmo <;> simp only [cropValues, if_true, Bool.false_eq_true, if_false] <;> omega

/-- Settles O46: the gap to the next macroblock is below 16, so each of the two codes that vary has 1 to 7 bits. -/
theorem cropValuesAreTheSources : Obligations.CropValuesAreTheSources := by
  unfold Obligations.CropValuesAreTheSources
  intro w h fmo
  have hright := sourceCrop_right_le w.toNat h.toNat fmo
  have hbottom := sourceCrop_bottom_le w.toNat h.toNat fmo
  have hbottom7 : (sourceCrop w.toNat h.toNat fmo).bottom ≤ 7 := hbottom.trans (by cases fmo <;> decide)
  refine ⟨cropValues_eq _ _ _, hright, hbottom, ?_, ?_⟩
  · rw [rewrittenBits_sourceCrop_length, ueCode_length, ueCode_length]
    omega
  · have hrightCode := ueCode_length_le_of_le_seven hright
    have hbottomCode := ueCode_length_le_of_le_seven hbottom7
    rw [rewrittenBits_sourceCrop_length]
    omega

/-! ## The range (R161, R162) -/

/-- The read cursor at the start of the parse region (R162). -/
def State.spsStart (s : State) : Cursor := regionCursor s.arg0.toNat s.arg1.toNat 0

/-- The range [base, base + cap) lies in BUF (R172). -/
def State.CropRange (s : State) : Prop := s.arg0.toNat + s.arg1.toNat ≤ s.buf.bytes

theorem State.spsStart_bitAddr (s : State) : s.spsStart.bitAddr = 8 * (s.arg0.toNat + 5) := rfl

theorem State.spsStart_pos (s : State) : s.spsStart.pos = 0 := rfl

/-- In a range that lies in BUF, bits are in bounds exactly when they are in the range (R54, R162). -/
theorem State.CropRange.fits_iff {s : State} (h : s.CropRange) {pos n : Nat} (hn : 0 < n) :
    (s.spsStart.advance pos).Fits s.buf.bytes n ↔ pos + n ≤ 8 * (s.arg1.toNat - 5) := by
  unfold State.CropRange at h
  simp only [Cursor.Fits, State.spsStart, regionCursor, Cursor.advance, Nat.zero_add]
  omega

theorem State.CropRange.fits_start_iff {s : State} (h : s.CropRange) {n : Nat} (hn : 0 < n) :
    s.spsStart.Fits s.buf.bytes n ↔ n ≤ 8 * (s.arg1.toNat - 5) := by
  rw [← s.spsStart.advance_zero, h.fits_iff hn, Nat.zero_add]

/-- FIX_CROP reads profile_idc exactly when the range has a byte past its first five (R172). -/
theorem State.CropRange.fits_profile_iff {s : State} (h : s.CropRange) :
    s.spsStart.Fits s.buf.bytes 8 ↔ 5 < s.arg1.toNat := by
  rw [h.fits_start_iff (by decide)]
  omega

/-- profile_idc is the byte at base + 5 (R161, R164). -/
theorem State.profileAt_spsStart (s : State) :
    profileAt s.buf s.spsStart = (s.buf.read (s.arg0.toNat + 5)).toNat := by
  rw [profileAt, s.spsStart_bitAddr, valueOf_stream_byte]

/-! ## The command (R172) -/

/-- The crop values of the operands and an SPS with the fields `f` (R169). -/
def State.newCrop (s : State) (f : SpsFields) : CropOffsets :=
  sourceCrop s.arg2.toNat s.arg3.toNat f.frameMbsOnly

/-- The bits that FIX_CROP writes on an SPS with the fields `f` (R170). -/
def State.newCropBits (s : State) (f : SpsFields) : List Bool := rewrittenBits (s.newCrop f)

/-- F: the position just past the stop bit (R170). -/
def State.cropEnd (s : State) (f : SpsFields) : Nat := f.bits.length + (s.newCropBits f).length

theorem State.newCrop_legal (s : State) (f : SpsFields) : CropLegal (some (s.newCrop f)) := by
  rw [State.newCrop, ← cropValues_eq]
  exact cropValues_legal _ _ _

/-- The stop bit comes last (R170). -/
theorem State.newCropBits_eq (s : State) (f : SpsFields) :
    s.newCropBits f = cropBits (some (s.newCrop f)) ++ [false] ++ [true] :=
  (List.append_assoc _ [false] [true]).symm

theorem State.newCropBits_length_pos (s : State) (f : SpsFields) : 0 < (s.newCropBits f).length := by
  rw [State.newCropBits_eq, List.length_append]
  exact Nat.succ_pos _

/-- The write phase of an SPS with the fields `f` and no VUI (R170). -/
def State.writeNewCrop (s : State) (f : SpsFields) : Except Raise (Buffer × Cursor) :=
  writeCrop s.buf (s.spsStart.advance f.bits.length) (s.newCrop f) false

/-- What FIX_CROP stores once the write phase has left BUF and the write cursor as in `x` (R171, R172). -/
def State.storeCrop (s : State) (x : Buffer × Cursor) : State :=
  (s.setBuf x.1).succeed (word (5 + ceilDiv x.2.pos 8)) (word x.2.pos)

/-- FIX_CROP after its parse phase (R169 to R172). -/
def State.rewriteSps (s : State) (p : SpsParse) : Except Raise State :=
  writeCrop s.buf (regionCursor s.arg0.toNat s.arg1.toNat p.splice)
    (cropValues s.arg2.toNat s.arg3.toNat p.fields.frameMbsOnly) p.vui >>= fun x => .ok (s.storeCrop x)

/-- What a successful FIX_CROP stores when BUF becomes `b` (R171, R172). -/
def State.afterFixCrop (s : State) (b : Buffer) (f : SpsFields) : State :=
  (s.setBuf b).succeed (word (5 + (s.cropEnd f + 7) / 8)) (word (s.cropEnd f))

theorem State.storeCrop_cropEnd (s : State) (b : Buffer) (f : SpsFields) :
    s.storeCrop (b, s.spsStart.advance (s.cropEnd f)) = s.afterFixCrop b f := by
  rw [State.storeCrop, Cursor.advance_pos, s.spsStart_pos, Nat.zero_add]
  rfl

/-- In a range that lies in BUF, FIX_CROP is its two phases. -/
theorem exec_fixCrop_of_cropRange {s : State} (h : s.CropRange) :
    exec .fixCrop s = finish s (parseSps s.buf s.spsStart >>= s.rewriteSps) :=
  congrArg (finish s) (if_neg (Nat.not_lt.2 h))

/-- A range past BUF raises before any bit is read. -/
theorem exec_fixCrop_of_not_cropRange {s : State} (h : ¬ s.CropRange) :
    exec .fixCrop s = .next (s.fail .malformedBitstream) :=
  congrArg (finish s) (if_pos (Nat.not_le.1 h))

section
variable {s : State} (hrange : s.CropRange) {f : SpsFields} {old : Option CropOffsets}
include hrange

/-- What the parse phase raises is what FIX_CROP raises. -/
theorem exec_fixCrop_of_parse_error {e : Raise} (h : parseSps s.buf s.spsStart = .error e) :
    exec .fixCrop s = .next (s.fail e) := by
  rw [exec_fixCrop_of_cropRange hrange, h, except_error_bind, finish_error]

/-- An unsupported profile is raised as soon as profile_idc has been read (R163). -/
theorem exec_fixCrop_of_unsupportedProfile (hcap : 5 < s.arg1.toNat)
    (hprofile : (s.buf.read (s.arg0.toNat + 5)).toNat ∈ unsupportedProfiles) :
    exec .fixCrop s = .next (s.fail (.unsupportedProfile (s.buf.read (s.arg0.toNat + 5)))) := by
  have hbyte := s.profileAt_spsStart
  have hparse := parseSps_profile (hrange.fits_profile_iff.2 hcap) (hbyte ▸ hprofile)
  rw [hbyte, BitVec.ofNat_toNat, BitVec.setWidth_eq] at hparse
  exact exec_fixCrop_of_parse_error hrange hparse

/-- An SPS whose vui flag is set (R168). -/
theorem exec_fixCrop_of_vui (h : SpsAt s.buf s.spsStart f old true) :
    exec .fixCrop s = .next (s.fail .unsupportedVui) :=
  exec_fixCrop_of_parse_error hrange (parseSps_of_spsAt h)

/-- No SPS in the range, and no unsupported profile (R172). -/
theorem exec_fixCrop_of_no_sps (hnone : ∀ f old vui, ¬ SpsAt s.buf s.spsStart f old vui)
    (hprofile : ¬ (5 < s.arg1.toNat ∧ (s.buf.read (s.arg0.toNat + 5)).toNat ∈ unsupportedProfiles)) :
    exec .fixCrop s = .next (s.fail .malformedBitstream) := by
  refine exec_fixCrop_of_parse_error hrange ?_
  rcases parseSps_cases s.buf s.spsStart with ⟨-, h⟩ | ⟨hfits, hmem, -⟩ | ⟨f, old, vui, hsps⟩ | ⟨-, -, h⟩
  · exact h
  · exact absurd ⟨hrange.fits_profile_iff.1 hfits, s.profileAt_spsStart ▸ hmem⟩ hprofile
  · exact absurd hsps (hnone f old vui)
  · exact h

/-- All the write phase can do: write the new crop fields in bounds, or raise (R170). -/
theorem writeNewCrop_cases (f : SpsFields) :
    (s.cropEnd f ≤ 8 * (s.arg1.toNat - 5) ∧
      ∃ b, s.writeNewCrop f = .ok (b, s.spsStart.advance (s.cropEnd f)) ∧
        BitsWritten s.buf b (8 * (s.arg0.toNat + 5) + f.bits.length) (s.newCropBits f)) ∨
    (8 * (s.arg1.toNat - 5) < s.cropEnd f ∧ s.writeNewCrop f = .error .malformedBitstream) := by
  have hbits : cropBits (some (s.newCrop f)) ++ [false, true] = s.newCropBits f := rfl
  have hwrites := writes_crop (s.newCrop_legal f) false s.buf (s.spsStart.advance f.bits.length)
  rw [hbits, hrange.fits_iff (s.newCropBits_length_pos f), Cursor.advance_advance, Cursor.advance_bitAddr,
    s.spsStart_bitAddr] at hwrites
  rcases hwrites with ⟨hin, b, hok, hwritten, -⟩ | ⟨hout, herror⟩
  · exact .inl ⟨hin, b, hok, hwritten⟩
  · exact .inr ⟨Nat.not_le.1 hout, herror⟩

/-- An SPS without VUI goes on to the write phase at the splice point (R167). -/
theorem exec_fixCrop_of_spsAt (h : SpsAt s.buf s.spsStart f old false) :
    exec .fixCrop s = finish s (s.writeNewCrop f >>= fun x => .ok (s.storeCrop x)) := by
  rw [exec_fixCrop_of_cropRange hrange, parseSps_of_spsAt h, State.writeNewCrop, State.newCrop, ← cropValues_eq]
  rfl

/-- An SPS without VUI whose new fields fit is rewritten from the splice point (R170). -/
theorem exec_fixCrop_of_fits (h : SpsAt s.buf s.spsStart f old false)
    (hfit : s.cropEnd f ≤ 8 * (s.arg1.toNat - 5)) :
    ∃ b, exec .fixCrop s = .next (s.afterFixCrop b f) ∧
      BitsWritten s.buf b (8 * (s.arg0.toNat + 5) + f.bits.length) (s.newCropBits f) := by
  rcases writeNewCrop_cases hrange f with ⟨-, b, hok, hwritten⟩ | ⟨hout, -⟩
  · refine ⟨b, ?_, hwritten⟩
    rw [exec_fixCrop_of_spsAt hrange h, hok, except_ok_bind, State.storeCrop_cropEnd, finish_ok]
  · exact absurd hfit (Nat.not_le.2 hout)

/-- An SPS without VUI whose new fields do not fit (R170). -/
theorem exec_fixCrop_of_not_fits (h : SpsAt s.buf s.spsStart f old false)
    (hout : 8 * (s.arg1.toNat - 5) < s.cropEnd f) : exec .fixCrop s = .next (s.fail .malformedBitstream) := by
  rcases writeNewCrop_cases hrange f with ⟨hfit, -⟩ | ⟨-, herror⟩
  · exact absurd hout (Nat.not_lt.2 hfit)
  · rw [exec_fixCrop_of_spsAt hrange h, herror, except_error_bind, finish_error]

end

/-- STATUS after UnsupportedProfile is DETAIL, CODE 2 and ERR (R211, R213). -/
theorem statusOfRaise_unsupportedProfile (p : Byte) :
    statusOfRaise (.unsupportedProfile p) = BitVec.ofNat 32 (p.toNat * 256 + 0x22) := by
  revert p
  decide

/-- Settles O44: FIX_CROP on what the parse phase finds, then by whether the new fields fit. -/
theorem fixCropRewritesTheCropFields : Obligations.FixCropRewritesTheCropFields := by
  unfold Obligations.FixCropRewritesTheCropFields
  refine ⟨fun w => decode_eq_ok_iff_word.trans (and_iff_right rfl), fun s =>
    ⟨fun hpast => exec_fixCrop_of_not_cropRange (Nat.not_le.2 hpast), fun hrange => ⟨fun f old hsps => ⟨?_, ?_⟩,
      fun f old => exec_fixCrop_of_vui hrange, fun hcap hprofile => ?_, exec_fixCrop_of_no_sps hrange⟩⟩⟩
  · intro hfit
    obtain ⟨b', hexec, hwritten⟩ := exec_fixCrop_of_fits hrange hsps hfit
    exact ⟨b', s.cropEnd f, rfl, hexec, hwritten⟩
  · exact exec_fixCrop_of_not_fits hrange hsps
  · rw [← statusOfRaise_unsupportedProfile]
    exact exec_fixCrop_of_unsupportedProfile hrange hcap hprofile

/-- Settles O45: the raise stores STATUS alone, with the profile byte as DETAIL. -/
theorem fixCropLeavesAnUnsupportedProfileAlone : Obligations.FixCropLeavesAnUnsupportedProfileAlone := by
  unfold Obligations.FixCropLeavesAnUnsupportedProfileAlone
  intro s hrange hcap hprofile
  have hexec := exec_fixCrop_of_unsupportedProfile hrange hcap hprofile
  refine ⟨⟨_, hexec, rfl, statusOfRaise_codeField _, statusOfRaise_detailField _, statusOfRaise_errBit _,
    statusOfRaise_busyBit _⟩, fun h100 => ?_⟩
  rw [hexec, h100]
  rfl

/-! ## What a write of bits leaves (R13) -/

/-- A bit outside what was written is as before. -/
theorem BitsWritten.getBit_outside {b b' : Buffer} {start p : Nat} {bits : List Bool}
    (h : BitsWritten b b' start bits) (hp : p < start ∨ start + bits.length ≤ p) : b'.getBit p = b.getBit p := by
  obtain ⟨-, -, hbit, -⟩ := h
  rw [hbit, if_neg (by omega)]

/-- Bits that end before what was written stand where they stood. -/
theorem BitsWritten.streamAt_before {b b' : Buffer} {start a : Nat} {bits xs : List Bool}
    (h : BitsWritten b b' start bits) (hxs : StreamAt b a xs) (hend : a + xs.length ≤ start) : StreamAt b' a xs := by
  refine Eq.trans (List.map_congr_left fun i hi => ?_) hxs
  rw [List.mem_range] at hi
  exact h.getBit_outside (.inl (by omega))

/-- Writing the bits that already stand there changes no byte. -/
theorem BitsWritten.read_eq_of_streamAt {b b' : Buffer} {start : Nat} {bits : List Bool}
    (h : BitsWritten b b' start bits) (hstand : StreamAt b start bits) (a : Nat) : b'.read a = b.read a := by
  have hbit : ∀ p, b'.getBit p = b.getBit p := by
    intro p
    by_cases hp : start ≤ p ∧ p < start + bits.length
    · obtain ⟨i, rfl⟩ := Nat.exists_eq_add_of_le hp.1
      have hi : i < bits.length := by omega
      exact List.map_inj_left.1 (h.streamAt.trans hstand.symm) i (List.mem_range.2 hi)
    · exact h.getBit_outside (by omega)
  exact Buffer.read_ext fun i _ => hbit _

/-! ## What a success has written (R173, R174) -/

/-- FIX_CROP found the fields `f`, with the crop fields `old` and no VUI, and wrote the new crop fields, in bounds,
which made `b` of BUF. -/
structure FixedCrop (s : State) (b : Buffer) (f : SpsFields) (old : Option CropOffsets) : Prop where
  range : s.CropRange
  sps : SpsAt s.buf s.spsStart f old false
  fits : s.cropEnd f ≤ 8 * (s.arg1.toNat - 5)
  written : BitsWritten s.buf b (8 * (s.arg0.toNat + 5) + f.bits.length) (s.newCropBits f)

/-- All FIX_CROP can do: rewrite an SPS that fits, or raise (R172). -/
theorem exec_fixCrop_cases (s : State) :
    (∃ f old b, FixedCrop s b f old ∧ exec .fixCrop s = .next (s.afterFixCrop b f)) ∨
    ∃ e, exec .fixCrop s = .next (s.fail e) := by
  by_cases hrange : s.CropRange
  swap
  · exact .inr ⟨_, exec_fixCrop_of_not_cropRange hrange⟩
  rcases parseSps_cases s.buf s.spsStart with ⟨-, h⟩ | ⟨-, -, h⟩ | ⟨f, old, vui, hsps⟩ | ⟨-, -, h⟩
  · exact .inr ⟨_, exec_fixCrop_of_parse_error hrange h⟩
  · exact .inr ⟨_, exec_fixCrop_of_parse_error hrange h⟩
  · cases vui with
    | true => exact .inr ⟨_, exec_fixCrop_of_vui hrange hsps⟩
    | false =>
      rcases Nat.lt_or_ge (8 * (s.arg1.toNat - 5)) (s.cropEnd f) with hout | hfit
      · exact .inr ⟨_, exec_fixCrop_of_not_fits hrange hsps hout⟩
      · obtain ⟨b, hexec, hwritten⟩ := exec_fixCrop_of_fits hrange hsps hfit
        exact .inl ⟨f, old, b, ⟨hrange, hsps, hfit, hwritten⟩, hexec⟩
  · exact .inr ⟨_, exec_fixCrop_of_parse_error hrange h⟩

/-- A FIX_CROP with STATUS 0 has rewritten an SPS that fits. -/
theorem exec_fixCrop_success {s t : State} (hexec : exec .fixCrop s = .next t) (hstatus : t.status = 0#32) :
    ∃ f old b, FixedCrop s b f old ∧ t = s.afterFixCrop b f := by
  rcases exec_fixCrop_cases s with ⟨f, old, b, h, hok⟩ | ⟨e, hfail⟩
  · cases hexec.symm.trans hok
    exact ⟨f, old, b, h, rfl⟩
  · exact absurd hstatus (status_ne_zero_of_fail hfail hexec)

section
variable {s : State} {b : Buffer} {f : SpsFields} {old : Option CropOffsets} (h : FixedCrop s b f old)
include h

/-- Every byte before the parse region or past the range is as before (R173). -/
theorem FixedCrop.read_outside {a : Nat} (ha : a < s.arg0.toNat + 5 ∨ s.arg0.toNat + s.arg1.toNat ≤ a) :
    b.read a = s.buf.read a := by
  obtain ⟨-, -, hfits, -, -, -, hread⟩ := h
  unfold State.cropEnd at hfits
  exact hread a fun p hstart hend => by omega

/-- The range still lies in BUF, whose size is as before. -/
theorem FixedCrop.cropRange_after : (s.afterFixCrop b f).CropRange := by
  obtain ⟨hrange, -, -, hsize, -⟩ := h
  exact hrange.trans (Nat.le_of_eq (congrArg BitVec.toNat hsize.symm))

/-- The fields' old bits stand where they stood, and the new bits after them (R170, R173). -/
theorem FixedCrop.streamAt_after : StreamAt b s.spsStart.bitAddr (f.bits ++ s.newCropBits f) := by
  obtain ⟨-, ⟨-, -, -, hold⟩, -, hwritten⟩ := h
  rw [List.append_assoc, streamAt_append] at hold
  exact streamAt_append.2 ⟨hwritten.streamAt_before hold.1 le_rfl, hwritten.streamAt⟩

/-- The rewritten SPS has the same fields, the new crop values and no VUI (R174). -/
theorem FixedCrop.spsAt_after : SpsAt b s.spsStart f (some (s.newCrop f)) false := by
  have hstand := h.streamAt_after
  have hfits : s.cropEnd f ≤ 8 * ((s.afterFixCrop b f).arg1.toNat - 5) := h.fits
  rw [State.cropEnd, ← List.length_append] at hfits
  rw [State.newCropBits_eq, ← List.append_assoc, ← List.append_assoc] at hstand hfits
  rw [List.length_append] at hfits
  obtain ⟨hlegal, -⟩ := h.sps
  exact ⟨hlegal, s.newCrop_legal f, (h.cropRange_after.fits_start_iff (by simp)).2 (by omega),
    (streamAt_append.1 hstand).1⟩

/-- The stop bit is the last bit written (R170). -/
theorem FixedCrop.stopBit : b.getBit (8 * (s.arg0.toNat + 5) + s.cropEnd f - 1) = true := by
  have hstand := h.streamAt_after
  have hend : s.cropEnd f = (f.bits ++ s.newCropBits f).length := List.length_append.symm
  rw [State.newCropBits_eq, ← List.append_assoc] at hstand hend
  obtain ⟨-, hlast⟩ := streamAt_append.1 hstand
  rw [hend, List.length_append]
  exact (streamAt_cons.1 hlast).1

/-- FIX_CROP again stores the same results and leaves every byte (R174). -/
theorem FixedCrop.exec_again : ∃ b', exec .fixCrop (s.afterFixCrop b f) = .next (s.afterFixCrop b' f) ∧
    ∀ a, b'.read a = b.read a := by
  obtain ⟨b', hexec, hwritten⟩ := exec_fixCrop_of_fits h.cropRange_after h.spsAt_after h.fits
  exact ⟨b', hexec, hwritten.read_eq_of_streamAt h.written.streamAt⟩

end

/-- Settles O47: what a success has written lies between the splice point and F, inside the range. -/
theorem fixCropPreservesEverythingElse : Obligations.FixCropPreservesEverythingElse := by
  unfold Obligations.FixCropPreservesEverythingElse
  intro s t hexec hstatus
  obtain ⟨f, old, b, h, rfl⟩ := exec_fixCrop_success hexec hstatus
  refine ⟨f, old, s.cropEnd f, h.sps, rfl, rfl, h.fits, fun p hp => ?_, fun a => h.read_outside,
    h.written.streamAt, fun p hp => ?_⟩
  · exact h.written.getBit_outside (.inl (by omega))
  · unfold State.cropEnd at hp
    exact h.written.getBit_outside (.inr (by omega))

/-- Settles O48: the rewritten SPS stands where the old one did, so the second FIX_CROP writes the bits that are
there. -/
theorem fixCropReparsesAndRepeats : Obligations.FixCropReparsesAndRepeats := by
  unfold Obligations.FixCropReparsesAndRepeats
  intro s t hexec hstatus
  obtain ⟨f, old, b, h, rfl⟩ := exec_fixCrop_success hexec hstatus
  obtain ⟨b', hagain, hbytes⟩ := h.exec_again
  exact ⟨⟨f, old, s.cropEnd f, h.sps, rfl, h.spsAt_after, h.stopBit⟩, _, hagain, rfl, rfl, rfl, hbytes⟩

end Sys2Proof.Machine
end

section
/-! PROOF. The FILL commands (44_filler.md R190 to R194): storing a filler unit, on which both commands end, then each
command by its size. -/

namespace Sys2Proof.Machine

/-! ## Storing a filler unit (R190, R191, R193) -/

/-- A filler unit of `n` bytes stored from address `a`, with the results `n` and `r1` (R191, R193). -/
def State.afterFiller (s : State) (a n : Nat) (r1 : Word) : State :=
  (s.setBuf (s.buf.writeBytes a (fillerBytes n))).succeed (word n) r1

/-- What both commands end with: the bounds check, the filler unit and the results. -/
def State.storeFiller (s : State) (a n : Nat) (r1 : Word) : Except Raise State :=
  placeFiller s.buf a n >>= fun b => .ok ((s.setBuf b).succeed (word n) r1)

section
variable {s : State} {a n : Nat}

theorem finish_storeFiller_of_fits (h : a + n ≤ s.buf.bytes) (r1 : Word) :
    finish s (s.storeFiller a n r1) = .next (s.afterFiller a n r1) := by
  rw [State.storeFiller, placeFiller, if_neg (Nat.not_lt.2 h), except_ok_bind, finish_ok, State.afterFiller]

theorem finish_storeFiller_of_lt (h : s.buf.bytes < a + n) (r1 : Word) :
    finish s (s.storeFiller a n r1) = .next (s.fail .malformedBitstream) := by
  rw [State.storeFiller, placeFiller, if_pos h, except_error_bind, finish_error]

end

/-! ## FILLER_NAL (R191) -/

theorem exec_fillerNal_of_lt_six {s : State} (h : s.arg1.toNat < 6) :
    exec .fillerNal s = .next (s.fail .invalidSize) := congrArg (finish s) (if_pos h)

/-- A size that a filler unit can have: FILLER_NAL stores a unit of that size at ARG0. -/
theorem exec_fillerNal_of_six_le {s : State} (h : 6 ≤ s.arg1.toNat) :
    exec .fillerNal s = finish s (s.storeFiller s.arg0.toNat s.arg1.toNat 0#32) :=
  congrArg (finish s) (if_neg (Nat.not_lt.2 h))

/-- A register's number is the register as a result word. -/
theorem word_toNat_word (w : Word) : word w.toNat = w := by
  rw [word, BitVec.ofNat_toNat, BitVec.setWidth_eq]

/-- Settles O49: FILLER_NAL by its size, then by whether the unit fits. -/
theorem fillerNalStoresTheFillerUnit : Obligations.FillerNalStoresTheFillerUnit := by
  unfold Obligations.FillerNalStoresTheFillerUnit
  refine ⟨fun w => decode_eq_ok_iff_word.trans (and_iff_right rfl), fun s =>
    ⟨exec_fillerNal_of_lt_six, fun hsize hout => ?_, fun hsize hfit => ?_⟩⟩
  · exact (exec_fillerNal_of_six_le hsize).trans (finish_storeFiller_of_lt hout _)
  · refine ⟨s.buf.writeBytes s.arg0.toNat (fillerBytes s.arg1.toNat), ?_, Buffer.writeBytes_spec _ _ _⟩
    rw [exec_fillerNal_of_six_le hsize, finish_storeFiller_of_fits hfit, State.afterFiller, word_toNat_word]
    rfl

/-! ## PAD (R192, R193) -/

/-- A multiple of 8: PAD stores its results and STATUS alone, wherever the buffer lies. -/
theorem exec_pad_of_multiple {s : State} (h : s.arg1.toNat % 8 = 0) :
    exec .pad s = .next (s.succeed 0#32 0#32) := congrArg (finish s) (if_pos h)

/-- A deficit: PAD stores a filler unit of the tabled length just past the buffer. -/
theorem exec_pad_of_deficit {s : State} {d : Nat} (hd : s.arg1.toNat % 8 = d) (hpos : d ≠ 0) :
    exec .pad s = finish s (s.storeFiller (s.arg0.toNat + s.arg1.toNat) (fillerLen d) (word d)) := by
  subst hd
  exact congrArg (finish s) (if_neg hpos)

/-- Settles O50: a row of the table is a deficit with its filler length; PAD by whether that filler fits. -/
theorem padStoresTheTabledFiller : Obligations.PadStoresTheTabledFiller := by
  unfold Obligations.PadStoresTheTabledFiller
  refine ⟨fun w => decode_eq_ok_iff_word.trans (and_iff_right rfl), fun s =>
    ⟨exec_pad_of_multiple, fun row hrow hd => ?_⟩⟩
  have htabled : row.1 ≠ 0 ∧ fillerLen row.1 = row.2 := by
    clear hd
    revert row
    decide
  obtain ⟨hpos, hlen⟩ := htabled
  have hexec := exec_pad_of_deficit hd hpos
  rw [hlen] at hexec
  exact ⟨fun hout => hexec.trans (finish_storeFiller_of_lt hout _), fun hfit =>
    ⟨_, hexec.trans (finish_storeFiller_of_fits hfit _), Buffer.writeBytes_spec _ _ _⟩⟩

/-! ## PAD's law (R194) -/

/-- All that a PAD with STATUS 0 can have done: nothing to BUF for a multiple of 8, else the tabled filler stored. -/
theorem exec_pad_success {s t : State} (hexec : exec .pad s = .next t) (hstatus : t.status = 0#32) :
    (s.arg1.toNat % 8 = 0 ∧ t = s.succeed 0#32 0#32) ∨
    (s.arg1.toNat % 8 ≠ 0 ∧ t = s.afterFiller (s.arg0.toNat + s.arg1.toNat) (fillerLen (s.arg1.toNat % 8))
      (word (s.arg1.toNat % 8))) := by
  by_cases hd : s.arg1.toNat % 8 = 0
  · cases hexec.symm.trans (exec_pad_of_multiple hd)
    exact .inl ⟨hd, rfl⟩
  · have hpad := exec_pad_of_deficit rfl hd
    rcases Nat.lt_or_ge s.buf.bytes (s.arg0.toNat + s.arg1.toNat + fillerLen (s.arg1.toNat % 8)) with hout | hfit
    · exact absurd hstatus (status_ne_zero_of_fail (hpad.trans (finish_storeFiller_of_lt hout _)) hexec)
    · cases hexec.symm.trans (hpad.trans (finish_storeFiller_of_fits hfit _))
      exact .inr ⟨hd, rfl⟩

/-- The tabled length of a deficit fills up to a multiple of 8 (R192). -/
theorem add_fillerLen_mod_eight {d : Nat} (h : d < 8) : (d + fillerLen d) % 8 = 0 := by
  revert d
  decide

/-- A tabled length is its own result word. -/
theorem word_fillerLen_toNat {d : Nat} (h : d < 8) : (word (fillerLen d)).toNat = fillerLen d := by
  revert d
  decide

/-- Settles O51: a PAD that does not raise has left BUF or has stored the tabled filler, and the table's lengths fill
up to a multiple of 8. -/
theorem paddedSizeIsAMultipleOfEight : Obligations.PaddedSizeIsAMultipleOfEight := by
  unfold Obligations.PaddedSizeIsAMultipleOfEight
  intro s t hexec hstatus
  rcases exec_pad_success hexec hstatus with ⟨hd, rfl⟩ | ⟨hd, rfl⟩
  · exact ⟨hd, fun _ => ⟨rfl, rfl⟩, fun hne => absurd hd hne⟩
  · have hlt : s.arg1.toNat % 8 < 8 := Nat.mod_lt _ (by decide)
    have hsum := add_fillerLen_mod_eight hlt
    rw [State.afterFiller, State.succeed_res0, State.succeed_buf, State.setBuf_buf, word_fillerLen_toNat hlt]
    exact ⟨by omega, fun hzero => absurd hzero hd, fun _ =>
      ⟨rfl, six_le_fillerLen hd hlt, Buffer.writeBytes_spec _ _ _⟩⟩

end Sys2Proof.Machine
end

section
/-! PROOF. The errors of the commands (60_exceptions.md R211 to R213): the STATUS of each, that a command raises only
those of its row of the matrix, and that every error of a row is raised. -/

namespace Sys2Proof.Machine

/-! ## STATUS of an error (R211, R213) -/

/-- Settles O22: STATUS evaluates to the word; with a DETAIL it is a number below 2^32. -/
theorem statusValueOfEachError : Obligations.StatusValueOfEachError := by
  unfold Obligations.StatusValueOfEachError
  refine ⟨rfl, fun p => ?_, rfl, rfl, rfl, rfl, rfl⟩
  have hp := p.isLt
  rw [statusOfRaise_unsupportedProfile, BitVec.toNat_ofNat, Nat.mod_eq_of_lt (by omega)]

/-! ## Computations that raise errors of a set -/

/-- The computation ends with a value that satisfies `Q`, or raises an error of `E`: `EndsWell` for any set
of errors. -/
def EndsWithin {α : Type} (E : Raise → Prop) (Q : α → Prop) : Except Raise α → Prop
  | .ok a => Q a
  | .error e => E e

section
variable {α β : Type} {E : Raise → Prop} {P : α → Prop} {Q : β → Prop}

theorem EndsWithin.bind {x : Except Raise α} {f : α → Except Raise β} (hx : EndsWithin E AnyValue x)
    (hf : ∀ a, EndsWithin E Q (f a)) : EndsWithin E Q (x >>= f) := by
  cases x with
  | ok a => exact hf a
  | error e => exact hx

theorem EndsWithin.ite {c : Prop} [Decidable c] {x y : Except Raise α} (hx : c → EndsWithin E P x)
    (hy : ¬ c → EndsWithin E P y) : EndsWithin E P (if c then x else y) := by
  split
  · next h => exact hx h
  · next h => exact hy h

end

/-! ## What the cursor, codec, parse, scan and filler functions can raise

Each raises MalformedBitstream, and the errors that its other hypotheses name. -/

section
variable {E : Raise → Prop} (hmalformed : E .malformedBitstream) (b : Buffer) (c : Cursor)

theorem findSps_endsWithin (hnone : E .notFound) (start stop : Nat) :
    EndsWithin E AnyValue (findSps b start stop) := by
  rcases findSps_cases b stop start with ⟨p, -, h⟩ | ⟨-, h⟩
  · exact h ▸ trivial
  · exact h ▸ hnone

include hmalformed

theorem cursorReadBit_endsWithin : EndsWithin E AnyValue (cursorReadBit b c) :=
  .ite (fun _ => trivial) fun _ => hmalformed

theorem cursorReadBits_endsWithin (n : Nat) : EndsWithin E AnyValue (cursorReadBits b c n) := by
  rcases cursorReadBits_cases b c n with ⟨-, h⟩ | ⟨-, h⟩
  · exact h ▸ trivial
  · exact h ▸ hmalformed

theorem readUE_endsWithin : EndsWithin E AnyValue (readUE b c) := by
  rcases readUE_cases b c with ⟨v, -, -, -, h⟩ | h
  · exact h ▸ trivial
  · exact h ▸ hmalformed

theorem readSE_endsWithin : EndsWithin E AnyValue (readSE b c) :=
  (readUE_endsWithin hmalformed b c).bind fun _ => trivial

theorem Writes.endsWithin {p : Buffer → Cursor → Except Raise (Buffer × Cursor)} {bits : List Bool}
    (h : Writes p bits) : EndsWithin E AnyValue (p b c) := by
  rcases h b c with ⟨-, b', e, -⟩ | ⟨-, e⟩
  · exact e ▸ trivial
  · exact e ▸ hmalformed

theorem writeUE_endsWithin (hrange : E .valueRange) (v : Nat) : EndsWithin E AnyValue (writeUE b c v) := by
  by_cases hv : UeRange v
  · exact (writes_ue hv).endsWithin hmalformed b c
  · exact writeUE_range hv ▸ hrange

theorem writeSE_endsWithin (hrange : E .valueRange) (v : Int) : EndsWithin E AnyValue (writeSE b c v) :=
  .ite (fun _ => hrange) fun _ => writeUE_endsWithin hmalformed b c hrange _

theorem parseSps_endsWithin (hprofile : ∀ p : Byte, p.toNat ∈ unsupportedProfiles → E (.unsupportedProfile p))
    (hvui : E .unsupportedVui) : EndsWithin E AnyValue (parseSps b c) := by
  rcases parseSps_cases b c with ⟨-, h⟩ | ⟨-, hmem, h⟩ | ⟨f, old, vui, hat⟩ | ⟨-, -, h⟩
  · exact h ▸ hmalformed
  · refine h ▸ hprofile _ ?_
    rwa [BitVec.toNat_ofNat, Nat.mod_eq_of_lt (profileAt_lt b c)]
  · exact parseSps_of_spsAt hat ▸ .ite (fun _ => hvui) fun _ => trivial
  · exact h ▸ hmalformed

theorem inspectProfile_endsWithin (hnone : E .notFound) (start stop : Nat) :
    EndsWithin E AnyValue (inspectProfile b start stop) :=
  (findSps_endsWithin b hnone start stop).bind fun _ => .ite (fun _ => hmalformed) fun _ => trivial

theorem checkEnd_endsWithin (stop : Nat) : EndsWithin E AnyValue (checkEnd b stop) :=
  .ite (fun _ => hmalformed) fun _ => trivial

theorem placeFiller_endsWithin (a n : Nat) : EndsWithin E AnyValue (placeFiller b a n) :=
  .ite (fun _ => hmalformed) fun _ => trivial

end

/-! ## The rows of the matrix (R212) -/

/-- `e` is an error of the row of `i`, other than the word check's IllegalCommand (R212). -/
def InRow (i : Instr) (e : Raise) : Prop := e ≠ .illegalCommand ∧ i.mayRaise e = true

/-- `t` has the STATUS of success, the BUF of `s` unless `i` writes it (R56), and its CUR_POS unless `i` uses the cursor
(R26). -/
structure SucceedsWithin (i : Instr) (s t : State) : Prop where
  status : t.status = statusOk
  buf : i.writesBuf = false → t.buf = s.buf
  curPos : i.usesCursor = false → t.curPos = s.curPos

/-- Every row has MalformedBitstream (R212). -/
theorem malformedBitstream_inRow (i : Instr) : InRow i .malformedBitstream := by
  cases i <;> exact ⟨nofun, rfl⟩

/-- UnsupportedProfile with a profile of R163's set is in the row of FIX_CROP (R212). -/
theorem unsupportedProfile_inRow {p : Byte} (h : p.toNat ∈ unsupportedProfiles) :
    InRow .fixCrop (.unsupportedProfile p) := ⟨nofun, decide_eq_true h⟩

/-- A legal command's computation raises an error of its row, or ends in a success that
leaves what the command has no use for. -/
theorem exec_endsWithin_row {i : Instr} (hwf : i.wf = true) (s : State) :
    ∃ r, exec i s = finish s r ∧ EndsWithin (InRow i) (SucceedsWithin i s) r := by
  have hmal := malformedBitstream_inRow i
  cases i with
  | readBit => exact ⟨_, rfl, (cursorReadBit_endsWithin hmal _ _).bind fun _ => ⟨rfl, fun _ => rfl, nofun⟩⟩
  | writeBit => exact ⟨_, rfl, ((writes_bit _).endsWithin hmal _ _).bind fun _ => ⟨rfl, nofun, nofun⟩⟩
  | readBits n =>
    exact ⟨_, rfl, .ite (fun _ => (cursorReadBits_endsWithin hmal _ _ _).bind fun _ => ⟨rfl, fun _ => rfl, nofun⟩)
      fun hn => absurd (of_decide_eq_true hwf) hn⟩
  | writeBits n =>
    exact ⟨_, rfl, .ite (fun _ => ((writes_bits _ _).endsWithin hmal _ _).bind fun _ => ⟨rfl, nofun, nofun⟩)
      fun hn => absurd (of_decide_eq_true hwf) hn⟩
  | readUe => exact ⟨_, rfl, (readUE_endsWithin hmal _ _).bind fun _ => ⟨rfl, fun _ => rfl, nofun⟩⟩
  | writeUe => exact ⟨_, rfl, (writeUE_endsWithin hmal _ _ ⟨nofun, rfl⟩ _).bind fun _ => ⟨rfl, nofun, nofun⟩⟩
  | readSe => exact ⟨_, rfl, (readSE_endsWithin hmal _ _).bind fun _ => ⟨rfl, fun _ => rfl, nofun⟩⟩
  | writeSe => exact ⟨_, rfl, (writeSE_endsWithin hmal _ _ ⟨nofun, rfl⟩ _).bind fun _ => ⟨rfl, nofun, nofun⟩⟩
  | findStartCode =>
    refine ⟨_, rfl, (checkEnd_endsWithin hmal _ _).bind fun _ => ?_⟩
    split
    · exact ⟨nofun, rfl⟩
    · exact ⟨rfl, fun _ => rfl, fun _ => rfl⟩
  | findSps =>
    exact ⟨_, rfl, (checkEnd_endsWithin hmal _ _).bind fun _ =>
      (findSps_endsWithin _ ⟨nofun, rfl⟩ _ _).bind fun _ => ⟨rfl, fun _ => rfl, fun _ => rfl⟩⟩
  | inspectProfile =>
    exact ⟨_, rfl, (checkEnd_endsWithin hmal _ _).bind fun _ =>
      (inspectProfile_endsWithin hmal _ ⟨nofun, rfl⟩ _ _).bind fun _ => ⟨rfl, fun _ => rfl, fun _ => rfl⟩⟩
  | fixCrop =>
    exact ⟨_, rfl, .ite (fun _ => hmal) fun _ =>
      (parseSps_endsWithin hmal _ _ (fun _ => unsupportedProfile_inRow) ⟨nofun, rfl⟩).bind fun p =>
        ((writes_crop (cropValues_legal _ _ _) p.vui).endsWithin hmal _ _).bind fun _ => ⟨rfl, nofun, fun _ => rfl⟩⟩
  | fillerNal =>
    exact ⟨_, rfl, .ite (fun _ => ⟨nofun, rfl⟩) fun _ =>
      (placeFiller_endsWithin hmal _ _ _).bind fun _ => ⟨rfl, nofun, fun _ => rfl⟩⟩
  | pad =>
    exact ⟨_, rfl, .ite (fun _ => ⟨rfl, nofun, fun _ => rfl⟩) fun _ =>
      (placeFiller_endsWithin hmal _ _ _).bind fun _ => ⟨rfl, nofun, fun _ => rfl⟩⟩

/-- Settles O20: a success has STATUS 0 and leaves what the command has no use for; a raise is of an error of the row
and leaves all but STATUS. -/
theorem commandsRaiseOnlyTheirErrors : Obligations.CommandsRaiseOnlyTheirErrors := by
  unfold Obligations.CommandsRaiseOnlyTheirErrors
  intro i s t hwf hexec
  obtain ⟨r, hr, hends⟩ := exec_endsWithin_row hwf s
  rw [hr] at hexec
  cases r with
  | ok u =>
    obtain ⟨hstatus, hbuf, hpos⟩ := hends
    cases hexec
    exact ⟨absurd hstatus, hbuf, hpos⟩
  | error e =>
    obtain ⟨hlegal, hrow⟩ := hends
    cases hexec
    exact ⟨fun _ => ⟨e, hlegal, hrow, rfl⟩, fun _ => rfl, fun _ => rfl⟩

/-! ## Every error of a row is raised (R212) -/

/-- Some legal command with the opcode of `i` raises `e` in some state. -/
def OpcodeRaises (i : Instr) (e : Raise) : Prop :=
  ∃ (j : Instr) (s : State), j.wf = true ∧ j.opcode = i.opcode ∧ exec j s = .next (s.fail e)

theorem OpcodeRaises.of_exec {i : Instr} {s : State} {e : Raise} (hwf : i.wf = true)
    (h : exec i s = .next (s.fail e)) : OpcodeRaises i e := ⟨i, s, hwf, rfl, h⟩

/-- A block straight after power-on with the given ARG0 and ARG1: no bit is in the cursor's window. -/
def withArgs (a0 a1 : Word) : State := { State.powerOn { bufBytes := 1 } with arg0 := a0, arg1 := a1 }

/-- A block whose ARG0 and ARG1 give the range that is all of BUF, with `bytes` as its parse region (R162). -/
def withRegion (bytes : List Byte) : State :=
  { State.powerOn { bufBytes := 5 + bytes.length } with
    arg1 := BitVec.ofNat 32 (5 + bytes.length)
    buf := (State.powerOn { bufBytes := 5 + bytes.length }).buf.writeBytes 5 bytes }

/-- With ARG1 at its largest a range ends past BUF and a filler has no room, and no bit fits in the cursor's window. -/
theorem opcodeRaises_malformedBitstream (i : Instr) : OpcodeRaises i .malformedBitstream := by
  cases i with
  | readBits n => exact ⟨.readBits 1#6, withArgs 0 0xFFFFFFFF, rfl, rfl, rfl⟩
  | writeBits n => exact ⟨.writeBits 1#6, withArgs 0 0xFFFFFFFF, rfl, rfl, rfl⟩
  | _ => exact .of_exec (s := withArgs 0 0xFFFFFFFF) rfl rfl

/-- Nothing is found in an empty range. -/
theorem opcodeRaises_notFound {i : Instr} (h : i.mayRaise .notFound = true) : OpcodeRaises i .notFound := by
  cases i with
  | findStartCode => exact .of_exec (s := withArgs 0 0) rfl rfl
  | findSps => exact .of_exec (s := withArgs 0 0) rfl rfl
  | inspectProfile => exact .of_exec (s := withArgs 0 0) rfl rfl
  | _ => nomatch h

/-- Each writer has one ARG0 without a code (R126, R128). -/
theorem opcodeRaises_valueRange {i : Instr} (h : i.mayRaise .valueRange = true) : OpcodeRaises i .valueRange := by
  cases i with
  | writeUe => exact .of_exec (s := withArgs 0xFFFFFFFF 0) rfl (exec_writeUe_of_not_ueRange (by decide))
  | writeSe => exact .of_exec (s := withArgs 0x80000000 0) rfl (exec_writeSe_of_not_seRange (by decide))
  | _ => nomatch h

/-- No filler unit has 0 bytes (R191). -/
theorem opcodeRaises_invalidSize {i : Instr} (h : i.mayRaise .invalidSize = true) : OpcodeRaises i .invalidSize := by
  cases i with
  | fillerNal => exact .of_exec (s := withArgs 0 0) rfl (exec_fillerNal_of_lt_six (by decide))
  | _ => nomatch h

/-- A parse region that is profile_idc alone is enough for the profile to be reported (R163). -/
theorem opcodeRaises_unsupportedProfile {i : Instr} {p : Byte} (h : i.mayRaise (.unsupportedProfile p) = true) :
    OpcodeRaises i (.unsupportedProfile p) := by
  cases i with
  | fixCrop =>
    have hread : (withRegion [p]).buf.read ((withRegion [p]).arg0.toNat + 5) = p := Buffer.read_write_same _ 5 p
    have hrange : (withRegion [p]).CropRange := Nat.le_refl 6
    have hcap : 5 < (withRegion [p]).arg1.toNat := Nat.lt_succ_self 5
    have hexec := exec_fixCrop_of_unsupportedProfile hrange hcap (hread.symm ▸ of_decide_eq_true h)
    exact .of_exec rfl (hread ▸ hexec)
  | _ => nomatch h

/-- The SPS of the spec's vector V-SPS-4: its vui flag is set (R168). -/
theorem opcodeRaises_unsupportedVui {i : Instr} (h : i.mayRaise .unsupportedVui = true) :
    OpcodeRaises i .unsupportedVui := by
  cases i with
  | fixCrop => exact .of_exec (s := withRegion [0x42, 0xC0, 0x1E, 0xDA, 0x1C, 0xFB]) rfl rfl
  | _ => nomatch h

/-- A count of 33 makes any opcode's word illegal (R73). -/
theorem exists_illegalWord (op : BitVec 8) : ∃ w d, opField w = op ∧ decode w = .error d := by
  obtain ⟨hop, hn, hrsvd⟩ := fields_of_word 33#6 op
  set w := (33#6).setWidth 32 <<< 8 ||| op.setWidth 32
  have hnum : w.toNat = 33 * 256 + op.toNat := by simp [word_of_fields w, hop, hn, hrsvd]
  have hlt := op.isLt
  have hillegal : ¬ ∃ i, decode w = .ok i := by
    rw [exists_decode_eq_ok_iff]
    rintro (⟨hcount, -⟩ | ⟨hcount, -⟩) <;> omega
  obtain ⟨d, hd⟩ := (exists_decode_eq_error_iff w).2 hillegal
  exact ⟨w, d, hop, hd⟩

/-- Settles O21, column by column of the matrix. -/
theorem everyErrorOfTheMatrixHappens : Obligations.EveryErrorOfTheMatrixHappens := by
  unfold Obligations.EveryErrorOfTheMatrixHappens
  intro i e _ hrow
  cases e with
  | illegalCommand => exact exists_illegalWord i.opcode
  | notFound => exact opcodeRaises_notFound hrow
  | unsupportedProfile p => exact opcodeRaises_unsupportedProfile hrow
  | unsupportedVui => exact opcodeRaises_unsupportedVui hrow
  | invalidSize => exact opcodeRaises_invalidSize hrow
  | malformedBitstream => exact opcodeRaises_malformedBitstream i
  | valueRange => exact opcodeRaises_valueRange hrow

end Sys2Proof.Machine
end

section
/-! PROOF. The reset input (70_reset_and_hazards.md R240 to R242): power-on, and the turns of a reset and of a later
power-on. -/

namespace Sys2Proof.Machine

/-- Settles O26: BUF is empty and of a legal size, and STATUS is that of success. -/
theorem resetMeetsTheInvariant : Obligations.ResetMeetsTheInvariant := by
  unfold Obligations.ResetMeetsTheInvariant
  have hchosen : Config.chosen.Legal := by decide
  exact ⟨State.powerOn_inv hchosen, fun _ => State.powerOn_inv⟩

section
variable {s : State} {rest : List Turn}

/-- A reset's turn is `State.afterReset` (R240, R241). -/
theorem step_reset (h : s.agenda = .reset :: rest) : step s = .next { s with agenda := rest }.afterReset :=
  step_cons h

/-- A later power-on's turn is `State.afterPowerOn` (R241, log 12). -/
theorem step_powerOn (h : s.agenda = .powerOn :: rest) : step s = .next { s with agenda := rest }.afterPowerOn :=
  step_cons h

end

/-- With no turn to come an idle block stays as it is (R243). -/
theorem step_idle {s : State} (hnil : s.agenda = []) (hidle : s.busy = false) : step s = .next s :=
  (step_nil hnil).trans (blockTurn_idle hidle)

/-- A reset leaves no command pending (R242). -/
@[simp] theorem State.afterReset_busy (s : State) : s.afterReset.busy = false :=
  show busyBit statusOk = false by decide

/-- A byte not written since power-on is its free value (R241, log 3). -/
theorem Buffer.read_of_cells_nil {b : Buffer} (h : b.cells = []) (a : Nat) :
    b.read a = Config.powerOnByte b.epoch a := by
  simp [Buffer.read, h]

/-- Settles O1: at power-on by `State.powerOn` and the size's range, later by what the two turns do. -/
theorem resetGivesEveryRegisterItsResetValue : Obligations.ResetGivesEveryRegisterItsResetValue := by
  unfold Obligations.ResetGivesEveryRegisterItsResetValue
  refine ⟨fun c hc => ?_, fun s rest => ⟨step_reset, fun h => ?_⟩⟩
  · exact ⟨rfl, rfl, rfl, rfl, rfl, rfl, rfl, rfl, rfl, rfl, rfl, State.powerOn_bytes hc⟩
  · exact ⟨s.afterPowerOn.buf, s.afterPowerOn_size, step_powerOn h⟩

/-- Settles O2: the state after the reset is idle, so the block's turn leaves it as it is. -/
theorem resetCancelsThePendingCommand : Obligations.ResetCancelsThePendingCommand := by
  unfold Obligations.ResetCancelsThePendingCommand
  intro s _ h
  exact ⟨_, step_reset h, step_idle rfl (State.afterReset_busy _),
    rfl, rfl, rfl, rfl, rfl, rfl, rfl, rfl, rfl, rfl, rfl, rfl⟩

/-- Settles O3: a power-on's turn leaves BUF without a written byte, a reset's turn leaves BUF as it was. -/
theorem powerOnMakesEveryByteOfBufFree : Obligations.PowerOnMakesEveryByteOfBufFree := by
  unfold Obligations.PowerOnMakesEveryByteOfBufFree
  refine fun s t rest hstep => ⟨fun h => ?_, fun h => ?_⟩
  · cases hstep.symm.trans (step_powerOn h)
    exact Buffer.read_of_cells_nil rfl
  · cases hstep.symm.trans (step_reset h)
    exact fun _ => rfl

end Sys2Proof.Machine
end

section
/-! PROOF. The busy hazard and the accesses outside the interface (70_reset_and_hazards.md R250, R251; 10_state.md R31;
20_memory.md R50). -/

namespace Sys2Proof.Machine

/-! ## Where the register map has a word (R21, R31) -/

theorem slotAt_eq_none_iff (off : Nat) : slotAt off = none ↔ off % 4 ≠ 0 ∨ 0x40 ≤ off := by
  simp only [slotAt, ite_eq_iff, reduceCtorEq, and_false, and_true, false_or]
  omega

theorem exists_slotAt {off : Nat} (hlt : off < 0x40) (haligned : off % 4 = 0) : ∃ slot, slotAt off = some slot := by
  rw [← Option.ne_none_iff_exists', Ne, slotAt_eq_none_iff]
  omega

/-- STATUS stands at offset 0x04 alone (R21). -/
theorem slotAt_eq_status_iff (off : Nat) : slotAt off = some (.reg .status) ↔ off = 0x04 := by
  simp only [slotAt, ite_eq_iff, reduceCtorEq, Option.some.injEq, Slot.reg.injEq, and_false, and_true,
    false_or, or_false]
  omega

/-! ## Hazards and refusals, for any access -/

section
variable {s : State} {rest : List Turn} {a : HostAccess} (h : s.agenda = .host a :: rest)
include h

theorem step_host_hazard (hcheck : a.check s.buf.bytes = none) (hbusy : s.busy = true)
    (hread : a.isStatusRead = false) : step s = .fault .hostHazard :=
  (step_cons h).trans (hostAccess_hazard hcheck hbusy hread)

/-- An access outside the interface is refused, busy or not (log 6). -/
theorem step_host_refused {r : Refusal} (hcheck : a.check s.buf.bytes = some r) : step s = .refused r := by
  rw [step_cons h]
  simp [runTurn, hostAccess, hcheck]

end

/-- Settles O9: each access but the read of STATUS passes the check of R251 and is not that read. -/
theorem hostAccessWhileBusyIsAHazard : Obligations.HostAccessWhileBusyIsAHazard := by
  unfold Obligations.HostAccessWhileBusyIsAHazard
  refine fun s rest hbusy => ⟨fun off hlt haligned hne h => ?_, fun off hlt haligned v h => ?_, fun a hin h => ?_,
    fun a hin v h => ?_, fun h => step_readReg h rfl (.inr rfl)⟩
  · obtain ⟨slot, hslot⟩ := exists_slotAt hlt haligned
    have hread : slotAt off ≠ some (.reg .status) := mt (slotAt_eq_status_iff off).1 hne
    exact step_host_hazard h (HostAccess.check_readReg hslot _) hbusy (decide_eq_false hread)
  · obtain ⟨slot, hslot⟩ := exists_slotAt hlt haligned
    exact step_writeReg_busy h hslot hbusy
  · exact step_host_hazard h (HostAccess.check_readBuf hin) hbusy rfl
  · exact step_host_hazard h (HostAccess.check_writeBuf hin v) hbusy rfl

/-- A register access of another width, unaligned or past the register space, has no word to reach (R31). -/
theorem not_width_and_slot {off w : Nat} (h : w ≠ 4 ∨ off % 4 ≠ 0 ∨ 0x40 ≤ off) :
    ¬ (w = 4 ∧ (slotAt off).isSome) := by
  rw [← slotAt_eq_none_iff] at h
  rcases h with h | h <;> simp [h]

/-- Settles O10: each such access fails the check of R251, which comes before that of R250. -/
theorem accessesOutsideTheInterfaceAreRefused : Obligations.AccessesOutsideTheInterfaceAreRefused := by
  unfold Obligations.AccessesOutsideTheInterfaceAreRefused
  refine fun s rest => ⟨fun off w hout => ?_, fun a w hout => ?_⟩
  · have hreg := not_width_and_slot hout
    exact ⟨fun h => step_host_refused h (if_neg hreg), fun _ h => step_host_refused h (if_neg hreg)⟩
  · have hbuf : ¬ (w = 1 ∧ a < s.buf.bytes) := fun ⟨hw, hlt⟩ => hout.elim (· hw) (Nat.not_le.2 hlt)
    exact ⟨fun h => step_host_refused h (if_neg hbuf), fun _ h => step_host_refused h (if_neg hbuf)⟩

end Sys2Proof.Machine
end

section
/-! PROOF. The block straight after power-on (70_reset_and_hazards.md R243): with CUR_LIMIT = 0 no bit is in bounds. -/

namespace Sys2Proof.Machine

/-- At power-on no command is pending (R243). -/
@[simp] theorem State.powerOn_busy (c : Config) : (State.powerOn c).busy = false :=
  show busyBit 0#32 = false by decide

/-- Under a limit of 0 no bit fits (R54). -/
theorem Cursor.not_fits_of_limit_zero {c : Cursor} (h : c.limit = 0) (m : Nat) {n : Nat} (hn : n ≠ 0) :
    ¬ c.Fits m n := by
  rintro (h0 | ⟨hwindow, -⟩)
  · exact hn h0
  · omega

/-- A Ue code has a bit. -/
theorem ueCode_length_ne_zero (v : Nat) : (ueCode v).length ≠ 0 := by
  rw [ueCode_length]
  omega

theorem seCode_length_ne_zero (v : Int) : (seCode v).length ≠ 0 := ueCode_length_ne_zero _

/-- With CUR_LIMIT = 0 and an ARG0 that has a code, every cursor command of at least one bit raises MalformedBitstream
(R100, R101, R243). -/
theorem exec_cursor_of_curLimit_zero {s : State} {i : Instr} (hlimit : s.cursor.limit = 0)
    (hue : UeRange s.arg0.toNat) (hse : SeRange s.arg0.toInt) (hwf : i.wf = true) (hcursor : i.usesCursor = true)
    (hread : i ≠ .readBits 0#6) (hwrite : i ≠ .writeBits 0#6) :
    exec i s = .next (s.fail .malformedBitstream) := by
  have hout {n : Nat} (hn : n ≠ 0) : ¬ s.cursor.Fits s.buf.bytes n := Cursor.not_fits_of_limit_zero hlimit _ hn
  have hcount {n : BitVec 6} (hn : n ≠ 0#6) : n.toNat ≠ 0 := BitVec.toNat_ne_iff_ne.2 hn
  cases i with
  | readBit => exact exec_readBit_eq s ▸ exec_readBits_of_not_fits (by decide) (hout (by decide))
  | writeBit => exact exec_writeBit_eq s ▸ exec_writeBits_of_not_fits (by decide) (hout (by decide))
  | readBits n =>
    exact exec_readBits_of_not_fits (of_decide_eq_true hwf) (hout (hcount fun hn => hread (congrArg _ hn)))
  | writeBits n =>
    exact exec_writeBits_of_not_fits (of_decide_eq_true hwf) (hout (hcount fun hn => hwrite (congrArg _ hn)))
  | readUe =>
    exact (exec_readUe_cases s).resolve_left fun ⟨v, _, _, hfits, _⟩ => hout (ueCode_length_ne_zero v) hfits
  | readSe =>
    exact (exec_readSe_cases s).resolve_left fun ⟨v, _, _, hfits, _⟩ => hout (seCode_length_ne_zero v) hfits
  | writeUe => exact (writeUe_writesCode hue).2 (hout (ueCode_length_ne_zero _))
  | writeSe => exact (writeSe_writesCode hse).2 (hout (seCode_length_ne_zero _))
  | _ => nomatch hcursor

/-- Settles O4: the registers are 0, so no bit is in the cursor's window, and a field of no bits changes nothing. -/
theorem cursorCommandsStraightAfterPowerOn : Obligations.CursorCommandsStraightAfterPowerOn := by
  unfold Obligations.CursorCommandsStraightAfterPowerOn
  intro c _
  have hillegal : decode 0#32 = .error (.reservedOpcode 0#8) := by decide
  refine ⟨step_idle rfl (State.powerOn_busy c), fun i => ?_, rfl, rfl, fun rest => ?_⟩
  · exact exec_cursor_of_curLimit_zero rfl (show UeRange 0 by decide) (show SeRange 0 by decide)
  · exact step_block_of_illegal rfl (show busyBit 1#32 = true by decide) hillegal

end Sys2Proof.Machine
end
